-- ==== Sys2Proof/Word.lean ====
section
/-! DEFINITION. The word types of the block: bytes and 15-bit field values (10_state.md R32). Everything is unsigned
(00_scope.md section 5). -/

namespace Sys2Proof

/-- A byte, 8 bits: ring storage, body accumulator, header checksum (R32). -/
abbrev Byte := BitVec 8

/-- A decoded variable-length field, `0..32767`, 15 bits (R32, R100). -/
abbrev Field := BitVec 15

/-- The largest field value, `127 + 255 * 128` (R100). -/
abbrev vmax : Nat := 32767

end Sys2Proof
end

