-- ==== Sys2Proof/Config.lean ====
section
/-! DEFINITION. The configuration of one block (00_scope.md R6), fixed for its life, and the free values: what the spec
leaves unspecified, as constants without a body, so that no proof can rest on their value. -/

namespace Sys2Proof

/-- The six implementation parameters of R6. No source gives a value for any of them. A configuration with `C < 2` is
refused (R7): none can be built. `MAX_BODY` is a natural number in `0..32767`, which is a `Field`. -/
structure Config where
  /-- Ring-buffer capacity in bytes. -/
  C : Nat
  /-- The largest declared body size the parser accepts (`MAX_BODY`). -/
  maxBody : Field
  /-- Capacity in bytes of the body accumulator (`BODY_CAP`). -/
  bodyCap : Nat
  /-- `SYNC[0]`. -/
  sync0 : Byte
  /-- `SYNC[1]`. -/
  sync1 : Byte
  /-- `SYNC[2]`. -/
  sync2 : Byte
  /-- R7: capacities below 2 are refused. -/
  two_le : 2 ≤ C
  deriving DecidableEq, Repr

/-- R8: a configuration is well-formed when `BODY_CAP >= MAX_BODY`. Others are still given a meaning. -/
abbrev Config.wellFormed (cfg : Config) : Prop := cfg.maxBody.toNat ≤ cfg.bodyCap

/-- DESIGN CHOICE (log 1), unsafe: the configuration `TCFG-A` of 95_test_vectors.md section 0. Only `State.reset` uses
it; the spec gives the parameters no value, and no statement rests on these. -/
def Config.tcfgA : Config :=
  { C := 16, maxBody := 8#15, bodyCap := 8, sync0 := 0xAA#8, sync1 := 0x55#8, sync2 := 0xC3#8, two_le := by decide }

/-- FREE VALUE (log 7), safe: the byte of `p.body_acc` at an address that nothing has written, which R31 leaves
unspecified ("a model treats it as any value"). -/
opaque Config.accUnspecified : Nat → Byte

/-- FREE VALUE (log 27), safe: the byte of `p.body_acc` at an address, at the use numbered by the first argument, where R30
gives the accumulator no meaning ("or hold any value"): everywhere but in phase `BODY`. -/
opaque Config.accFree : Nat → Nat → Byte

/-- FREE VALUE (log 8), safe: `p.decl_size - p.body_count` where `p.body_count > p.decl_size`. The spec subtracts
naturals there and gives no result; R25 excludes the case in phase `BODY`. -/
opaque Config.freeRemainder : Nat → Nat → Nat

end Sys2Proof
end

