-- ==== Sys2Proof/Syntax.lean ====
section
/-! DEFINITION. The operations ("instructions") of the block: one constructor per row of spec/opcode_table.json
(30_encoding.md R68, R70, R71). -/

namespace Sys2Proof

/-- One constructor per row of the operation table, in the table's order. -/
inductive Instr where
  /-- `RESET` (R180). -/
  | reset
  /-- `RB.INIT` (R80). -/
  | rbInit
  /-- `RB.APPEND data` (R81); `length` is `len(data)`. -/
  | rbAppend (data : List Byte)
  /-- `RB.DEQ` (R83). -/
  | rbDeq
  /-- `RB.PEEK index` (R84); the index is a natural number of any magnitude. -/
  | rbPeek (index : Nat)
  /-- `RB.UNDEQ b` (R85). -/
  | rbUndeq (b : Byte)
  /-- `VL.DEC` (R101). -/
  | vlDec
  /-- `P.INIT` (R120). -/
  | pInit
  /-- `P.STEP` (R122). -/
  | pStep
  /-- `DRIVE` (R130). -/
  | drive
  /-- `P.SYNC`, phase code 0 (R123). -/
  | pSync
  /-- `P.HSIZE`, phase code 1 (R124). -/
  | pHsize
  /-- `P.HTYPE`, phase code 2 (R125). -/
  | pHtype
  /-- `P.HCSUM`, phase code 3 (R126, R127). -/
  | pHcsum
  /-- `P.BODY`, phase code 4 (R128). -/
  | pBody
  /-- `P.ILLEGAL`, phase code 5 (R129). -/
  | pIllegal5
  /-- `P.ILLEGAL`, phase codes 6 and 7 (R129); `low` is bit 0 of the code, which the row leaves open. -/
  | pIllegal67 (low : BitVec 1)
  /-- `W.SYNC0`, a byte `s` equal to `SYNC[0]` (R61). -/
  | wSync0 (s : Byte)
  /-- `W.SYNC1`, a byte `s` equal to `SYNC[1]` (R61). -/
  | wSync1 (s : Byte)
  /-- `W.SYNC2`, a byte `s` equal to `SYNC[2]` (R61). -/
  | wSync2 (s : Byte)
  /-- `W.SKIP`, any byte `x` different from the marker byte looked for (R68). -/
  | wSkip (x : Byte)
  /-- `W.V1`, the byte `0vvvvvvv` (R62). -/
  | wV1 (v : BitVec 7)
  /-- `W.V2`, the bytes `1lllllll hhhhhhhh` (R63). -/
  | wV2 (l : BitVec 7) (h : Byte)
  /-- `W.CSUM`, the header checksum byte (R65). -/
  | wCsum (c : Byte)
  /-- `W.BODY`, one body byte (R66). -/
  | wBody (b : Byte)
  /-- `VL.ENC v`, reference function (R104). -/
  | vlEnc (v : Nat)
  /-- `FB.BUILD body type size`, reference function (R110). -/
  | fbBuild (body : List Byte) (type : Nat) (size : Nat)
  /-- `FEED bytes`, pseudo-operation (R71). -/
  | feed (data : List Byte)
  /-- `FEED1 bytes`, pseudo-operation (R71). -/
  | feed1 (data : List Byte)
  /-- `FRAME(type, body)`, pseudo-operation (R71). -/
  | frame (type : Nat) (body : List Byte)
  /-- `ENC(v)`, pseudo-operation (R71). -/
  | enc (v : Nat)
  deriving DecidableEq, Repr

/-- Why bytes at the command port are no operation. The port's format is the model's own (log 2, log 25); every reject
is safe: the machine stops where no spec says anything. -/
inductive Reject where
  /-- A first byte that no operation has. -/
  | unassigned (command : Byte)
  /-- The bytes end before the operation does. -/
  | truncated
  /-- An operand string holds a flag byte other than 0 and 1. -/
  | badFlag (flag : Byte)
  /-- `W.V1` with bit 7 of its byte set: not the pattern `0vvvvvvv` of R62. -/
  | notV1 (b : Byte)
  /-- `W.V2` with bit 7 of its first byte clear: not the pattern `1lllllll` of R63. -/
  | notV2 (b : Byte)
  deriving DecidableEq, Repr

end Sys2Proof
end

