-- ==== Sys2Proof/Machine/State.lean ====
section
/-! DEFINITION. The state of the block (10_state.md R10), its results and events (60_exceptions.md), and the reasons a
step can stop. Plain data throughout. -/

namespace Sys2Proof.Machine

/-- `p.phase` (R17): the five phases, and the three codes of the 3-bit register that are none of them (R129). -/
inductive Phase where
  | sync
  | headerSize
  | headerType
  | headerChecksum
  | body
  | illegal5
  | illegal6
  | illegal7
  deriving DecidableEq, Repr

/-- The four operation failures (R151 to R154). -/
inductive Failure where
  | capacityExceeded
  | empty
  | outOfRange
  | insufficientData
  deriving DecidableEq, Repr

/-- The three parser errors (R155 to R157). -/
inductive ErrorKind where
  | headerChecksumMismatch
  | oversizedBody
  | bodyBufferOverflow
  deriving DecidableEq, Repr

/-- An outward event (R160). -/
inductive Event where
  /-- `PACKET(type, len, body)`, the body a copy (R53). -/
  | packet (type : Field) (len : Field) (body : List Byte)
  /-- `ERROR(kind)`, the kind only (R159). -/
  | error (kind : ErrorKind)
  deriving DecidableEq, Repr

/-- What a transition returns (R121). -/
inductive Verdict where
  | progress
  | suspend
  deriving DecidableEq, Repr

/-- What an operation returns to its issuer (30_encoding.md R70). -/
inductive Result where
  /-- `Ok` of `RB.APPEND` and `RB.UNDEQ`. -/
  | ok
  /-- `Ok(byte)` of `RB.DEQ` and `RB.PEEK`. -/
  | okByte (b : Byte)
  /-- `Ok(value, n, sum)` of `VL.DEC` (R101). -/
  | okField (value : Field) (n : Nat) (sum : Byte)
  /-- An operation failure (R150). -/
  | failed (f : Failure)
  /-- `Progress` or `Suspend` of a transition (R121). -/
  | verdict (v : Verdict)
  /-- The byte sequence of a reference function (R104, R110). -/
  | bytes (bs : List Byte)
  deriving DecidableEq, Repr

/-- The two byte memories of R40. -/
inductive Space where
  /-- `RB`, the ring storage. -/
  | rb
  /-- `ACC`, the body accumulator. -/
  | acc
  deriving DecidableEq, Repr

/-- A memory: the listed bytes, addresses strictly rising (`Memory.wf` in Machine/Ops.lean). -/
abbrev Memory := List Host.Cell

/-- The ring buffer `rb` (R11 to R14). -/
structure RingBuffer where
  /-- `rb.store`. -/
  store : Memory
  /-- `rb.head`, next read position. -/
  head : Nat
  /-- `rb.tail`, next write position. -/
  tail : Nat
  /-- `rb.size`, bytes currently held. -/
  size : Nat
  deriving DecidableEq, Repr

/-- The parser `p` (R17 to R23). -/
structure Parser where
  /-- `p.phase`. -/
  phase : Phase
  /-- `p.sync_cursor`, `0..2`. -/
  syncCursor : Fin 3
  /-- `p.decl_size`. -/
  declSize : Field
  /-- `p.decl_type`. -/
  declType : Field
  /-- `p.hdr_csum`. -/
  hdrCsum : Byte
  /-- `p.body_count`. -/
  bodyCount : Nat
  /-- `p.body_acc`. -/
  bodyAcc : Memory
  deriving DecidableEq, Repr

/-- The whole architectural state of R10, `{ rb, p }` "and nothing else". -/
structure Block where
  rb : RingBuffer
  p : Parser
  deriving DecidableEq, Repr

/-- The block in its environment: the configuration, which no operation changes (R6), the architectural state (R10), and
the model's own fields: the operations issued and not yet taken (R186), what the last one returned and emitted (R28,
R160), and the counter of free values. -/
structure State where
  /-- The configuration of this block (log 1). -/
  cfg : Config
  /-- The architectural state. -/
  block : Block
  /-- Command bytes of the operations issued and not yet taken (log 2, log 5). -/
  port : List Byte
  /-- Results of the last operation (log 3). -/
  results : List Result
  /-- Events of the last operation, in order (log 3). -/
  events : List Event
  /-- The model's own counter: how many times the free contents of the accumulator have been used (log 27). -/
  freeIndex : Nat
  deriving DecidableEq, Repr

/-- Why the machine stops. -/
inductive Fault where
  /-- Raised by `DRIVE`, `FEED` and `FEED1` when a drive loop has not returned within the `2n + 1` transitions of R131
  (log 9). Only in states outside R25; safe. -/
  | driveUnbounded
  deriving DecidableEq, Repr

/-- Why an operation has no meaning. -/
inductive Refusal where
  /-- An arm of `exec` that has no meaning yet; safe. No arm answers so. -/
  | notModelled (mnemonic : String)
  /-- Raised by `VL.ENC` and `ENC` above 32767: R104, where the function "is **refused** (has no value) there"; safe. -/
  | notEncodable (v : Nat)
  /-- Raised by `FB.BUILD` and `FRAME` outside the preconditions of R111, "refused (has no value)"; safe. -/
  | notBuildable (type : Nat) (size : Nat)
  /-- Raised by the `W.*` elements where the element is not the one at the front of the ring buffer: R68 classifies the
  front byte as another element, and gives this one no effect (log 12); safe. -/
  | notTheFrontElement
  /-- Raised by `step` where the command bytes are no operation (log 25); safe. -/
  | undecodable (r : Reject)
  deriving DecidableEq, Repr

/-- The ring buffer after `RB.INIT` (R31, R80): every storage byte `0x00`, which lists nothing. -/
def RingBuffer.reset : RingBuffer := { store := [], head := 0, tail := 0, size := 0 }

/-- The parser after reset (R31). `p.body_acc` is unspecified: nothing is listed, and what an unlisted byte reads as is
the free value `Config.accUnspecified` (log 7). -/
def Parser.reset : Parser :=
  { phase := .sync, syncCursor := 0, declSize := 0#15, declType := 0#15, hdrCsum := 0#8, bodyCount := 0, bodyAcc := [] }

/-- The state right after reset of a block with configuration `cfg` (R31), no operation issued (log 5), no free value used
(log 27). -/
def State.resetWith (cfg : Config) : State :=
  { cfg := cfg, block := { rb := .reset, p := .reset }, port := [], results := [], events := [], freeIndex := 0 }

/-- The machine right after reset. DESIGN CHOICE (log 1), unsafe: the configuration is `Config.tcfgA`, since the spec
gives the parameters no values; every statement is about every configuration. -/
def State.reset : State := State.resetWith Config.tcfgA

end Sys2Proof.Machine
end

