-- ==== Sys2Proof/Machine/Flags.lean ====
section
/-! DEFINITION. The block has no flags and no condition codes (10_state.md R28); what stands in their place is the header
checksum (30_encoding.md R65), the results and the events. -/

namespace Sys2Proof.Machine

/-- The sum modulo 256 of raw bytes (R65): a one-byte sum, the carry out of bit 7 discarded (R106). -/
def checksum : List Byte → Byte
  | [] => 0#8
  | b :: bs => b + checksum bs

/-- Accumulates a field's contribution into the running header checksum (R124, R125). -/
def accumulate (hdrCsum sum : Byte) : Byte := hdrCsum + sum

/-- Records what an operation leaves: the block, the results it returns, the events it emits (R28, R160). Nothing of an
earlier operation's output is kept. -/
def State.finish (s : State) (block : Block) (results : List Result) (events : List Event) : State :=
  { s with block := block, results := results, events := events }

/-- R150: a failure is visible only as the operation's result; no state changes and there is no event. -/
def State.fail (s : State) (f : Failure) : State := s.finish s.block [.failed f] []

/-- Advisory numeric codes of the failures (R158). -/
def Failure.code : Failure → Nat
  | .capacityExceeded => 1
  | .empty => 2
  | .outOfRange => 3
  | .insufficientData => 4

/-- Advisory numeric codes of the parser errors (R158). -/
def ErrorKind.code : ErrorKind → Nat
  | .headerChecksumMismatch => 5
  | .oversizedBody => 6
  | .bodyBufferOverflow => 7

/-- The advisory code of what an operation returns (R158): a failure's own, 0 for `Ok` and every other result. -/
def Result.code : Result → Nat
  | .failed f => f.code
  | .ok => 0
  | .okByte _ => 0
  | .okField _ _ _ => 0
  | .verdict _ => 0
  | .bytes _ => 0

/-- The advisory code of an outward event (R158): an error's own, 0, "no error", for a packet. -/
def Event.code : Event → Nat
  | .error kind => kind.code
  | .packet _ _ _ => 0

end Sys2Proof.Machine
end

