-- ==== Sys2Proof/WellFormed.lean ====
section
/-! DEFINITION. Which operations have operands in the domain the spec gives them. Only the reference functions have one
(41_varint_codec.md R104, 42_frame_builder.md R111): the operands of every other operation are total by their type. -/

namespace Sys2Proof

/-- R104: `VL.ENC` requires `0 <= v <= 32767`. -/
def encodable (v : Nat) : Bool := decide (v ≤ vmax)

/-- R111: `FB.BUILD` requires `size <= 32767`, `type <= 32767` and `len(body) = size`. -/
def buildable (body : List Byte) (type size : Nat) : Bool :=
  encodable size && encodable type && decide (body.length = size)

/-- An operation whose operands are in the domain the spec gives it. -/
def WellFormed : Instr → Bool
  | .reset => true
  | .rbInit => true
  | .rbAppend _ => true
  | .rbDeq => true
  | .rbPeek _ => true
  | .rbUndeq _ => true
  | .vlDec => true
  | .pInit => true
  | .pStep => true
  | .drive => true
  | .pSync => true
  | .pHsize => true
  | .pHtype => true
  | .pHcsum => true
  | .pBody => true
  | .pIllegal5 => true
  | .pIllegal67 _ => true
  | .wSync0 _ => true
  | .wSync1 _ => true
  | .wSync2 _ => true
  | .wSkip _ => true
  | .wV1 _ => true
  | .wV2 _ _ => true
  | .wCsum _ => true
  | .wBody _ => true
  | .vlEnc v => encodable v
  | .fbBuild body type size => buildable body type size
  | .feed _ => true
  | .feed1 _ => true
  | .frame type body => buildable body type body.length
  | .enc v => encodable v

end Sys2Proof
end

