-- ==== Sys2Proof/Decode.lean ====
section
/-! DEFINITION. From command bytes to an operation and back. The low four bits of a first byte are the op code of
30_encoding.md R70; bits 7..4 select the format, 0 being R70's own, because the table's formats overlap and its rows
without an op code need a place at the port too (DESIGN CHOICE, log 2: the source defines no binary command format). -/

namespace Sys2Proof

/-! ## Bit fields of the two field forms (R62, R63) -/

/-- Bit 7 of a field's first byte: "more bytes follow" (R63). -/
def continues (b : Byte) : Bool := b.getLsbD 7

/-- `b[6:0]`. -/
def low7 (b : Byte) : BitVec 7 := b.extractLsb' 0 7

/-- The byte of a `W.V1` element, `0vvvvvvv` (R62). -/
def v1Byte (v : BitVec 7) : Byte := v.setWidth 8

/-- The first byte of a `W.V2` element, `1lllllll` (R63). -/
def v2First (l : BitVec 7) : Byte := 0x80#8 ||| l.setWidth 8

/-- The bytes a wire element has in the stream, in stream order (R61 to R66); other operations have none. -/
def wireBytes : Instr → List Byte
  | .wSync0 s => [s]
  | .wSync1 s => [s]
  | .wSync2 s => [s]
  | .wSkip x => [x]
  | .wV1 v => [v1Byte v]
  | .wV2 l h => [v2First l, h]
  | .wCsum c => [c]
  | .wBody b => [b]
  | .reset => []
  | .rbInit => []
  | .rbAppend _ => []
  | .rbDeq => []
  | .rbPeek _ => []
  | .rbUndeq _ => []
  | .vlDec => []
  | .pInit => []
  | .pStep => []
  | .drive => []
  | .pSync => []
  | .pHsize => []
  | .pHtype => []
  | .pHcsum => []
  | .pBody => []
  | .pIllegal5 => []
  | .pIllegal67 _ => []
  | .vlEnc _ => []
  | .fbBuild _ _ _ => []
  | .feed _ => []
  | .feed1 _ => []
  | .frame _ _ => []
  | .enc _ => []

/-! ## Operand strings of the command port (log 2) -/

/-- A byte-sequence operand: each byte after a flag 1, the end marked by a flag 0. Any length can be written. -/
def takeBytes : List Byte → Except Reject (List Byte × List Byte)
  | [] => .error .truncated
  | f :: rest =>
    if f = 0#8 then .ok ([], rest)
    else if f = 1#8 then
      match rest with
      | [] => .error .truncated
      | b :: rest' =>
        match takeBytes rest' with
        | .ok (d, r) => .ok (b :: d, r)
        | .error e => .error e
    else .error (.badFlag f)

/-- One raw byte. -/
def takeByte : List Byte → Except Reject (Byte × List Byte)
  | [] => .error .truncated
  | b :: rest => .ok (b, rest)

/-- The number whose base-256 digits, low-order first, are the given bytes. -/
def natOfBytes : List Byte → Nat
  | [] => 0
  | b :: bs => b.toNat + 256 * natOfBytes bs

/-- A natural-number operand of any magnitude: a byte-sequence operand of its base-256 digits. -/
def takeNat (bs : List Byte) : Except Reject (Nat × List Byte) :=
  match takeBytes bs with
  | .ok (d, r) => .ok (natOfBytes d, r)
  | .error e => .error e

/-- Writes a byte-sequence operand. -/
def putBytes : List Byte → List Byte
  | [] => [0#8]
  | b :: bs => 1#8 :: b :: putBytes bs

/-- Base-256 digits of `n`, low-order first; `fuel` bounds their number. -/
def digits : Nat → Nat → List Byte
  | 0, _ => []
  | fuel + 1, n => if n = 0 then [] else BitVec.ofNat 8 (n % 256) :: digits fuel (n / 256)

/-- Writes a natural-number operand. -/
def putNat (n : Nat) : List Byte := putBytes (digits n n)

/-! ## The decoder -/

/-- What the front of the command port holds. -/
inductive Decoded where
  /-- Nothing: no operation has been issued. -/
  | idle
  /-- An unassigned op code 10 to 15, which R70 has a command port ignore. -/
  | ignored (rest : List Byte)
  /-- An operation. -/
  | instr (i : Instr) (rest : List Byte)
  /-- Bytes that are no operation, by name. -/
  | reject (r : Reject)
  deriving DecidableEq, Repr

/-- An operation with one byte-sequence operand. -/
def decodeWithBytes (k : List Byte → Instr) (bs : List Byte) : Decoded :=
  match takeBytes bs with
  | .ok (d, rest) => .instr (k d) rest
  | .error e => .reject e

/-- An operation with one byte operand. -/
def decodeWithByte (k : Byte → Instr) (bs : List Byte) : Decoded :=
  match takeByte bs with
  | .ok (b, rest) => .instr (k b) rest
  | .error e => .reject e

/-- An operation with one natural-number operand. -/
def decodeWithNat (k : Nat → Instr) (bs : List Byte) : Decoded :=
  match takeNat bs with
  | .ok (n, rest) => .instr (k n) rest
  | .error e => .reject e

/-- Format OP4: the ten op codes of R70; 10 to 15 are ignored. -/
def decodeOp (op : Nat) (rest : List Byte) : Decoded :=
  match op with
  | 0 => .instr .reset rest
  | 1 => .instr .rbInit rest
  | 2 => decodeWithBytes .rbAppend rest
  | 3 => .instr .rbDeq rest
  | 4 => decodeWithNat .rbPeek rest
  | 5 => decodeWithByte .rbUndeq rest
  | 6 => .instr .vlDec rest
  | 7 => .instr .pInit rest
  | 8 => .instr .pStep rest
  | 9 => .instr .drive rest
  | _ => .ignored rest

/-- The transition that a 3-bit phase code selects: the PHASE3 rows (10_state.md R17, 43_frame_parser.md R122, R129). -/
def phaseInstr (code : BitVec 3) : Instr :=
  match code.toNat with
  | 0 => .pSync
  | 1 => .pHsize
  | 2 => .pHtype
  | 3 => .pHcsum
  | 4 => .pBody
  | 5 => .pIllegal5
  | 6 => .pIllegal67 0#1
  | _ => .pIllegal67 1#1

/-- A `W.V1` element: `0vvvvvvv` (R62). -/
def decodeV1 (bs : List Byte) : Decoded :=
  match takeByte bs with
  | .ok (b, rest) => if continues b then .reject (.notV1 b) else .instr (.wV1 (low7 b)) rest
  | .error e => .reject e

/-- A `W.V2` element: `1lllllll hhhhhhhh` (R63). -/
def decodeV2 (bs : List Byte) : Decoded :=
  match takeByte bs with
  | .ok (b0, rest0) =>
    match takeByte rest0 with
    | .ok (b1, rest) => if continues b0 then .instr (.wV2 (low7 b0) b1) rest else .reject (.notV2 b0)
    | .error e => .reject e
  | .error e => .reject e

/-- Formats WIRE8 and WIRE16: the kind of element, then its bytes as they stand in the stream. -/
def decodeWire (command : Byte) (kind : Nat) (rest : List Byte) : Decoded :=
  match kind with
  | 0 => decodeWithByte .wSync0 rest
  | 1 => decodeWithByte .wSync1 rest
  | 2 => decodeWithByte .wSync2 rest
  | 3 => decodeWithByte .wSkip rest
  | 4 => decodeV1 rest
  | 5 => decodeV2 rest
  | 6 => decodeWithByte .wCsum rest
  | 7 => decodeWithByte .wBody rest
  | _ => .reject (.unassigned command)

/-- `FB.BUILD`: the body, the type, the size, in the argument order of R110. -/
def decodeBuild (bs : List Byte) : Decoded :=
  match takeBytes bs with
  | .ok (body, r1) =>
    match takeNat r1 with
    | .ok (type, r2) =>
      match takeNat r2 with
      | .ok (size, rest) => .instr (.fbBuild body type size) rest
      | .error e => .reject e
    | .error e => .reject e
  | .error e => .reject e

/-- `FRAME(type, body)`, in the argument order of R71. -/
def decodeFrame (bs : List Byte) : Decoded :=
  match takeNat bs with
  | .ok (type, r1) =>
    match takeBytes r1 with
    | .ok (body, rest) => .instr (.frame type body) rest
    | .error e => .reject e
  | .error e => .reject e

/-- Format REF. -/
def decodeRef (command : Byte) (kind : Nat) (rest : List Byte) : Decoded :=
  match kind with
  | 0 => decodeWithNat .vlEnc rest
  | 1 => decodeBuild rest
  | _ => .reject (.unassigned command)

/-- Format PSEUDO. -/
def decodePseudo (command : Byte) (kind : Nat) (rest : List Byte) : Decoded :=
  match kind with
  | 0 => decodeWithBytes .feed rest
  | 1 => decodeWithBytes .feed1 rest
  | 2 => decodeFrame rest
  | 3 => decodeWithNat .enc rest
  | _ => .reject (.unassigned command)

/-- Decodes the front of the command port; total on any bytes. -/
def decode : List Byte → Decoded
  | [] => .idle
  | c :: rest =>
    match c.toNat / 16 with
    | 0 => decodeOp (c.toNat % 16) rest
    | 1 =>
      if c.toNat % 16 < 8 then .instr (phaseInstr (BitVec.ofNat 3 (c.toNat % 16))) rest
      else .reject (.unassigned c)
    | 2 => decodeWire c (c.toNat % 16) rest
    | 3 => decodeRef c (c.toNat % 16) rest
    | 4 => decodePseudo c (c.toNat % 16) rest
    | _ => .reject (.unassigned c)

/-! ## The encoder -/

/-- The first command byte of an operation: its format's selector and its row's number. -/
def commandByte : Instr → Byte
  | .reset => 0x00#8
  | .rbInit => 0x01#8
  | .rbAppend _ => 0x02#8
  | .rbDeq => 0x03#8
  | .rbPeek _ => 0x04#8
  | .rbUndeq _ => 0x05#8
  | .vlDec => 0x06#8
  | .pInit => 0x07#8
  | .pStep => 0x08#8
  | .drive => 0x09#8
  | .pSync => 0x10#8
  | .pHsize => 0x11#8
  | .pHtype => 0x12#8
  | .pHcsum => 0x13#8
  | .pBody => 0x14#8
  | .pIllegal5 => 0x15#8
  | .pIllegal67 low => 0x16#8 ||| low.setWidth 8
  | .wSync0 _ => 0x20#8
  | .wSync1 _ => 0x21#8
  | .wSync2 _ => 0x22#8
  | .wSkip _ => 0x23#8
  | .wV1 _ => 0x24#8
  | .wV2 _ _ => 0x25#8
  | .wCsum _ => 0x26#8
  | .wBody _ => 0x27#8
  | .vlEnc _ => 0x30#8
  | .fbBuild _ _ _ => 0x31#8
  | .feed _ => 0x40#8
  | .feed1 _ => 0x41#8
  | .frame _ _ => 0x42#8
  | .enc _ => 0x43#8

/-- The operand bytes that follow the first command byte. -/
def operandBytes : Instr → List Byte
  | .reset => []
  | .rbInit => []
  | .rbAppend data => putBytes data
  | .rbDeq => []
  | .rbPeek index => putNat index
  | .rbUndeq b => [b]
  | .vlDec => []
  | .pInit => []
  | .pStep => []
  | .drive => []
  | .pSync => []
  | .pHsize => []
  | .pHtype => []
  | .pHcsum => []
  | .pBody => []
  | .pIllegal5 => []
  | .pIllegal67 _ => []
  | .wSync0 s => wireBytes (.wSync0 s)
  | .wSync1 s => wireBytes (.wSync1 s)
  | .wSync2 s => wireBytes (.wSync2 s)
  | .wSkip x => wireBytes (.wSkip x)
  | .wV1 v => wireBytes (.wV1 v)
  | .wV2 l h => wireBytes (.wV2 l h)
  | .wCsum c => wireBytes (.wCsum c)
  | .wBody b => wireBytes (.wBody b)
  | .vlEnc v => putNat v
  | .fbBuild body type size => putBytes body ++ putNat type ++ putNat size
  | .feed data => putBytes data
  | .feed1 data => putBytes data
  | .frame type body => putNat type ++ putBytes body
  | .enc v => putNat v

/-- The command bytes of an operation. -/
def encode (i : Instr) : List Byte := commandByte i :: operandBytes i

/-! ## The operation table's own words -/

/-- The bytes that the table's word `w` of `nbits` bits stands for at the port, operand bytes of zeros after it. A
16-bit row is `W.V2`, whose first wire byte the table numbers as bits 15..8 (log 4); a 3-bit word is a phase code; any
other is an op code of R70; a row without bits has no bytes. -/
def tableBytes (nbits w : Nat) : List Byte :=
  if nbits = 0 then []
  else if nbits = 3 then [BitVec.ofNat 8 (16 + w % 8)]
  else if nbits = 16 then [0x25#8, BitVec.ofNat 8 (w / 256 % 256), BitVec.ofNat 8 (w % 256)]
  else [BitVec.ofNat 8 (w % 256), 0#8, 0#8, 0#8, 0#8]

/-- The operation the decoder reads from a word numbered as spec/opcode_table.json numbers it. -/
def decodeTableWord (nbits w : Nat) : Option Instr :=
  match decode (tableBytes nbits w) with
  | .instr i _ => some i
  | .idle => none
  | .ignored _ => none
  | .reject _ => none

/-- The bytes of a table word that the decoder consumes, so that no padding is left behind at the port. -/
def fetchBytes (nbits w : Nat) : List Byte :=
  match decode (tableBytes nbits w) with
  | .instr _ rest => (tableBytes nbits w).take ((tableBytes nbits w).length - rest.length)
  | .idle => tableBytes nbits w
  | .ignored rest => (tableBytes nbits w).take ((tableBytes nbits w).length - rest.length)
  | .reject _ => tableBytes nbits w

end Sys2Proof
end

