-- ==== Sys2Proof/Machine/Operands.lean ====
section
/-! DEFINITION. The forms an operand takes on the wire: the two field forms, the marker bytes, and the classification of
the front of the stream into wire elements (30_encoding.md R61 to R68; 41_varint_codec.md R104). -/

namespace Sys2Proof.Machine

/-- The 3-bit code of a phase (10_state.md R17). -/
def Phase.code : Phase → BitVec 3
  | .sync => 0#3
  | .headerSize => 1#3
  | .headerType => 2#3
  | .headerChecksum => 3#3
  | .body => 4#3
  | .illegal5 => 5#3
  | .illegal6 => 6#3
  | .illegal7 => 7#3

/-- The phase that a 3-bit code stands for (R17, R129). -/
def Phase.ofCode (code : BitVec 3) : Phase :=
  match code.toNat with
  | 0 => .sync
  | 1 => .headerSize
  | 2 => .headerType
  | 3 => .headerChecksum
  | 4 => .body
  | 5 => .illegal5
  | 6 => .illegal6
  | _ => .illegal7

/-- `SYNC[k]` (R61). -/
def markerByte (cfg : Config) (k : Fin 3) : Byte :=
  match k with
  | 0 => cfg.sync0
  | 1 => cfg.sync1
  | 2 => cfg.sync2

/-- The value of a one-byte field: `zext_15(b0)` (R62, R64). -/
def fieldOne (b0 : Byte) : Field := b0.setWidth 15

/-- The value of a two-byte field: `zext_15(b0[6:0]) + (zext_15(b1) << 7)` (R63, R64). -/
def fieldTwo (b0 b1 : Byte) : Field := (low7 b0).setWidth 15 + (b1.setWidth 15 <<< 7)

/-- `VL.ENC v` (R104): one byte below 128, else `0x80 | v[6:0]` and `v >> 7`; no value above 32767. -/
def encodeField (v : Nat) : Option (List Byte) :=
  if v < 128 then some [BitVec.ofNat 8 v]
  else if v ≤ vmax then some [0x80#8 ||| BitVec.ofNat 8 (v % 128), BitVec.ofNat 8 (v / 128)]
  else none

/-- The element of a byte in phase `SYNC` (R68): the marker byte looked for, or garbage, which is discarded even if it
equals `SYNC[0]`. -/
def syncElement (cfg : Config) (cursor : Fin 3) (b : Byte) : Instr :=
  if b = markerByte cfg cursor then
    match cursor with
    | 0 => .wSync0 b
    | 1 => .wSync1 b
    | 2 => .wSync2 b
  else .wSkip b

/-- The element of a field's bytes (R68): `W.V1`, or `W.V2` once its second byte is buffered. -/
def fieldElement (b0 : Byte) (b1 : Option Byte) : Option Instr :=
  if continues b0 then
    match b1 with
    | some b1 => some (.wV2 (low7 b0) b1)
    | none => none
  else some (.wV1 (low7 b0))

/-- The classification of R68: the wire element at the front, from the phase, the sync cursor, the front byte and the
byte after it where one is buffered. Nothing for a `W.V2` whose second byte is missing, and nothing for an illegal phase,
which consumes no byte (R129). -/
def classify (cfg : Config) (p : Parser) (b0 : Byte) (b1 : Option Byte) : Option Instr :=
  match p.phase with
  | .sync => some (syncElement cfg p.syncCursor b0)
  | .headerSize => fieldElement b0 b1
  | .headerType => fieldElement b0 b1
  | .headerChecksum => some (.wCsum b0)
  | .body => some (.wBody b0)
  | .illegal5 => none
  | .illegal6 => none
  | .illegal7 => none

/-- Whether the parser, as it stands, recognises elements of this kind (the phase column of R68). -/
def recognises (p : Parser) : Instr → Bool
  | .wSync0 _ => decide (p.phase = .sync) && decide (p.syncCursor = 0)
  | .wSync1 _ => decide (p.phase = .sync) && decide (p.syncCursor = 1)
  | .wSync2 _ => decide (p.phase = .sync) && decide (p.syncCursor = 2)
  | .wSkip _ => decide (p.phase = .sync)
  | .wV1 _ => decide (p.phase = .headerSize) || decide (p.phase = .headerType)
  | .wV2 _ _ => decide (p.phase = .headerSize) || decide (p.phase = .headerType)
  | .wCsum _ => decide (p.phase = .headerChecksum)
  | .wBody _ => decide (p.phase = .body)
  | .reset => false
  | .rbInit => false
  | .rbAppend _ => false
  | .rbDeq => false
  | .rbPeek _ => false
  | .rbUndeq _ => false
  | .vlDec => false
  | .pInit => false
  | .pStep => false
  | .drive => false
  | .pSync => false
  | .pHsize => false
  | .pHtype => false
  | .pHcsum => false
  | .pBody => false
  | .pIllegal5 => false
  | .pIllegal67 _ => false
  | .vlEnc _ => false
  | .fbBuild _ _ _ => false
  | .feed _ => false
  | .feed1 _ => false
  | .frame _ _ => false
  | .enc _ => false

end Sys2Proof.Machine
end

