-- ==== Sys2Proof/Machine/Ops.lean ====
section
/-! DEFINITION. The named operations over the two memories, the ring buffer (40_ring_buffer.md), the field decoder
(41_varint_codec.md) and the parser (43_frame_parser.md). Each is a function of the configuration and the state; the
meanings in the family files call them. -/

namespace Sys2Proof.Machine

/-! ## Memories (20_memory.md R40) -/

/-- What an unlisted address reads as: ring storage is cleared to `0x00` (R31, R80); the body accumulator has no
specified contents (R31, log 7). -/
def Space.unlisted : Space → Option Byte
  | .rb => some 0#8
  | .acc => none

/-- The byte listed at an address, if any. -/
def Memory.lookup : Memory → Nat → Option Byte
  | [], _ => none
  | (k, b) :: m, a => if k = a then some b else Memory.lookup m a

/-- `MemRead(sp, a, 1)`: total; an accumulator byte that nothing has written is the free value (log 7). -/
def Memory.read (sp : Space) (m : Memory) (a : Nat) : Byte :=
  match Memory.lookup m a with
  | some b => b
  | none =>
    match sp.unlisted with
    | some b => b
    | none => Config.accUnspecified a

/-- Lists a byte at its place, replacing the one listed there. -/
def Memory.insert (a : Nat) (b : Byte) : Memory → Memory
  | [] => [(a, b)]
  | (k, c) :: m =>
    if a < k then (a, b) :: (k, c) :: m
    else if a = k then (a, b) :: m
    else (k, c) :: Memory.insert a b m

/-- Takes an address off the list. -/
def Memory.erase (a : Nat) : Memory → Memory
  | [] => []
  | (k, c) :: m => if a = k then m else (k, c) :: Memory.erase a m

/-- `MemWrite(sp, a, 1, b)`, keeping the canonical form: a byte equal to what an unlisted address reads as is not listed. -/
def Memory.write (sp : Space) (m : Memory) (a : Nat) (b : Byte) : Memory :=
  if sp.unlisted = some b then Memory.erase a m else Memory.insert a b m

/-- The canonical form of a memory of `size` bytes: addresses strictly rising and in range, no entry equal to what an
unlisted address reads as. -/
abbrev Memory.wf (sp : Space) (size : Nat) (m : Memory) : Prop :=
  m.Pairwise (fun x y => x.1 < y.1) ∧ ∀ c ∈ m, c.1 < size ∧ sp.unlisted ≠ some c.2

/-! ## Ring buffer (R80 to R85) -/

/-- The byte at logical index `i`, physical index `(head + i) mod C` (R41). For `i = 0` and a head in its range this is
the byte at `head` (log 15). -/
def RingBuffer.byteAt (cfg : Config) (rb : RingBuffer) (i : Nat) : Byte :=
  Memory.read .rb rb.store ((rb.head + i) % cfg.C)

/-- `RB.INIT` (R80): cursors and size to 0, every storage byte `0x00`. -/
def RingBuffer.init (_rb : RingBuffer) : RingBuffer := { store := [], head := 0, tail := 0, size := 0 }

/-- Writes bytes at consecutive physical indices from `t`, modulo `C`. -/
def writeRun (cfg : Config) : List Byte → Memory → Nat → Memory
  | [], m, _ => m
  | b :: bs, m, t => writeRun cfg bs (Memory.write .rb m (t % cfg.C) b) (t + 1)

/-- `RB.APPEND data` (R81): all or nothing. DESIGN CHOICE (log 28), unsafe: where `rb.size > C`, which R16 excludes and for
which no rule gives `C - rb.size` a value, the difference is 0, so the empty chunk alone is admitted. -/
def RingBuffer.append (cfg : Config) (rb : RingBuffer) (data : List Byte) : Except Failure RingBuffer :=
  if data.length > cfg.C - rb.size then .error .capacityExceeded
  else .ok { rb with
    store := writeRun cfg data rb.store rb.tail
    tail := (rb.tail + data.length) % cfg.C
    size := rb.size + data.length }

/-- `RB.DEQ` (R83). -/
def RingBuffer.deq (cfg : Config) (rb : RingBuffer) : Except Failure (Byte × RingBuffer) :=
  if rb.size = 0 then .error .empty
  else .ok (rb.byteAt cfg 0, { rb with head := (rb.head + 1) % cfg.C, size := rb.size - 1 })

/-- `RB.PEEK index` (R84). -/
def RingBuffer.peek (cfg : Config) (rb : RingBuffer) (index : Nat) : Except Failure Byte :=
  if index ≥ rb.size then .error .outOfRange else .ok (rb.byteAt cfg index)

/-- `(head - 1) mod C` (R88): `C - 1` at 0. -/
def prevIndex (cfg : Config) (head : Nat) : Nat := (head + cfg.C - 1) % cfg.C

/-- `RB.UNDEQ b` (R85): the byte is written at the new head. -/
def RingBuffer.undeq (cfg : Config) (rb : RingBuffer) (b : Byte) : Except Failure RingBuffer :=
  if rb.size = cfg.C then .error .capacityExceeded
  else .ok { rb with
    store := Memory.write .rb rb.store (prevIndex cfg rb.head) b
    head := prevIndex cfg rb.head
    size := rb.size + 1 }

/-! ## Field decoder (R101) -/

/-- A decoded field: its value, the number of bytes consumed and the sum of the raw bytes. -/
structure DecodedField where
  value : Field
  n : Nat
  sum : Byte
  deriving DecidableEq, Repr

/-- Undoes the dequeue of a first byte whose second one is missing (R101): "cannot fail" (R85). -/
def rollBack (cfg : Config) (rb : RingBuffer) (b0 : Byte) : RingBuffer :=
  match rb.undeq cfg b0 with
  | .ok rb' => rb'
  | .error _ => rb

/-- `VL.DEC` (R101) in the source's own order of actions: dequeue, dequeue, and push back where the second byte is
missing. Answers the ring buffer it leaves and the result. -/
def decodeField (cfg : Config) (rb : RingBuffer) : RingBuffer × Except Failure DecodedField :=
  match rb.deq cfg with
  | .error _ => (rb, .error .insufficientData)
  | .ok (b0, rb1) =>
    if continues b0 then
      match rb1.deq cfg with
      | .error _ => (rollBack cfg rb1 b0, .error .insufficientData)
      | .ok (b1, rb2) => (rb2, .ok { value := fieldTwo b0 b1, n := 2, sum := checksum [b0, b1] })
    else (rb1, .ok { value := fieldOne b0, n := 1, sum := checksum [b0] })

/-! ## Transitions (R121) -/

/-- What one transition leaves and returns: at most one event (R121). -/
structure Transition where
  block : Block
  verdict : Verdict
  event : Option Event
  deriving DecidableEq, Repr

/-- A transition that needs more bytes than are buffered: nothing has changed (R121). -/
def Block.suspend (blk : Block) : Transition := { block := blk, verdict := .suspend, event := none }

/-- A transition that made progress without an event. -/
def Block.progress (blk : Block) : Transition := { block := blk, verdict := .progress, event := none }

/-- Entry into a parser error, the analogue of a trap entry (60_exceptions.md R163): the event, `p.phase <- SYNC`, and
nothing else. No state is saved and there is no return from an error (R165). -/
def Block.raiseError (blk : Block) (kind : ErrorKind) : Transition :=
  { block := { blk with p := { blk.p with phase := .sync } }, verdict := .progress, event := some (.error kind) }

/-- A packet: the event, and the phase back to `SYNC` (R127, R128). -/
def Block.emitPacket (blk : Block) (len : Field) (body : List Byte) : Transition :=
  { block := { blk with p := { blk.p with phase := .sync } }
    verdict := .progress
    event := some (.packet blk.p.declType len body) }

/-- `P.INIT` (R120): `p.body_acc` is not written. -/
def Parser.init (p : Parser) : Parser :=
  { p with phase := .sync, syncCursor := 0, hdrCsum := 0#8, declSize := 0#15, declType := 0#15, bodyCount := 0 }

/-- The parser registers after the byte `b` in phase `SYNC` (R123). -/
def Parser.matchMarker (cfg : Config) (p : Parser) (b : Byte) : Parser :=
  if b = markerByte cfg p.syncCursor then
    if p.syncCursor = 2 then
      { p with syncCursor := 0, hdrCsum := 0#8, declSize := 0#15, declType := 0#15, phase := .headerSize }
    else { p with syncCursor := p.syncCursor + 1 }
  else { p with syncCursor := 0 }

/-- `P.SYNC` (R123): peek, then dequeue on both branches. -/
def syncTransition (cfg : Config) (blk : Block) : Transition :=
  match blk.rb.peek cfg 0 with
  | .error _ => blk.suspend
  | .ok b =>
    match blk.rb.deq cfg with
    | .error _ => blk.suspend
    | .ok (_, rb') => Block.progress { rb := rb', p := blk.p.matchMarker cfg b }

/-- `P.HSIZE` (R124). -/
def sizeTransition (cfg : Config) (blk : Block) : Transition :=
  match decodeField cfg blk.rb with
  | (rb', .error _) => Block.suspend { blk with rb := rb' }
  | (rb', .ok f) =>
    Block.progress { rb := rb', p := { blk.p with
      declSize := f.value, hdrCsum := accumulate blk.p.hdrCsum f.sum, phase := .headerType } }

/-- `P.HTYPE` (R125). -/
def typeTransition (cfg : Config) (blk : Block) : Transition :=
  match decodeField cfg blk.rb with
  | (rb', .error _) => Block.suspend { blk with rb := rb' }
  | (rb', .ok f) =>
    Block.progress { rb := rb', p := { blk.p with
      declType := f.value, hdrCsum := accumulate blk.p.hdrCsum f.sum, phase := .headerChecksum } }

/-- `P.HCSUM`, part 2 (R127): the checksum has matched; judge the declared size, oversize first, then empty. -/
def judgeSize (cfg : Config) (blk : Block) : Transition :=
  if blk.p.declSize.toNat > cfg.maxBody.toNat then blk.raiseError .oversizedBody
  else if blk.p.declSize = 0#15 then blk.emitPacket 0#15 []
  else Block.progress { blk with p := { blk.p with bodyCount := 0, phase := .body } }

/-- `P.HCSUM` (R126): the checksum byte is consumed on match and on mismatch alike. -/
def checksumTransition (cfg : Config) (blk : Block) : Transition :=
  match blk.rb.deq cfg with
  | .error _ => blk.suspend
  | .ok (rx, rb') =>
    if rx = blk.p.hdrCsum then judgeSize cfg { blk with rb := rb' }
    else Block.raiseError { blk with rb := rb' } .headerChecksumMismatch

/-- Moves `n` bytes from the ring buffer to the accumulator at consecutive indices from `at` (R128). -/
def moveBody (cfg : Config) : Nat → RingBuffer → Memory → Nat → RingBuffer × Memory
  | 0, rb, acc, _ => (rb, acc)
  | n + 1, rb, acc, i =>
    match rb.deq cfg with
    | .error _ => (rb, acc)
    | .ok (b, rb') => moveBody cfg n rb' (Memory.write .acc acc i b) (i + 1)

/-- `p.decl_size - p.body_count` (R128). Below zero, which R25 excludes in phase `BODY`, the spec states no result: a free
value, kept below `BODY_CAP` because `P.BODY` "never writes at or beyond `BODY_CAP`" (R53, log 8). -/
def bodyRemainder (cfg : Config) (p : Parser) : Nat :=
  if p.bodyCount ≤ p.declSize.toNat then p.declSize.toNat - p.bodyCount
  else min (Config.freeRemainder p.declSize.toNat p.bodyCount) (cfg.bodyCap - p.bodyCount)

/-- `[MemRead(ACC, i, 1) for i in 0..len-1]`: the copy a `PACKET` carries (R128, R53). -/
def bodyCopy (acc : Memory) (len : Nat) : List Byte := (List.range len).map (Memory.read .acc acc)

/-- Accumulates `take` body bytes and emits the packet when the body is complete (R128). -/
def takeBody (cfg : Config) (blk : Block) (take : Nat) : Transition :=
  let moved := moveBody cfg take blk.rb blk.p.bodyAcc blk.p.bodyCount
  let blk' : Block :=
    { rb := moved.1, p := { blk.p with bodyAcc := moved.2, bodyCount := blk.p.bodyCount + take } }
  if blk'.p.bodyCount = blk'.p.declSize.toNat then
    blk'.emitPacket blk'.p.declSize (bodyCopy blk'.p.bodyAcc blk'.p.declSize.toNat)
  else blk'.progress

/-- `P.BODY` (R128), taking at most `limit` of the buffered bytes. The overflow test is on the declared size, before
anything is consumed. -/
def bodyTransition (cfg : Config) (limit : Nat) (blk : Block) : Transition :=
  if blk.rb.size = 0 then blk.suspend
  else if blk.p.declSize.toNat > cfg.bodyCap then blk.raiseError .bodyBufferOverflow
  else takeBody cfg blk (min (min blk.rb.size limit) (bodyRemainder cfg blk.p))

/-- The accumulator where none of its bytes has a meaning (R23, R30): `size` bytes, each the free value of the use `n`. -/
def deadAcc (size n : Nat) : Memory := (List.range size).map fun a => (a, Config.accFree n a)

/-- What `P.BODY` finds in the accumulator: in phase `BODY` the bytes it wrote; in any other phase, where it is about to
accumulate, any value (R23, R30), a fresh one at each use (log 27). -/
def State.forgetDeadBody (s : State) : State :=
  if s.block.p.phase ≠ .body ∧ s.block.rb.size ≠ 0 ∧ s.block.p.declSize.toNat ≤ s.cfg.bodyCap then
    { s with
      block := { s.block with p := { s.block.p with bodyAcc := deadAcc s.cfg.bodyCap s.freeIndex } }
      freeIndex := s.freeIndex + 1 }
  else s

/-- An illegal phase code (R129): to `SYNC`, no byte, no event, whatever is buffered (log 14). -/
def illegalTransition (blk : Block) : Transition :=
  Block.progress { blk with p := { blk.p with phase := .sync } }

/-- `P.STEP` (R122): the transition that `p.phase` selects. -/
def transition (cfg : Config) (blk : Block) : Transition :=
  match blk.p.phase with
  | .sync => syncTransition cfg blk
  | .headerSize => sizeTransition cfg blk
  | .headerType => typeTransition cfg blk
  | .headerChecksum => checksumTransition cfg blk
  | .body => bodyTransition cfg blk.rb.size blk
  | .illegal5 => illegalTransition blk
  | .illegal6 => illegalTransition blk
  | .illegal7 => illegalTransition blk

/-! ## The drive loop (R130) -/

/-- While a byte is buffered, attempt a transition; stop at the first that suspends. Nothing where more than `fuel`
transitions would be needed. -/
def driveLoop (cfg : Config) : Nat → Block → Option (Block × List Event)
  | 0, blk => if blk.rb.size = 0 then some (blk, []) else none
  | fuel + 1, blk =>
    if blk.rb.size = 0 then some (blk, [])
    else
      let t := transition cfg blk
      match t.verdict with
      | .suspend => some (t.block, t.event.toList)
      | .progress =>
        match driveLoop cfg fuel t.block with
        | some (blk', es) => some (blk', t.event.toList ++ es)
        | none => none

/-- One invocation of the parser, within the bound of R131: at most `2n` transitions that progress and one that suspends,
`n` bytes being buffered. -/
def driveBlock (cfg : Config) (blk : Block) : Option (Block × List Event) := driveLoop cfg (2 * blk.rb.size + 1) blk

/-! ## Recording a transition, issuing an append, fetching an operation -/

/-- Records a transition's block, verdict and event. -/
def State.finishTransition (s : State) (t : Transition) : State :=
  s.finish t.block [.verdict t.verdict] t.event.toList

/-- `RB.APPEND data` on the block: the block it leaves and its result (R81, R150). -/
def Block.appendChunk (cfg : Config) (blk : Block) (data : List Byte) : Block × Result :=
  match blk.rb.append cfg data with
  | .ok rb' => ({ blk with rb := rb' }, .ok)
  | .error f => (blk, .failed f)

/-- The operation the environment issues next (R186). -/
def State.fetch (s : State) : Decoded := decode s.port

/-- The state once the operation's bytes are taken from the port. -/
def State.advance (s : State) (rest : List Byte) : State := { s with port := rest }

/-- An unassigned op code (R70, U13): "no state change, no result" (log 22). -/
def State.ignore (s : State) (rest : List Byte) : State := (s.advance rest).finish s.block [] []

end Sys2Proof.Machine
end

