-- ==== Sys2Proof/Machine/Codec.lean ====
section
/-! DEFINITION. The field decoder (41_varint_codec.md R101). It writes no parser register. -/

namespace Sys2Proof.Machine

/-- `VL.DEC` (R101). -/
def execVlDec (s : State) : Host.Outcome State Fault Refusal :=
  match decodeField s.cfg s.block.rb with
  | (rb', .ok f) => .next (s.finish { s.block with rb := rb' } [.okField f.value f.n f.sum] [])
  | (rb', .error f) => .next (s.finish { s.block with rb := rb' } [.failed f] [])

end Sys2Proof.Machine
end

