-- ==== Sys2Proof/Machine/Control.lean ====
section
/-! DEFINITION. Operations of the host on the whole block: RESET (70_reset_and_hazards.md R180), P.INIT (R120), P.STEP
(R122), DRIVE (R130). -/

namespace Sys2Proof.Machine

/-- `RESET` (R180): `RB.INIT`, then `P.INIT`. -/
def execReset (s : State) : Host.Outcome State Fault Refusal :=
  .next (s.finish { rb := s.block.rb.init, p := s.block.p.init } [] [])

/-- `P.INIT` (R120): it does not touch the ring buffer. -/
def execPInit (s : State) : Host.Outcome State Fault Refusal :=
  .next (s.finish { s.block with p := s.block.p.init } [] [])

/-- `P.STEP` (R122): one transition attempt in the current phase. -/
def execPStep (s : State) : Host.Outcome State Fault Refusal :=
  .next (s.finishTransition (transition s.cfg s.block))

/-- `DRIVE` (R130): its only result is the event list. -/
def execDrive (s : State) : Host.Outcome State Fault Refusal :=
  match driveBlock s.cfg s.block with
  | some (blk, es) => .next (s.finish blk [] es)
  | none => .fault .driveUnbounded

end Sys2Proof.Machine
end

