-- ==== Sys2Proof/Machine/Phases.lean ====
section
/-! DEFINITION. The transitions that a phase code selects (43_frame_parser.md R123 to R129), each the transition of its
named phase, whatever `p.phase` holds when it is issued by itself (log 11). -/

namespace Sys2Proof.Machine

/-- `P.SYNC` (R123). -/
def execPSync (s : State) : Host.Outcome State Fault Refusal :=
  .next (s.finishTransition (syncTransition s.cfg s.block))

/-- `P.HSIZE` (R124). -/
def execPHsize (s : State) : Host.Outcome State Fault Refusal :=
  .next (s.finishTransition (sizeTransition s.cfg s.block))

/-- `P.HTYPE` (R125). -/
def execPHtype (s : State) : Host.Outcome State Fault Refusal :=
  .next (s.finishTransition (typeTransition s.cfg s.block))

/-- `P.HCSUM` (R126, R127). -/
def execPHcsum (s : State) : Host.Outcome State Fault Refusal :=
  .next (s.finishTransition (checksumTransition s.cfg s.block))

/-- `P.BODY` (R128): up to all of the buffered bytes. Issued by itself outside phase `BODY`, the earlier bytes of a packet
it completes are any value (R30, log 27). -/
def execPBody (s : State) : Host.Outcome State Fault Refusal :=
  .next (s.forgetDeadBody.finishTransition (bodyTransition s.cfg s.block.rb.size s.forgetDeadBody.block))

/-- `P.ILLEGAL`, phase code 5 (R129). -/
def execPIllegal5 (s : State) : Host.Outcome State Fault Refusal :=
  .next (s.finishTransition (illegalTransition s.block))

/-- `P.ILLEGAL`, phase codes 6 and 7 (R129): the same for both, so bit 0 of the code does not matter. -/
def execPIllegal67 (_low : BitVec 1) (s : State) : Host.Outcome State Fault Refusal :=
  .next (s.finishTransition (illegalTransition s.block))

end Sys2Proof.Machine
end

