-- ==== Sys2Proof/Machine/Reference.lean ====
section
/-! DEFINITION. The reference functions VL.ENC (41_varint_codec.md R104) and FB.BUILD (42_frame_builder.md R110, R111), and
the pseudo-operations ENC and FRAME that stand for their bytes (30_encoding.md R71). They are pure: the block is not
touched, the bytes are the result (log 18). Outside their domain they are refused, never truncated. -/

namespace Sys2Proof.Machine

/-- `FB.BUILD body type size` (R110): marker, encoded size, encoded type, the checksum of those encoded bytes, body. No
value outside the preconditions of R111. -/
def buildFrame (cfg : Config) (body : List Byte) (type size : Nat) : Option (List Byte) :=
  if body.length = size then
    match encodeField size, encodeField type with
    | some es, some et => some ([cfg.sync0, cfg.sync1, cfg.sync2] ++ es ++ et ++ [checksum (es ++ et)] ++ body)
    | _, _ => none
  else none

/-- Delivers a reference function's bytes, or refuses. -/
def deliver (bs : Option (List Byte)) (r : Refusal) (s : State) : Host.Outcome State Fault Refusal :=
  match bs with
  | some bs => .next (s.finish s.block [.bytes bs] [])
  | none => .refused r

/-- `VL.ENC v` (R104). -/
def execVlEnc (v : Nat) (s : State) : Host.Outcome State Fault Refusal :=
  deliver (encodeField v) (.notEncodable v) s

/-- `FB.BUILD body type size` (R110). -/
def execFbBuild (body : List Byte) (type size : Nat) (s : State) : Host.Outcome State Fault Refusal :=
  deliver (buildFrame s.cfg body type size) (.notBuildable type size) s

/-- `FRAME(type, body)` (R71): the bytes `FB.BUILD(body, type, len(body))`. -/
def execFrame (type : Nat) (body : List Byte) (s : State) : Host.Outcome State Fault Refusal :=
  deliver (buildFrame s.cfg body type body.length) (.notBuildable type body.length) s

/-- `ENC(v)` (R71): the bytes `VL.ENC(v)`. -/
def execEnc (v : Nat) (s : State) : Host.Outcome State Fault Refusal :=
  deliver (encodeField v) (.notEncodable v) s

end Sys2Proof.Machine
end

