-- ==== Sys2Proof/Machine/Ring.lean ====
section
/-! DEFINITION. The ring-buffer operations (40_ring_buffer.md R80 to R85). None touches the parser (10_state.md R24). -/

namespace Sys2Proof.Machine

/-- `RB.INIT` (R80). -/
def execRbInit (s : State) : Host.Outcome State Fault Refusal :=
  .next (s.finish { s.block with rb := s.block.rb.init } [] [])

/-- `RB.APPEND data` (R81, R82). -/
def execRbAppend (data : List Byte) (s : State) : Host.Outcome State Fault Refusal :=
  .next (s.finish (s.block.appendChunk s.cfg data).1 [(s.block.appendChunk s.cfg data).2] [])

/-- `RB.DEQ` (R83). -/
def execRbDeq (s : State) : Host.Outcome State Fault Refusal :=
  match s.block.rb.deq s.cfg with
  | .ok (b, rb') => .next (s.finish { s.block with rb := rb' } [.okByte b] [])
  | .error f => .next (s.fail f)

/-- `RB.PEEK index` (R84): no state is written. -/
def execRbPeek (index : Nat) (s : State) : Host.Outcome State Fault Refusal :=
  match s.block.rb.peek s.cfg index with
  | .ok b => .next (s.finish s.block [.okByte b] [])
  | .error f => .next (s.fail f)

/-- `RB.UNDEQ b` (R85). -/
def execRbUndeq (b : Byte) (s : State) : Host.Outcome State Fault Refusal :=
  match s.block.rb.undeq s.cfg b with
  | .ok rb' => .next (s.finish { s.block with rb := rb' } [.ok] [])
  | .error f => .next (s.fail f)

end Sys2Proof.Machine
end

