-- ==== Sys2Proof/Machine/Script.lean ====
section
/-! DEFINITION. The pseudo-operations FEED and FEED1 (30_encoding.md R71): appends, each followed by a drive. -/

namespace Sys2Proof.Machine

/-- `RB.APPEND data` then `DRIVE`: the block, the append's result and the drive's events. The drive follows whether or
not the chunk was admitted (log 17). -/
def feedBlock (cfg : Config) (blk : Block) (data : List Byte) : Option (Block × Result × List Event) :=
  match driveBlock cfg (blk.appendChunk cfg data).1 with
  | some (blk', es) => some (blk', (blk.appendChunk cfg data).2, es)
  | none => none

/-- `feedBlock` for each byte in order: the appends' results and the concatenation of the events. -/
def feedBytes (cfg : Config) : List Byte → Block → Option (Block × List Result × List Event)
  | [], blk => some (blk, [], [])
  | b :: bs, blk =>
    match feedBlock cfg blk [b] with
    | none => none
    | some (blk', r, es) =>
      match feedBytes cfg bs blk' with
      | none => none
      | some (blk'', rs, es') => some (blk'', r :: rs, es ++ es')

/-- `FEED bytes` (R71). -/
def execFeed (data : List Byte) (s : State) : Host.Outcome State Fault Refusal :=
  match feedBlock s.cfg s.block data with
  | some (blk, r, es) => .next (s.finish blk [r] es)
  | none => .fault .driveUnbounded

/-- `FEED1 bytes` (R71): one byte per invocation. -/
def execFeed1 (data : List Byte) (s : State) : Host.Outcome State Fault Refusal :=
  match feedBytes s.cfg data s.block with
  | some (blk, rs, es) => .next (s.finish blk rs es)
  | none => .fault .driveUnbounded

end Sys2Proof.Machine
end

