-- ==== Sys2Proof/Machine/Wire.lean ====
section
/-! DEFINITION. The wire elements (30_encoding.md R61 to R68): the instructions of the byte stream, which the parser
fetches from the front of the ring buffer. Executing one is the parser's handling of that element where it is the one at
the front (log 12): the bytes are consumed and the transition R68 names is made. -/

namespace Sys2Proof.Machine

/-- The wire element at the front of the ring buffer, by the classification of R68; the byte after the front one is
looked at only within what is buffered. -/
def frontElement (cfg : Config) (blk : Block) : Option Instr :=
  match blk.rb.peek cfg 0 with
  | .error _ => none
  | .ok b0 => classify cfg blk.p b0 (blk.rb.peek cfg 1).toOption

/-- Whether the parser waits for this element's remaining bytes: it recognises the kind, and what is buffered is a proper
initial part of the element. -/
def awaits (cfg : Config) (blk : Block) (i : Instr) : Bool :=
  recognises blk.p i && decide (blk.rb.size < (wireBytes i).length) &&
    decide ((List.range blk.rb.size).map (blk.rb.byteAt cfg) = (wireBytes i).take blk.rb.size)

/-- The handling of a wire element by the transition `t`: made where the element is at the front; suspended, with nothing
changed, where its bytes are not all buffered (R121); no meaning where the front is another element. -/
def handleElement (i : Instr) (t : Transition) (s : State) : Host.Outcome State Fault Refusal :=
  if frontElement s.cfg s.block = some i then .next (s.finishTransition t)
  else if awaits s.cfg s.block i then .next (s.finishTransition s.block.suspend)
  else .refused .notTheFrontElement

/-- The transition of a field element: `P.HSIZE` or `P.HTYPE`, as the phase says (R68). -/
def fieldTransition (cfg : Config) (blk : Block) : Transition :=
  if blk.p.phase = .headerType then typeTransition cfg blk else sizeTransition cfg blk

/-- `W.SYNC0` (R61, R123). -/
def execWSync0 (b : Byte) (s : State) : Host.Outcome State Fault Refusal :=
  handleElement (.wSync0 b) (syncTransition s.cfg s.block) s

/-- `W.SYNC1` (R61, R123). -/
def execWSync1 (b : Byte) (s : State) : Host.Outcome State Fault Refusal :=
  handleElement (.wSync1 b) (syncTransition s.cfg s.block) s

/-- `W.SYNC2` (R61, R123). -/
def execWSync2 (b : Byte) (s : State) : Host.Outcome State Fault Refusal :=
  handleElement (.wSync2 b) (syncTransition s.cfg s.block) s

/-- `W.SKIP` (R68, R123): garbage, discarded. -/
def execWSkip (b : Byte) (s : State) : Host.Outcome State Fault Refusal :=
  handleElement (.wSkip b) (syncTransition s.cfg s.block) s

/-- `W.V1` (R62, R124, R125). -/
def execWV1 (v : BitVec 7) (s : State) : Host.Outcome State Fault Refusal :=
  handleElement (.wV1 v) (fieldTransition s.cfg s.block) s

/-- `W.V2` (R63, R124, R125). -/
def execWV2 (l : BitVec 7) (h : Byte) (s : State) : Host.Outcome State Fault Refusal :=
  handleElement (.wV2 l h) (fieldTransition s.cfg s.block) s

/-- `W.CSUM` (R65, R126, R127). -/
def execWCsum (c : Byte) (s : State) : Host.Outcome State Fault Refusal :=
  handleElement (.wCsum c) (checksumTransition s.cfg s.block) s

/-- `W.BODY` (R66, R128): one body byte, "1 per byte" in R68; `P.BODY` is as many of these as are buffered (log 13). -/
def execWBody (b : Byte) (s : State) : Host.Outcome State Fault Refusal :=
  handleElement (.wBody b) (bodyTransition s.cfg 1 s.block) s

end Sys2Proof.Machine
end

