-- ==== Sys2Proof/Machine/Dispatch.lean ====
section
/-! DEFINITION. One operation: one arm per constructor of Instr, each one direct call of its meaning. -/

namespace Sys2Proof.Machine

/-- One operation, atomically and completely (20_memory.md R48). -/
def exec (i : Instr) (s : State) : Host.Outcome State Fault Refusal :=
  match i with
  | .reset => Sys2Proof.Machine.execReset s
  | .rbInit => Sys2Proof.Machine.execRbInit s
  | .rbAppend data => Sys2Proof.Machine.execRbAppend data s
  | .rbDeq => Sys2Proof.Machine.execRbDeq s
  | .rbPeek index => Sys2Proof.Machine.execRbPeek index s
  | .rbUndeq b => Sys2Proof.Machine.execRbUndeq b s
  | .vlDec => Sys2Proof.Machine.execVlDec s
  | .pInit => Sys2Proof.Machine.execPInit s
  | .pStep => Sys2Proof.Machine.execPStep s
  | .drive => Sys2Proof.Machine.execDrive s
  | .pSync => Sys2Proof.Machine.execPSync s
  | .pHsize => Sys2Proof.Machine.execPHsize s
  | .pHtype => Sys2Proof.Machine.execPHtype s
  | .pHcsum => Sys2Proof.Machine.execPHcsum s
  | .pBody => Sys2Proof.Machine.execPBody s
  | .pIllegal5 => Sys2Proof.Machine.execPIllegal5 s
  | .pIllegal67 low => Sys2Proof.Machine.execPIllegal67 low s
  | .wSync0 b => Sys2Proof.Machine.execWSync0 b s
  | .wSync1 b => Sys2Proof.Machine.execWSync1 b s
  | .wSync2 b => Sys2Proof.Machine.execWSync2 b s
  | .wSkip b => Sys2Proof.Machine.execWSkip b s
  | .wV1 v => Sys2Proof.Machine.execWV1 v s
  | .wV2 l h => Sys2Proof.Machine.execWV2 l h s
  | .wCsum c => Sys2Proof.Machine.execWCsum c s
  | .wBody b => Sys2Proof.Machine.execWBody b s
  | .vlEnc v => Sys2Proof.Machine.execVlEnc v s
  | .fbBuild body type size => Sys2Proof.Machine.execFbBuild body type size s
  | .feed data => Sys2Proof.Machine.execFeed data s
  | .feed1 data => Sys2Proof.Machine.execFeed1 data s
  | .frame type body => Sys2Proof.Machine.execFrame type body s
  | .enc v => Sys2Proof.Machine.execEnc v s

end Sys2Proof.Machine
end

