-- ==== Sys2Proof/Machine/Step.lean ====
section
/-! DEFINITION. One step of the machine: take the next operation from the command port and execute it. -/

namespace Sys2Proof.Machine

/-- One step. With no operation issued the block rests, all state kept (60_exceptions.md R174). -/
def step (s : State) : Host.Outcome State Fault Refusal :=
  match s.fetch with
  | .idle => .next s
  | .ignored rest => .next (s.ignore rest)
  | .instr i rest => exec i (s.advance rest)
  | .reject r => .refused (.undecodable r)

/-- `s` with the table's word at the command port, where `step` fetches its next operation; nothing else changes. It
stands for the environment issuing that operation (log 5). -/
def State.withFetchWord (s : State) (nbits w : Nat) : State := s.advance (fetchBytes nbits w)

end Sys2Proof.Machine
end

