-- ==== Sys2Proof/Safety.lean ====
section
/-! DEFINITION. What claims are stated in: the logical content of the ring buffer, the invariants of 10_state.md R16 and
R25, quiescence (43_frame_parser.md R130), and sequences of operations. -/

namespace Sys2Proof.Machine

/-! ## Ring buffer -/

/-- `content(rb)` (R15): the bytes held, oldest first. -/
def RingBuffer.content (cfg : Config) (rb : RingBuffer) : List Byte :=
  (List.range rb.size).map (rb.byteAt cfg)

/-- The content of a state's ring buffer. -/
abbrev State.content (s : State) : List Byte := s.block.rb.content s.cfg

/-- The ring-buffer invariant of R16, the ranges of R12 to R14, and the canonical form of its storage. -/
abbrev RingBuffer.Inv (cfg : Config) (rb : RingBuffer) : Prop :=
  rb.head < cfg.C ∧ rb.tail < cfg.C ∧ rb.size ≤ cfg.C ∧ rb.tail = (rb.head + rb.size) % cfg.C ∧
    Memory.wf .rb cfg.C rb.store

/-! ## Parser -/

/-- The `BODY` row of R25. -/
abbrev Parser.BodyInv (cfg : Config) (p : Parser) : Prop :=
  p.phase = .body → 1 ≤ p.declSize.toNat ∧ p.declSize.toNat ≤ cfg.maxBody.toNat ∧ p.bodyCount < p.declSize.toNat

/-- The accumulator's listing is canonical and within `BODY_CAP` (R40, R53). -/
abbrev Parser.AccInv (cfg : Config) (p : Parser) : Prop := Memory.wf .acc cfg.bodyCap p.bodyAcc

/-- What every operation keeps, in whatever order operations are issued: R16, the memories' canonical form, and the `BODY`
row of R25. -/
abbrev State.Inv (s : State) : Prop :=
  s.block.rb.Inv s.cfg ∧ s.block.p.AccInv s.cfg ∧ s.block.p.BodyInv s.cfg

/-- The raw bytes `raw` are one field of value `v` (R62 to R64): one byte with bit 7 clear, or two bytes the first of which
has bit 7 set. -/
inductive IsField : List Byte → Field → Prop where
  | one (b0 : Byte) (h : continues b0 = false) : IsField [b0] (fieldOne b0)
  | two (b0 b1 : Byte) (h : continues b0 = true) : IsField [b0, b1] (fieldTwo b0 b1)

/-- One of the five phases, not an illegal code (R17). -/
def Phase.legal : Phase → Bool
  | .sync => true
  | .headerSize => true
  | .headerType => true
  | .headerChecksum => true
  | .body => true
  | .illegal5 => false
  | .illegal6 => false
  | .illegal7 => false

/-- The parser rows of R25: what holds in each phase between the operations of the assembled block. -/
structure Parser.PhaseInv (cfg : Config) (p : Parser) : Prop where
  legal : p.phase.legal = true
  cursor : p.phase ≠ .sync → p.syncCursor = 0
  size : p.phase = .headerSize → p.hdrCsum = 0#8 ∧ p.declSize = 0#15 ∧ p.declType = 0#15
  type : p.phase = .headerType → p.declType = 0#15 ∧ ∃ raw, IsField raw p.declSize ∧ p.hdrCsum = checksum raw
  csum : p.phase = .headerChecksum →
    ∃ rs rt, IsField rs p.declSize ∧ IsField rt p.declType ∧ p.hdrCsum = checksum (rs ++ rt)
  body : p.BodyInv cfg

/-- The operations that are one transition of a named phase (the PHASE3 rows). -/
def isPhaseRow : Instr → Bool
  | .pSync => true
  | .pHsize => true
  | .pHtype => true
  | .pHcsum => true
  | .pBody => true
  | .pIllegal5 => true
  | .pIllegal67 _ => true
  | .reset => false
  | .rbInit => false
  | .rbAppend _ => false
  | .rbDeq => false
  | .rbPeek _ => false
  | .rbUndeq _ => false
  | .vlDec => false
  | .pInit => false
  | .pStep => false
  | .drive => false
  | .wSync0 _ => false
  | .wSync1 _ => false
  | .wSync2 _ => false
  | .wSkip _ => false
  | .wV1 _ => false
  | .wV2 _ _ => false
  | .wCsum _ => false
  | .wBody _ => false
  | .vlEnc _ => false
  | .fbBuild _ _ _ => false
  | .feed _ => false
  | .feed1 _ => false
  | .frame _ _ => false
  | .enc _ => false

/-- The operations of the block itself (R70 and the PHASE3 rows), as against wire elements, reference functions and
pseudo-operations. -/
def isBlockOp : Instr → Bool
  | .reset => true
  | .rbInit => true
  | .rbAppend _ => true
  | .rbDeq => true
  | .rbPeek _ => true
  | .rbUndeq _ => true
  | .vlDec => true
  | .pInit => true
  | .pStep => true
  | .drive => true
  | .pSync => true
  | .pHsize => true
  | .pHtype => true
  | .pHcsum => true
  | .pBody => true
  | .pIllegal5 => true
  | .pIllegal67 _ => true
  | .wSync0 _ => false
  | .wSync1 _ => false
  | .wSync2 _ => false
  | .wSkip _ => false
  | .wV1 _ => false
  | .wV2 _ _ => false
  | .wCsum _ => false
  | .wBody _ => false
  | .vlEnc _ => false
  | .fbBuild _ _ _ => false
  | .feed _ => false
  | .feed1 _ => false
  | .frame _ _ => false
  | .enc _ => false

/-- An operation is issued in its place: one that is a phase's transition, in that phase (R122). Every other operation
is always in its place. -/
abbrev inPlace (i : Instr) (s : State) : Prop := isPhaseRow i = true → i = phaseInstr s.block.p.phase.code

/-- What `DRIVE` leaves (R130): the ring buffer empty, or one byte held that is the first of a two-byte field. -/
def State.Quiescent (s : State) : Prop :=
  s.block.rb.size = 0 ∨
    (s.block.rb.size = 1 ∧ (s.block.p.phase = .headerSize ∨ s.block.p.phase = .headerType) ∧
      ∃ b, s.content = [b] ∧ continues b = true)

/-- The state after a transition that consumed `n` bytes, left the parser registers `p`, made progress and emitted no
event: `rb.head` advanced modulo `C` (R27), `rb.size` reduced, storage and tail as they were. -/
def State.consumed (s : State) (n : Nat) (p : Parser) : State :=
  { s with
    block := { rb := { s.block.rb with head := (s.block.rb.head + n) % s.cfg.C, size := s.block.rb.size - n }, p := p }
    results := [.verdict .progress], events := [] }

/-- `VL.DEC` in the look-ahead form of R102, which never pushes back. -/
def decodeFieldAhead (cfg : Config) (rb : RingBuffer) : RingBuffer × Except Failure DecodedField :=
  if rb.size = 0 then (rb, .error .insufficientData)
  else if continues (rb.byteAt cfg 0) then
    if rb.size < 2 then (rb, .error .insufficientData)
    else ({ rb with head := (rb.head + 2) % cfg.C, size := rb.size - 2 },
      .ok { value := fieldTwo (rb.byteAt cfg 0) (rb.byteAt cfg 1), n := 2
            sum := rb.byteAt cfg 0 + rb.byteAt cfg 1 })
  else ({ rb with head := (rb.head + 1) % cfg.C, size := rb.size - 1 },
    .ok { value := fieldOne (rb.byteAt cfg 0), n := 1, sum := rb.byteAt cfg 0 })

/-! ## Sequences of operations -/

/-- Delivers chunks in order, each by `FEED`; nothing if an append fails. Answers the last state and all the events. -/
def feedAll : List (List Byte) → State → Option (State × List Event)
  | [], s => some (s, [])
  | c :: cs, s =>
    match exec (.feed c) s with
    | .next t =>
      if t.results = [.ok] then
        match feedAll cs t with
        | some (u, es) => some (u, t.events ++ es)
        | none => none
      else none
    | .fault _ => none
    | .refused _ => none

/-- The books of R54 after one ring-buffer operation, from what it returned: `admitted` is the concatenation of the
chunks admitted, `returned` that of the bytes dequeued, not counting a byte pushed back with the same value. A refused
operation contributes nothing. Nothing for a push-back of another byte, which R54 does not speak of, and for an
operation that is none of these four. -/
def ledger (i : Instr) (results : List Result) (admitted returned : List Byte) : Option (List Byte × List Byte) :=
  match i, results with
  | .rbAppend data, [.ok] => some (admitted ++ data, returned)
  | .rbAppend _, [.failed _] => some (admitted, returned)
  | .rbDeq, [.okByte b] => some (admitted, returned ++ [b])
  | .rbDeq, [.failed _] => some (admitted, returned)
  | .rbPeek _, _ => some (admitted, returned)
  | .rbUndeq b, [.ok] => if returned.getLast? = some b then some (admitted, returned.dropLast) else none
  | .rbUndeq _, [.failed _] => some (admitted, returned)
  | _, _ => none

/-- Issues ring-buffer operations in order, keeping the books of R54. -/
def runRing : List Instr → State → List Byte → List Byte → Option (State × List Byte × List Byte)
  | [], s, admitted, returned => some (s, admitted, returned)
  | i :: is, s, admitted, returned =>
    match exec i s with
    | .next t =>
      match ledger i t.results admitted returned with
      | some (admitted', returned') => runRing is t admitted' returned'
      | none => none
    | .fault _ => none
    | .refused _ => none

end Sys2Proof.Machine
end

