-- ==== Sys2Proof/Certificates/Slice0/Obligations.lean ====
section
/-! DEFINITION. The statements for the provers. Each says which rule of spec/ it formalises. An operation's conclusion is
the whole next state, so that what it leaves unchanged is stated with what it changes; where memory is stored to, every
byte outside the stored ones reads as before. Every statement is about every configuration. -/

open Sys2Proof Sys2Proof.Machine

/-! ## Encodings -/

/-- Tier 3. Decoding an operation's command bytes gives it back, with every operand at every value, whatever follows. The
port's format is the model's choice (log 2). -/
def Obligations.DecodeEncodeAgree : Prop :=
  ∀ (i : Instr) (rest : List Byte), decode (encode i ++ rest) = .instr i rest

/-- Sample words from the tables of R70 (op codes), R17 (phase codes), R62 and R63 (field patterns); the bytes around
them are the model's choice (log 2). The table's own words read as its rows (log 4). -/
def Obligations.SampleWordsDecode : Prop :=
  decode [0x00#8] = .instr .reset [] ∧
  decode [0x02#8, 0x01#8, 0x11#8, 0x01#8, 0x22#8, 0x00#8] = .instr (.rbAppend [0x11#8, 0x22#8]) [] ∧
  decode [0x04#8, 0x01#8, 0x05#8, 0x00#8] = .instr (.rbPeek 5) [] ∧
  decode [0x09#8] = .instr .drive [] ∧
  decode [0x0A#8, 0x00#8] = .ignored [0x00#8] ∧
  decode [0x14#8] = .instr .pBody [] ∧
  decode [0x16#8] = .instr (.pIllegal67 0#1) [] ∧
  decode [0x24#8, 0x7F#8] = .instr (.wV1 0x7F#7) [] ∧
  decode [0x24#8, 0x80#8] = .reject (.notV1 0x80#8) ∧
  decode [0x25#8, 0x82#8, 0x01#8] = .instr (.wV2 2#7 1#8) [] ∧
  decode [0x30#8, 0x01#8, 0x2C#8, 0x01#8, 0x01#8, 0x00#8] = .instr (.vlEnc 300) [] ∧
  decodeTableWord 8 7 = some .pInit ∧
  decodeTableWord 16 0x8201 = some (.wV2 2#7 1#8)

/-- R65: the header checksum of raw bytes is their sum modulo 256. -/
def Obligations.ChecksumIsSumModulo256 : Prop :=
  ∀ bs : List Byte, (checksum bs).toNat = (bs.map BitVec.toNat).sum % 256

/-! ## Ring buffer -/

/-- R80, R194: `RB.INIT` empties the ring buffer, clears its storage to `0x00`, and does not touch the parser. That the
first byte at the port is the op code is the model's choice (log 2). -/
def Obligations.RbInitEmptiesRing : Prop :=
  ∀ s : State, (encode .rbInit).head? = some 0x01#8 ∧
    ∃ t, exec .rbInit s = .next t ∧
      t.block.rb.head = 0 ∧ t.block.rb.tail = 0 ∧ t.block.rb.size = 0 ∧ t.content = [] ∧
      (∀ a, a < s.cfg.C → Memory.read .rb t.block.rb.store a = 0x00#8) ∧
      t.block.p = s.block.p ∧ t.cfg = s.cfg ∧ t.port = s.port ∧ t.freeIndex = s.freeIndex ∧
      t.results = [] ∧ t.events = []

/-- R81: `RB.APPEND` refuses, changing nothing, exactly when the chunk does not fit; else the content grows by the chunk
at its end. Every storage byte outside the chunk's places reads as before. That the first byte at the port is the op
code is the model's choice (log 2). -/
def Obligations.RbAppendAllOrNothing : Prop :=
  ∀ (s : State) (data : List Byte), s.block.rb.Inv s.cfg →
    (encode (.rbAppend data)).head? = some 0x02#8 ∧
    (data.length > s.cfg.C - s.block.rb.size →
      exec (.rbAppend data) s = .next { s with results := [.failed .capacityExceeded], events := [] }) ∧
    (data.length ≤ s.cfg.C - s.block.rb.size →
      ∃ t store, exec (.rbAppend data) s = .next t ∧
        t = { s with
          block := { s.block with rb := { s.block.rb with
            store := store
            tail := (s.block.rb.tail + data.length) % s.cfg.C
            size := s.block.rb.size + data.length } }
          results := [.ok], events := [] } ∧
        t.content = s.content ++ data ∧
        (∀ (k : Nat) (b : Byte), data[k]? = some b →
          Memory.read .rb store ((s.block.rb.tail + k) % s.cfg.C) = b) ∧
        (∀ a, (∀ k, k < data.length → a ≠ (s.block.rb.tail + k) % s.cfg.C) →
          Memory.read .rb store a = Memory.read .rb s.block.rb.store a))

/-- R83: `RB.DEQ` returns and removes the oldest byte, writing neither `rb.tail` nor storage; on an empty ring buffer it
fails with `Empty`, changing nothing. That the first byte at the port is the op code is the model's choice (log 2). -/
def Obligations.RbDeqReturnsOldest : Prop :=
  ∀ s : State, s.block.rb.Inv s.cfg →
    (encode .rbDeq).head? = some 0x03#8 ∧
    (s.block.rb.size = 0 →
      exec .rbDeq s = .next { s with results := [.failed .empty], events := [] }) ∧
    (∀ b rest, s.content = b :: rest →
      ∃ t, exec .rbDeq s = .next t ∧
        t = { s with
          block := { s.block with rb := { s.block.rb with
            head := (s.block.rb.head + 1) % s.cfg.C, size := s.block.rb.size - 1 } }
          results := [.okByte b], events := [] } ∧
        t.content = rest ∧ b = Memory.read .rb s.block.rb.store s.block.rb.head)

/-- R84: `RB.PEEK index` returns the byte at logical index `index`, physical `(head + index) mod C`, or `OutOfRange`
exactly when `index >= rb.size`; it writes no state either way. That the first byte at the port is the op code is the
model's choice (log 2). -/
def Obligations.RbPeekReadsLogicalIndex : Prop :=
  ∀ (s : State) (index : Nat), (encode (.rbPeek index)).head? = some 0x04#8 ∧
    (s.block.rb.size ≤ index →
      exec (.rbPeek index) s = .next { s with results := [.failed .outOfRange], events := [] }) ∧
    (index < s.block.rb.size →
      ∃ b, exec (.rbPeek index) s = .next { s with results := [.okByte b], events := [] } ∧
        s.content[index]? = some b ∧
        b = Memory.read .rb s.block.rb.store ((s.block.rb.head + index) % s.cfg.C))

/-- R85: `RB.UNDEQ b` puts `b` at the front, at the new head; on a full ring buffer it fails with `CapacityExceeded`,
changing nothing. Every other storage byte reads as before. That the first byte at the port is the op code is the
model's choice (log 2). -/
def Obligations.RbUndeqPushesBack : Prop :=
  ∀ (s : State) (b : Byte), s.block.rb.Inv s.cfg →
    (encode (.rbUndeq b)).head? = some 0x05#8 ∧
    (s.block.rb.size = s.cfg.C →
      exec (.rbUndeq b) s = .next { s with results := [.failed .capacityExceeded], events := [] }) ∧
    (s.block.rb.size ≠ s.cfg.C →
      ∃ t head store, exec (.rbUndeq b) s = .next t ∧
        head = (if s.block.rb.head = 0 then s.cfg.C - 1 else s.block.rb.head - 1) ∧
        t = { s with
          block := { s.block with rb := { s.block.rb with
            store := store, head := head, size := s.block.rb.size + 1 } }
          results := [.ok], events := [] } ∧
        t.content = b :: s.content ∧
        Memory.read .rb store head = b ∧
        (∀ a, a ≠ head → Memory.read .rb store a = Memory.read .rb s.block.rb.store a))

/-- R87: a dequeue followed by the push-back of its byte restores the whole block; a push-back followed by a dequeue
returns the byte and restores cursors, size and content. -/
def Obligations.DeqAndUndeqAreInverse : Prop :=
  ∀ s : State, s.block.rb.Inv s.cfg →
    (1 ≤ s.block.rb.size → ∃ t u b, exec .rbDeq s = .next t ∧ t.results = [.okByte b] ∧
      exec (.rbUndeq b) t = .next u ∧ u.block = s.block ∧ u.content = s.content) ∧
    (∀ b, s.block.rb.size ≤ s.cfg.C - 1 → ∃ t u, exec (.rbUndeq b) s = .next t ∧
      exec .rbDeq t = .next u ∧ u.results = [.okByte b] ∧
      u.block.rb.head = s.block.rb.head ∧ u.block.rb.tail = s.block.rb.tail ∧
      u.block.rb.size = s.block.rb.size ∧ u.content = s.content)

/-- R54: along any sequence of ring-buffer operations, the bytes returned, not counting those pushed back with the same
value, followed by the content, are what was held and admitted, in order. -/
def Obligations.FifoLaw : Prop :=
  ∀ (ops : List Instr) (s t : State) (admitted returned : List Byte), s.block.rb.Inv s.cfg →
    runRing ops s [] [] = some (t, admitted, returned) → returned ++ t.content = s.content ++ admitted

/-- R15: the results of the ring-buffer operations and the content they leave are functions of the content and the
configuration alone; neither the cursors, the stale bytes nor the parser enters. -/
def Obligations.RingResultsDependOnContent : Prop :=
  ∀ (s u : State) (i : Instr),
    (i = .rbInit ∨ (∃ d, i = .rbAppend d) ∨ i = .rbDeq ∨ (∃ k, i = .rbPeek k) ∨ (∃ b, i = .rbUndeq b) ∨ i = .vlDec) →
    s.block.rb.Inv s.cfg → u.block.rb.Inv u.cfg → s.cfg = u.cfg → s.content = u.content →
    ∃ s' u', exec i s = .next s' ∧ exec i u = .next u' ∧ s'.results = u'.results ∧ s'.content = u'.content ∧
      s'.block.p = s.block.p ∧ u'.block.p = u.block.p

/-- R16: the ring-buffer invariant is true after `RB.INIT` and kept by every operation; full and empty both have
`tail = head`. -/
def Obligations.RingInvariantKept : Prop :=
  (∀ s t : State, exec .rbInit s = .next t → t.block.rb.Inv t.cfg) ∧
  (∀ (s t : State) (i : Instr), s.block.rb.Inv s.cfg → exec i s = .next t → t.block.rb.Inv t.cfg) ∧
  (∀ s : State, s.block.rb.Inv s.cfg → s.block.rb.size = s.cfg.C ∨ s.block.rb.size = 0 →
    s.block.rb.tail = s.block.rb.head)

/-- R150: an operation failure changes no state and emits nothing, being visible only as the result; and no failure and no
error ever stops the block: from every state that meets the invariants, every operation of the block answers. -/
def Obligations.FailureChangesNothing : Prop :=
  (∀ (s t : State) (i : Instr) (f : Failure), s.block.rb.Inv s.cfg → isBlockOp i = true → exec i s = .next t →
    .failed f ∈ t.results → t = { s with results := [.failed f], events := [] }) ∧
  (∀ (s : State) (i : Instr), s.Inv → isBlockOp i = true → ∃ t, exec i s = .next t)

/-! ## Field decoder -/

/-- R101, R103: `VL.DEC` on a complete field returns its value, length and raw-byte sum and consumes it; on an
incomplete one it returns `InsufficientData` and the ring buffer is exactly as it was. That the first byte at the port
is the op code is the model's choice (log 2). -/
def Obligations.VlDecDecodesOrRestores : Prop :=
  ∀ s : State, s.block.rb.Inv s.cfg →
    (encode .vlDec).head? = some 0x06#8 ∧
    (∀ b0 rest, s.content = b0 :: rest → b0.toNat < 128 →
      ∃ t v, exec .vlDec s = .next t ∧ v.toNat = b0.toNat ∧
        t = { s with
          block := { s.block with rb := { s.block.rb with
            head := (s.block.rb.head + 1) % s.cfg.C, size := s.block.rb.size - 1 } }
          results := [.okField v 1 b0], events := [] } ∧
        t.content = rest) ∧
    (∀ b0 b1 rest, s.content = b0 :: b1 :: rest → 128 ≤ b0.toNat →
      ∃ t v, exec .vlDec s = .next t ∧ v.toNat = b0.toNat - 128 + 128 * b1.toNat ∧
        t = { s with
          block := { s.block with rb := { s.block.rb with
            head := (s.block.rb.head + 2) % s.cfg.C, size := s.block.rb.size - 2 } }
          results := [.okField v 2 (b0 + b1)], events := [] } ∧
        t.content = rest) ∧
    (s.content = [] ∨ (∃ b0, s.content = [b0] ∧ 128 ≤ b0.toNat) →
      exec .vlDec s = .next { s with results := [.failed .insufficientData], events := [] })

/-- R102: dequeue with push-back is exactly the look-ahead form, ring storage included. -/
def Obligations.VlDecEqualsLookAhead : Prop :=
  ∀ (cfg : Config) (rb : RingBuffer), rb.Inv cfg → decodeField cfg rb = decodeFieldAhead cfg rb

/-- R105: `VL.DEC` inverts `VL.ENC` for every value, leaving what follows. -/
def Obligations.VlDecInvertsVlEnc : Prop :=
  ∀ (s : State) (v : Nat) (rest : List Byte), s.block.rb.Inv s.cfg → v ≤ 32767 →
    ∃ e raw, exec (.vlEnc v) s = .next e ∧ e.results = [.bytes raw] ∧ raw.length = (if v < 128 then 1 else 2) ∧
      (s.content = raw ++ rest →
        ∃ t, exec .vlDec s = .next t ∧
          t.results = [.okField (BitVec.ofNat 15 v) raw.length (checksum raw)] ∧ t.content = rest)

/-! ## Reset and initialisation -/

/-- R31: the values after reset, for every configuration. The empty port and outputs are the model's choice (log 3,
log 5), and the contents of `p.body_acc` are not stated. -/
def Obligations.ResetValues : Prop :=
  ∀ cfg : Config,
    (State.resetWith cfg).cfg = cfg ∧
    (State.resetWith cfg).block.rb.head = 0 ∧ (State.resetWith cfg).block.rb.tail = 0 ∧
    (State.resetWith cfg).block.rb.size = 0 ∧
    (∀ a, a < cfg.C → Memory.read .rb (State.resetWith cfg).block.rb.store a = 0x00#8) ∧
    (State.resetWith cfg).block.p.phase = .sync ∧ (State.resetWith cfg).block.p.syncCursor = 0 ∧
    (State.resetWith cfg).block.p.hdrCsum = 0#8 ∧ (State.resetWith cfg).block.p.declSize = 0#15 ∧
    (State.resetWith cfg).block.p.declType = 0#15 ∧ (State.resetWith cfg).block.p.bodyCount = 0 ∧
    (State.resetWith cfg).port = [] ∧ (State.resetWith cfg).results = [] ∧ (State.resetWith cfg).events = [] ∧
    State.reset = State.resetWith State.reset.cfg

/-- The invariants of R16 and R25 hold at reset, for every configuration. -/
def Obligations.ResetMeetsInvariants : Prop :=
  ∀ cfg : Config, (State.resetWith cfg).Inv ∧ (State.resetWith cfg).block.p.PhaseInv cfg ∧
    (State.resetWith cfg).Quiescent

/-- R180: `RESET` from any state is `RB.INIT` and `P.INIT`, in either order: it gives the values of R31 and emits
nothing; `p.body_acc` is not written. That the first byte at the port is the op code is the model's choice (log 2). -/
def Obligations.ResetFromAnyState : Prop :=
  ∀ s : State, (encode .reset).head? = some 0x00#8 ∧
    ∃ t a b, exec .reset s = .next t ∧
      t.block.rb = (State.resetWith s.cfg).block.rb ∧
      t.block.p = { (State.resetWith s.cfg).block.p with bodyAcc := s.block.p.bodyAcc } ∧
      t.cfg = s.cfg ∧ t.port = s.port ∧ t.freeIndex = s.freeIndex ∧ t.results = [] ∧ t.events = [] ∧
      exec .rbInit s = .next a ∧ exec .pInit a = .next t ∧ exec .pInit s = .next b ∧ exec .rbInit b = .next t

/-- R120: `P.INIT` gives the parser its initial values, writes nothing else, and does not touch the ring buffer. That
the first byte at the port is the op code is the model's choice (log 2). -/
def Obligations.PInitInitialisesParser : Prop :=
  ∀ s : State, (encode .pInit).head? = some 0x07#8 ∧
    ∃ t, exec .pInit s = .next t ∧ t.block.rb = s.block.rb ∧
      t.block.p.phase = .sync ∧ t.block.p.syncCursor = 0 ∧ t.block.p.hdrCsum = 0#8 ∧ t.block.p.declSize = 0#15 ∧
      t.block.p.declType = 0#15 ∧ t.block.p.bodyCount = 0 ∧ t.block.p.bodyAcc = s.block.p.bodyAcc ∧
      t.cfg = s.cfg ∧ t.port = s.port ∧ t.freeIndex = s.freeIndex ∧ t.results = [] ∧ t.events = []

/-! ## Transitions -/

/-- R122: `P.STEP` is the transition that the 3-bit phase code selects, in every phase, illegal codes included; it
returns `Progress` or `Suspend` and at most one event, and suspends on an empty ring buffer (an illegal code goes to
`SYNC` there too: log 14, R129). That the first byte at the port is the op code is the model's choice (log 2). -/
def Obligations.PStepSelectsByPhase : Prop :=
  ∀ s : State, (encode .pStep).head? = some 0x08#8 ∧
    ∃ t, exec .pStep s = .next t ∧ exec (phaseInstr s.block.p.phase.code) s = .next t ∧
      Phase.ofCode s.block.p.phase.code = s.block.p.phase ∧
      (t.results = [.verdict .progress] ∨ t.results = [.verdict .suspend]) ∧ t.events.length ≤ 1 ∧
      (s.block.rb.size = 0 → s.block.p.phase.legal = true → t.results = [.verdict .suspend])

/-- R123: `P.SYNC` consumes the front byte; a match advances the cursor, the third match resets cursor and header
accumulators and moves to `HEADER_SIZE`, a mismatch sets the cursor to 0 and discards the byte whatever it is. -/
def Obligations.PSyncMatchesMarker : Prop :=
  ∀ (s : State) (b : Byte) (rest : List Byte), s.block.rb.Inv s.cfg → s.content = b :: rest →
    ∃ t, exec .pSync s = .next t ∧ t.content = rest ∧
      t = s.consumed 1
        (if [s.cfg.sync0, s.cfg.sync1, s.cfg.sync2][s.block.p.syncCursor.val]? = some b then
          if s.block.p.syncCursor.val = 2 then
            { s.block.p with
              syncCursor := 0, hdrCsum := 0#8, declSize := 0#15, declType := 0#15, phase := .headerSize }
          else { s.block.p with syncCursor := s.block.p.syncCursor + 1 }
        else { s.block.p with syncCursor := 0 })

/-- R124: `P.HSIZE` on a complete field stores its value as the declared size, adds every raw byte of it to the checksum
and moves to `HEADER_TYPE`; without a complete field it suspends with nothing changed. -/
def Obligations.PHsizeDecodesSize : Prop :=
  ∀ s : State, s.block.rb.Inv s.cfg →
    phaseInstr Phase.headerSize.code = .pHsize ∧
    (∀ raw v rest, IsField raw v → s.content = raw ++ rest →
      ∃ t, exec .pHsize s = .next t ∧ t.content = rest ∧
        t = s.consumed raw.length { s.block.p with
          declSize := v, hdrCsum := s.block.p.hdrCsum + checksum raw, phase := .headerType }) ∧
    (s.content = [] ∨ (∃ b0, s.content = [b0] ∧ 128 ≤ b0.toNat) →
      exec .pHsize s = .next { s with results := [.verdict .suspend], events := [] })

/-- R125: `P.HTYPE`, the same for the declared type; it moves to `HEADER_CHECKSUM`. -/
def Obligations.PHtypeDecodesType : Prop :=
  ∀ s : State, s.block.rb.Inv s.cfg →
    phaseInstr Phase.headerType.code = .pHtype ∧
    (∀ raw v rest, IsField raw v → s.content = raw ++ rest →
      ∃ t, exec .pHtype s = .next t ∧ t.content = rest ∧
        t = s.consumed raw.length { s.block.p with
          declType := v, hdrCsum := s.block.p.hdrCsum + checksum raw, phase := .headerChecksum }) ∧
    (s.content = [] ∨ (∃ b0, s.content = [b0] ∧ 128 ≤ b0.toNat) →
      exec .pHtype s = .next { s with results := [.verdict .suspend], events := [] })

/-- R126, R127, R162: `P.HCSUM` consumes the checksum byte; a mismatch reports `HeaderChecksumMismatch` whatever the size;
a match is judged oversize first, then empty, else the body begins. On an empty ring buffer it suspends. -/
def Obligations.PHcsumJudgesHeader : Prop :=
  ∀ s : State, s.block.rb.Inv s.cfg →
    phaseInstr Phase.headerChecksum.code = .pHcsum ∧
    (s.content = [] → exec .pHcsum s = .next { s with results := [.verdict .suspend], events := [] }) ∧
    (∀ rx rest, s.content = rx :: rest →
      ∃ t, exec .pHcsum s = .next t ∧ t.content = rest ∧
        t = { s with
          block :=
            { rb := { s.block.rb with head := (s.block.rb.head + 1) % s.cfg.C, size := s.block.rb.size - 1 }
              p :=
                if rx ≠ s.block.p.hdrCsum then { s.block.p with phase := .sync }
                else if s.cfg.maxBody.toNat < s.block.p.declSize.toNat then { s.block.p with phase := .sync }
                else if s.block.p.declSize.toNat = 0 then { s.block.p with phase := .sync }
                else { s.block.p with bodyCount := 0, phase := .body } }
          results := [.verdict .progress]
          events :=
            if rx ≠ s.block.p.hdrCsum then [.error .headerChecksumMismatch]
            else if s.cfg.maxBody.toNat < s.block.p.declSize.toNat then [.error .oversizedBody]
            else if s.block.p.declSize.toNat = 0 then [.packet s.block.p.declType 0#15 []]
            else [] })

/-- R128, the accumulating part: with fewer bytes buffered than the body still needs, all of them are appended to the
accumulator and the phase stays; with enough, exactly the missing ones are taken and the packet carries the whole
body. `acc0` is the accumulator found: in phase `BODY` as it stands, and accumulator bytes outside the written ones
read as before; in another phase, where its bytes are any value (R30), nothing is said of it but that a fresh free
value was used (log 27). -/
def Obligations.PBodyAccumulates : Prop :=
  ∀ s : State, s.block.rb.Inv s.cfg → s.block.p.AccInv s.cfg → s.content ≠ [] →
    s.block.p.declSize.toNat ≤ s.cfg.bodyCap → s.block.p.bodyCount ≤ s.block.p.declSize.toNat →
    ∃ t take acc0 acc, exec .pBody s = .next t ∧
      (s.block.p.phase = .body → acc0 = s.block.p.bodyAcc) ∧
      take = min s.block.rb.size (s.block.p.declSize.toNat - s.block.p.bodyCount) ∧
      t.content = s.content.drop take ∧
      t = { s with
        block :=
          { rb := { s.block.rb with
              head := (s.block.rb.head + take) % s.cfg.C, size := s.block.rb.size - take }
            p := { s.block.p with
              bodyAcc := acc
              bodyCount := s.block.p.bodyCount + take
              phase :=
                if s.block.p.bodyCount + take = s.block.p.declSize.toNat then .sync else s.block.p.phase } }
        results := [.verdict .progress]
        events :=
          if s.block.p.bodyCount + take = s.block.p.declSize.toNat then
            [.packet s.block.p.declType s.block.p.declSize
              ((List.range s.block.p.bodyCount).map (Memory.read .acc acc0) ++ s.content.take take)]
          else []
        freeIndex := if s.block.p.phase = .body then s.freeIndex else s.freeIndex + 1 } ∧
      (∀ k b, k < take → s.content[k]? = some b → Memory.read .acc acc (s.block.p.bodyCount + k) = b) ∧
      (∀ a, a < s.block.p.bodyCount ∨ s.block.p.bodyCount + take ≤ a →
        Memory.read .acc acc a = Memory.read .acc acc0 a)

/-- R157, R128: a declared size above `BODY_CAP` is reported before any byte is consumed; only the phase changes. -/
def Obligations.PBodyOverflowConsumesNothing : Prop :=
  ∀ s : State, s.block.rb.size ≠ 0 → s.cfg.bodyCap < s.block.p.declSize.toNat →
    exec .pBody s = .next { s with
      block := { s.block with p := { s.block.p with phase := .sync } }
      results := [.verdict .progress], events := [.error .bodyBufferOverflow] }

/-- R129: `P.ILLEGAL`, on each of its codes, goes to `SYNC`, consumes no byte, emits no event, changes nothing else. -/
def Obligations.PIllegalGoesToSync : Prop :=
  ∀ (s : State) (low : BitVec 1) (t : State),
    t = { s with
      block := { s.block with p := { s.block.p with phase := .sync } }
      results := [.verdict .progress], events := [] } →
    exec .pIllegal5 s = .next t ∧ exec (.pIllegal67 low) s = .next t ∧
    (s.block.p.phase = .illegal5 ∨ s.block.p.phase = .illegal6 ∨ s.block.p.phase = .illegal7 →
      exec .pStep s = .next t)

/-- R133, "any phase | ring buffer empty": each of the five transitions suspends on an empty ring buffer, and so does
`P.STEP` in the five phases. -/
def Obligations.EmptyRingSuspends : Prop :=
  ∀ (s : State) (i : Instr), s.block.rb.size = 0 →
    (i = .pSync ∨ i = .pHsize ∨ i = .pHtype ∨ i = .pHcsum ∨ i = .pBody ∨
      (i = .pStep ∧ s.block.p.phase.legal = true)) →
    exec i s = .next { s with results := [.verdict .suspend], events := [] }

/-- R121: a transition that suspends has changed nothing and emitted nothing; any transition emits at most one event. -/
def Obligations.SuspendChangesNothing : Prop :=
  ∀ (s t : State) (i : Instr), s.block.rb.Inv s.cfg → i = .pStep ∨ isPhaseRow i = true → exec i s = .next t →
    (t.results = [.verdict .suspend] ∨ t.results = [.verdict .progress]) ∧
    (t.results = [.verdict .suspend] → t = { s with results := [.verdict .suspend], events := [] }) ∧
    t.events.length ≤ 1

/-- R163: a transition that reports an error writes the phase and no other parser register, and has consumed at most the
checksum byte. -/
def Obligations.ErrorEntryWritesPhaseOnly : Prop :=
  ∀ (s t : State) (kind : ErrorKind), s.block.rb.Inv s.cfg → exec .pStep s = .next t → .error kind ∈ t.events →
    t.events = [.error kind] ∧ t.block.p = { s.block.p with phase := .sync } ∧
    t.content = (if kind = .bodyBufferOverflow then s.content else s.content.drop 1) ∧
    t.block.rb.store = s.block.rb.store ∧ t.block.rb.tail = s.block.rb.tail

/-- R188: a marker reached with a non-zero cursor that its first byte does not continue is consumed without being
recognised: after its three bytes the parser is still in `SYNC` and no event was emitted, whatever the marker. The
cursor is 0 where the marker has its first byte nowhere else. -/
def Obligations.MarkerAfterPartialMarkerIsLost : Prop :=
  ∀ (s : State) (rest : List Byte), s.block.rb.Inv s.cfg → s.block.p.phase = .sync → s.block.p.syncCursor ≠ 0 →
    s.content = s.cfg.sync0 :: s.cfg.sync1 :: s.cfg.sync2 :: rest →
    [s.cfg.sync0, s.cfg.sync1, s.cfg.sync2][s.block.p.syncCursor.val]? ≠ some s.cfg.sync0 →
    ∃ t u v cursor, exec .pStep s = .next t ∧ exec .pStep t = .next u ∧ exec .pStep u = .next v ∧
      t.events = [] ∧ u.events = [] ∧ v.events = [] ∧ v.content = rest ∧
      v.block.p = { s.block.p with syncCursor := cursor } ∧
      (s.cfg.sync1 ≠ s.cfg.sync0 → s.cfg.sync2 ≠ s.cfg.sync0 → cursor = 0)

/-! ## Drive -/

/-- R130, R131: `DRIVE` returns, from every state that meets the invariants, and leaves the ring buffer empty or holding
one byte, the first of a two-byte field. That the first byte at the port is the op code is the model's choice
(log 2). -/
def Obligations.DriveReturnsQuiescent : Prop :=
  ∀ s : State, s.Inv → (encode .drive).head? = some 0x09#8 ∧
    ∃ t, exec .drive s = .next t ∧ t.Quiescent ∧ t.block.rb.size ≤ 1 ∧ t.results = [] ∧
      t.cfg = s.cfg ∧ t.port = s.port ∧ t.freeIndex = s.freeIndex

/-- R130: `DRIVE` where nothing can be done returns no event and changes nothing. -/
def Obligations.DriveIdempotentAtQuiescence : Prop :=
  ∀ s : State, s.block.rb.Inv s.cfg → s.Quiescent →
    exec .drive s = .next { s with results := [], events := [] }

/-- R130: with a byte buffered, `DRIVE` is one `P.STEP` and, if that progressed, a `DRIVE` of the rest, the events in
order; on an empty ring buffer it does nothing. -/
def Obligations.DriveIsLoopOfPStep : Prop :=
  ∀ s : State, s.Inv →
    (s.block.rb.size = 0 → exec .drive s = .next { s with results := [], events := [] }) ∧
    (1 ≤ s.block.rb.size → ∃ t, exec .pStep s = .next t ∧
      ((t.results = [.verdict .suspend] ∧ exec .drive s = .next { t with results := [] }) ∨
        (t.results = [.verdict .progress] ∧ ∃ u, exec .drive t = .next u ∧
          exec .drive s = .next { u with events := t.events ++ u.events })))

/-- R71: `FEED` is the append and then the drive, whether or not the chunk was admitted (log 17). -/
def Obligations.FeedIsAppendThenDrive : Prop :=
  ∀ (s : State) (data : List Byte), s.Inv →
    ∃ t u, exec (.rbAppend data) s = .next t ∧ exec .drive t = .next u ∧
      exec (.feed data) s = .next { u with results := t.results }

/-- R71: `FEED1` is a `FEED` of each byte in order. -/
def Obligations.Feed1IsFeedOfEachByte : Prop :=
  ∀ s : State, s.Inv →
    exec (.feed1 []) s = .next { s with results := [], events := [] } ∧
    (∀ b bs, ∃ t u, exec (.feed [b]) s = .next t ∧ exec (.feed1 bs) t = .next u ∧
      exec (.feed1 (b :: bs)) s = .next { u with
        results := t.results ++ u.results, events := t.events ++ u.events })

/-- R187: after a drive, any chunk of at most `C - 1` bytes is admitted. -/
def Obligations.ChunkFitsAfterDrive : Prop :=
  ∀ (s : State) (data : List Byte), s.Inv → data.length ≤ s.cfg.C - 1 →
    ∃ t u, exec .drive s = .next t ∧ exec (.rbAppend data) t = .next u ∧ u.results = [.ok]

/-- R132: two ways to cut the same bytes into chunks, each chunk appended and driven and none refused, give the same
events in the same order, and leave the same content, cursors, size and parser registers and, in phase `BODY`, the
same accumulated bytes. The bytes that R30 calls unobservable are not compared. -/
def Obligations.ChunkIndependence : Prop :=
  ∀ (s t u : State) (cs ds : List (List Byte)) (es fs : List Event), s.Inv → cs ≠ [] → ds ≠ [] →
    cs.flatten = ds.flatten → feedAll cs s = some (t, es) → feedAll ds s = some (u, fs) →
    es = fs ∧ t.content = u.content ∧
    t.block.rb.head = u.block.rb.head ∧ t.block.rb.tail = u.block.rb.tail ∧ t.block.rb.size = u.block.rb.size ∧
    t.block.p = { u.block.p with bodyAcc := t.block.p.bodyAcc } ∧
    (t.block.p.phase = .body → ∀ a, a < t.block.p.bodyCount →
      Memory.read .acc t.block.p.bodyAcc a = Memory.read .acc u.block.p.bodyAcc a)

/-- Tier 3. R112: a conformant frame, in any chunking that is never refused, from `SYNC` with cursor 0 and an empty ring
buffer, gives exactly one event, its packet, in the drive that follows the frame's last byte, and the parser is back
where it began. -/
def Obligations.FrameRoundTrip : Prop :=
  ∀ (s t f : State) (type : Nat) (body frame : List Byte) (cs : List (List Byte)) (es : List Event), s.Inv →
    s.block.p.phase = .sync → s.block.p.syncCursor = 0 → s.block.rb.size = 0 →
    type ≤ 32767 → body.length ≤ s.cfg.maxBody.toNat → body.length ≤ s.cfg.bodyCap →
    exec (.frame type body) s = .next f → f.results = [.bytes frame] →
    cs.flatten = frame → feedAll cs s = some (t, es) →
    es = [.packet (BitVec.ofNat 15 type) (BitVec.ofNat 15 body.length) body] ∧
    t.block.p.phase = .sync ∧ t.block.p.syncCursor = 0 ∧ t.block.rb.size = 0 ∧
    (∀ (ds : List (List Byte)) (c : List Byte), cs = ds ++ [c] → c ≠ [] → ∃ u, feedAll ds s = some (u, []))

/-! ## Invariants -/

/-- Tier 3. Every step keeps R16, the canonical form of both memories and the `BODY` row of R25, from every state that
meets them and whatever operation is issued. -/
def Obligations.StepKeepsInvariant : Prop :=
  ∀ s t : State, s.Inv → step s = .next t → t.Inv

/-- Tier 3. The rows of R25 for every phase, the checksum law of R134 among them, are kept by every operation issued in
its place (a phase's transition only in that phase, R122). -/
def Obligations.OperationsKeepPhaseRows : Prop :=
  ∀ (s t : State) (i : Instr), s.Inv → s.block.p.PhaseInv s.cfg → inPlace i s → exec i s = .next t →
    t.block.p.PhaseInv t.cfg

/-- R6: no operation and no step changes the configuration; no operation touches the port. -/
def Obligations.ConfigurationIsConstant : Prop :=
  (∀ (s t : State) (i : Instr), exec i s = .next t → t.cfg = s.cfg ∧ t.port = s.port) ∧
  (∀ s t : State, step s = .next t → t.cfg = s.cfg)

/-- R157: where `BODY_CAP >= MAX_BODY`, no operation issued in its place (a phase's transition only in that phase, R122)
reports `BodyBufferOverflow`. -/
def Obligations.BodyBufferOverflowUnreachable : Prop :=
  ∀ (s t : State) (i : Instr), s.Inv → s.cfg.wellFormed → inPlace i s → exec i s = .next t →
    .error .bodyBufferOverflow ∉ t.events

/-- R160: every packet's body has exactly `len` bytes, and `len` is at most `MAX_BODY` and `BODY_CAP`, whatever
operation is issued in its place (a phase's transition only in that phase, R122). -/
def Obligations.PacketEventsInBounds : Prop :=
  ∀ (s t : State) (i : Instr) (type len : Field) (body : List Byte), s.Inv → inPlace i s →
    exec i s = .next t → .packet type len body ∈ t.events →
    body.length = len.toNat ∧ len.toNat ≤ s.cfg.maxBody.toNat ∧ len.toNat ≤ s.cfg.bodyCap

/-! ## Wire elements -/

/-- R61, R68, R123: in phase `SYNC`, the marker byte looked for is the element `W.SYNC0`, `W.SYNC1` or `W.SYNC2`, any other
byte is `W.SKIP`; each consumes its byte and moves the cursor as R123 says. -/
def Obligations.SyncElementsMoveCursor : Prop :=
  ∀ (s : State) (b : Byte) (rest : List Byte), s.block.rb.Inv s.cfg →
    s.content = b :: rest → s.block.p.phase = .sync →
    (∀ p, (s.consumed 1 p).content = rest) ∧
    (s.block.p.syncCursor = 0 → b = s.cfg.sync0 →
      exec (.wSync0 b) s = .next (s.consumed 1 { s.block.p with syncCursor := 1 })) ∧
    (s.block.p.syncCursor = 1 → b = s.cfg.sync1 →
      exec (.wSync1 b) s = .next (s.consumed 1 { s.block.p with syncCursor := 2 })) ∧
    (s.block.p.syncCursor = 2 → b = s.cfg.sync2 →
      exec (.wSync2 b) s = .next (s.consumed 1 { s.block.p with
        syncCursor := 0, hdrCsum := 0#8, declSize := 0#15, declType := 0#15, phase := .headerSize })) ∧
    ([s.cfg.sync0, s.cfg.sync1, s.cfg.sync2][s.block.p.syncCursor.val]? ≠ some b →
      exec (.wSkip b) s = .next (s.consumed 1 { s.block.p with syncCursor := 0 }))

/-- R62, R63, R124, R125: the elements `W.V1` and `W.V2` carry the value of the field that the phase asks for, add their
raw bytes to the checksum and move to the next phase; `W.V2` with its second byte missing waits with nothing changed. -/
def Obligations.FieldElementsStoreValue : Prop :=
  ∀ (s : State) (v l : BitVec 7) (h b0 b1 : Byte) (rest : List Byte),
    s.block.rb.Inv s.cfg → b0.toNat = v.toNat → b1.toNat = 128 + l.toNat →
    (s.block.p.phase = .headerSize → s.content = b0 :: rest → ∃ value : Field, value.toNat = v.toNat ∧
      exec (.wV1 v) s = .next (s.consumed 1 { s.block.p with
        declSize := value, hdrCsum := s.block.p.hdrCsum + b0, phase := .headerType })) ∧
    (s.block.p.phase = .headerType → s.content = b0 :: rest → ∃ value : Field, value.toNat = v.toNat ∧
      exec (.wV1 v) s = .next (s.consumed 1 { s.block.p with
        declType := value, hdrCsum := s.block.p.hdrCsum + b0, phase := .headerChecksum })) ∧
    (s.block.p.phase = .headerSize → s.content = b1 :: h :: rest →
      ∃ value : Field, value.toNat = l.toNat + 128 * h.toNat ∧
        exec (.wV2 l h) s = .next (s.consumed 2 { s.block.p with
          declSize := value, hdrCsum := s.block.p.hdrCsum + (b1 + h), phase := .headerType })) ∧
    (s.block.p.phase = .headerType → s.content = b1 :: h :: rest →
      ∃ value : Field, value.toNat = l.toNat + 128 * h.toNat ∧
        exec (.wV2 l h) s = .next (s.consumed 2 { s.block.p with
          declType := value, hdrCsum := s.block.p.hdrCsum + (b1 + h), phase := .headerChecksum })) ∧
    (s.block.p.phase = .headerSize ∨ s.block.p.phase = .headerType → s.content = [b1] →
      exec (.wV2 l h) s = .next { s with results := [.verdict .suspend], events := [] })

/-- R65, R126, R127: in phase `HEADER_CHECKSUM` the front byte is the element `W.CSUM`, and its handling is `P.HCSUM`. -/
def Obligations.ChecksumElementIsCompared : Prop :=
  ∀ (s : State) (c : Byte) (rest : List Byte), s.block.rb.Inv s.cfg → s.content = c :: rest →
    s.block.p.phase = .headerChecksum →
    ∃ t, exec (.wCsum c) s = .next t ∧ exec .pHcsum s = .next t ∧ t.content = rest ∧
      (.error .headerChecksumMismatch ∈ t.events ↔ c ≠ s.block.p.hdrCsum)

/-- R66, R128: in phase `BODY` the front byte is the element `W.BODY`; it is moved to the accumulator at `p.body_count`,
and the packet is emitted with the last one. A declared size above `BODY_CAP` is reported with no byte consumed. One
byte per element is the model's reading (log 13). -/
def Obligations.BodyElementIsStored : Prop :=
  ∀ (s : State) (b : Byte) (rest : List Byte), s.Inv → s.content = b :: rest → s.block.p.phase = .body →
    (s.cfg.bodyCap < s.block.p.declSize.toNat →
      exec (.wBody b) s = .next { s with
        block := { s.block with p := { s.block.p with phase := .sync } }
        results := [.verdict .progress], events := [.error .bodyBufferOverflow] }) ∧
    (s.block.p.declSize.toNat ≤ s.cfg.bodyCap →
      ∃ t acc, exec (.wBody b) s = .next t ∧ t.content = rest ∧
        t = { s with
          block :=
            { rb := { s.block.rb with head := (s.block.rb.head + 1) % s.cfg.C, size := s.block.rb.size - 1 }
              p := { s.block.p with
                bodyAcc := acc
                bodyCount := s.block.p.bodyCount + 1
                phase := if s.block.p.bodyCount + 1 = s.block.p.declSize.toNat then .sync else .body } }
          results := [.verdict .progress]
          events :=
            if s.block.p.bodyCount + 1 = s.block.p.declSize.toNat then
              [.packet s.block.p.declType s.block.p.declSize
                ((List.range s.block.p.bodyCount).map (Memory.read .acc s.block.p.bodyAcc) ++ [b])]
            else [] } ∧
        Memory.read .acc acc s.block.p.bodyCount = b ∧
        (∀ a, a ≠ s.block.p.bodyCount → Memory.read .acc acc a = Memory.read .acc s.block.p.bodyAcc a))

/-- R68, R69: in the five phases, with two bytes buffered, exactly one wire element executes, it is made of the front
bytes, and outside phase `BODY` its effect is that of `P.STEP`. -/
def Obligations.ExactlyOneElementExecutes : Prop :=
  ∀ (s : State) (b0 b1 : Byte) (rest : List Byte), s.block.rb.Inv s.cfg → s.content = b0 :: b1 :: rest →
    s.block.p.phase.legal = true →
    ∃ i t, exec i s = .next t ∧ (wireBytes i = [b0] ∨ wireBytes i = [b0, b1]) ∧
      (s.block.p.phase ≠ .body → exec .pStep s = .next t) ∧
      (∀ j u, wireBytes j ≠ [] → exec j s = .next u → j = i)

/-- The model's choice (log 12): a wire element is refused by name exactly where it is neither at the front nor awaited.
It is at the front where the phase recognises its kind (the phase column of R68), the content begins with its bytes, and
a marker element is, a skipped byte is not, the marker byte looked for. It is awaited, and suspends with nothing
changed, where its kind is recognised and what is buffered is a proper beginning of it, an empty ring buffer among
these. -/
def Obligations.OtherElementsAreRefused : Prop :=
  ∀ (s : State) (i : Instr), wireBytes i ≠ [] →
    (exec i s = .refused .notTheFrontElement ↔
      ¬ (recognises s.block.p i = true ∧ wireBytes i <+: s.content ∧
          (∀ b, i = .wSync0 b ∨ i = .wSync1 b ∨ i = .wSync2 b →
            [s.cfg.sync0, s.cfg.sync1, s.cfg.sync2][s.block.p.syncCursor.val]? = some b) ∧
          (∀ x, i = .wSkip x →
            [s.cfg.sync0, s.cfg.sync1, s.cfg.sync2][s.block.p.syncCursor.val]? ≠ some x)) ∧
        ¬ (recognises s.block.p i = true ∧ s.content <+: wireBytes i ∧ s.content ≠ wireBytes i)) ∧
    (recognises s.block.p i = true → s.content <+: wireBytes i → s.content ≠ wireBytes i →
      exec i s = .next { s with results := [.verdict .suspend], events := [] })

/-! ## Reference functions -/

/-- R104: `VL.ENC`, and `ENC` which stands for it (R71): one byte below 128, two bytes with the marker bit up to 32767, no
value above. The block is not touched. -/
def Obligations.VlEncGivesCanonicalForm : Prop :=
  ∀ (s : State) (v : Nat) (i : Instr), i = .vlEnc v ∨ i = .enc v →
    (v < 128 → ∃ b : Byte, b.toNat = v ∧
      exec i s = .next { s with results := [.bytes [b]], events := [] }) ∧
    (128 ≤ v → v ≤ 32767 → ∃ b0 b1 : Byte, b0.toNat = 128 + v % 128 ∧ b1.toNat = v / 128 ∧
      exec i s = .next { s with results := [.bytes [b0, b1]], events := [] }) ∧
    (32767 < v → exec i s = .refused (.notEncodable v))

/-- R110: `FB.BUILD`, and `FRAME` which stands for it (R71): marker, encoded size, encoded type, checksum of those bytes,
body. The block is not touched. -/
def Obligations.FbBuildGivesFrame : Prop :=
  ∀ (s : State) (body : List Byte) (type : Nat), type ≤ 32767 → body.length ≤ 32767 →
    ∃ a b es et, exec (.vlEnc body.length) s = .next a ∧ a.results = [.bytes es] ∧
      exec (.vlEnc type) s = .next b ∧ b.results = [.bytes et] ∧
      (∀ i, i = .fbBuild body type body.length ∨ i = .frame type body →
        exec i s = .next { s with
          results := [.bytes
            (s.cfg.sync0 :: s.cfg.sync1 :: s.cfg.sync2 :: (es ++ et ++ checksum (es ++ et) :: body))]
          events := [] })

/-- R111: outside its preconditions `FB.BUILD` has no value, and so has `FRAME`; within them each has one. -/
def Obligations.FbBuildRefusedOutsideDomain : Prop :=
  ∀ (s : State) (body : List Byte) (type size : Nat),
    (body.length ≠ size ∨ 32767 < size ∨ 32767 < type →
      exec (.fbBuild body type size) s = .refused (.notBuildable type size)) ∧
    (32767 < body.length ∨ 32767 < type →
      exec (.frame type body) s = .refused (.notBuildable type body.length)) ∧
    (WellFormed (.fbBuild body type size) = true → ∃ t, exec (.fbBuild body type size) s = .next t) ∧
    (WellFormed (.frame type body) = true → ∃ t, exec (.frame type body) s = .next t)

/-! ## Steps -/

/-- A step runs the operation that the command port holds, on the state with its bytes taken. -/
def Obligations.StepRunsDecodedOperation : Prop :=
  ∀ (s : State) (i : Instr) (rest : List Byte), decode s.port = .instr i rest →
    step s = exec i { s with port := rest }

/-- R174, R70: with nothing issued the block rests, all state kept; an unassigned op code 10 to 15 changes no state and has
no result (log 22); bytes that are no operation are refused by name (log 25). -/
def Obligations.StepRestsIgnoresRefuses : Prop :=
  (∀ s : State, s.port = [] → step s = .next s) ∧
  (∀ (s : State) (c : Byte) (rest : List Byte), s.port = c :: rest → 10 ≤ c.toNat → c.toNat ≤ 15 →
    step s = .next { s with port := rest, results := [], events := [] }) ∧
  (∀ (s : State) (r : Reject), decode s.port = .reject r → step s = .refused (.undecodable r))

/-! ## When a failure or an error is raised -/

/-- R152, R153, R154: `Empty`, `OutOfRange` and `InsufficientData` are raised by `RB.DEQ`, `RB.PEEK` and `VL.DEC` alone,
exactly on their conditions, and record nothing. Inside the block they are absorbed: the transitions suspend, and `P.BODY`
never meets `Empty`. -/
def Obligations.FailuresRaisedExactlyWhen : Prop :=
  ∀ s : State, s.block.rb.Inv s.cfg →
    (∃ t, exec .rbDeq s = .next t ∧ (.failed .empty ∈ t.results ↔ s.block.rb.size = 0)) ∧
    (∀ index, ∃ t, exec (.rbPeek index) s = .next t ∧
      (.failed .outOfRange ∈ t.results ↔ s.block.rb.size ≤ index)) ∧
    (∃ t, exec .vlDec s = .next t ∧ (.failed .insufficientData ∈ t.results ↔
      s.content = [] ∨ ∃ b, s.content = [b] ∧ 128 ≤ b.toNat)) ∧
    (∀ (t : State) (i : Instr) (f : Failure), exec i s = .next t → .failed f ∈ t.results →
      f = .capacityExceeded ∨
        (t.block = s.block ∧ t.events = [] ∧
          ((f = .empty ∧ i = .rbDeq) ∨ (f = .outOfRange ∧ ∃ index, i = .rbPeek index) ∨
            (f = .insufficientData ∧ i = .vlDec)))) ∧
    (∀ i, i = .pSync ∨ i = .pHsize ∨ i = .pHtype ∨ i = .pHcsum → inPlace i s → s.content = [] →
      exec i s = .next { s with results := [.verdict .suspend], events := [] }) ∧
    (∀ i b, i = .pHsize ∨ i = .pHtype → inPlace i s → s.content = [b] → 128 ≤ b.toNat →
      exec i s = .next { s with results := [.verdict .suspend], events := [] }) ∧
    (s.block.p.phase = .body → s.content ≠ [] → ∃ t, exec .pBody s = .next t ∧ t.results = [.verdict .progress])

/-- R155, R156, R157: each parser error is raised in its own phase exactly on its condition, by `P.STEP` and by the phase's
transition alike; its effect is the event, the phase back to `SYNC`, and no other parser register. Where
`BODY_CAP >= MAX_BODY` and R25 holds, `BodyBufferOverflow` is not raised. -/
def Obligations.ParserErrorsRaisedExactlyWhen : Prop :=
  ∀ (s : State) (b : Byte) (rest : List Byte), s.block.rb.Inv s.cfg → s.content = b :: rest →
    ∃ t, exec .pStep s = .next t ∧ exec (phaseInstr s.block.p.phase.code) s = .next t ∧
      (.error .headerChecksumMismatch ∈ t.events ↔
        s.block.p.phase = .headerChecksum ∧ b ≠ s.block.p.hdrCsum) ∧
      (.error .oversizedBody ∈ t.events ↔
        s.block.p.phase = .headerChecksum ∧ b = s.block.p.hdrCsum ∧
          s.cfg.maxBody.toNat < s.block.p.declSize.toNat) ∧
      (.error .bodyBufferOverflow ∈ t.events ↔
        s.block.p.phase = .body ∧ s.cfg.bodyCap < s.block.p.declSize.toNat) ∧
      (∀ kind, .error kind ∈ t.events →
        t.events = [.error kind] ∧ t.block.p = { s.block.p with phase := .sync }) ∧
      (s.cfg.wellFormed → s.block.p.BodyInv s.cfg → .error .bodyBufferOverflow ∉ t.events)
end

