-- ==== Sys2Proof/Laws/Memory.lean ====
section
/-! SUPPORT. Laws of the two memories: a read after a write, and the canonical form that every write keeps. -/

namespace Sys2Proof.Machine

@[simp] theorem Memory.lookup_nil (a : Nat) : Memory.lookup [] a = none := rfl

theorem Memory.lookup_insert (m : Memory) (a k : Nat) (b : Byte) :
    Memory.lookup (Memory.insert a b m) k = if a = k then some b else Memory.lookup m k := by
  induction m with
  | nil => rfl
  | cons c m ih =>
    obtain ⟨j, c⟩ := c
    simp only [Memory.insert]
    split
    · simp [Memory.lookup]
    · split
      · subst_vars
        simp only [Memory.lookup]
        split <;> rfl
      · simp only [Memory.lookup, ih]
        split <;> split <;> simp_all

/-- An address below every listed one is not listed. -/
theorem Memory.lookup_of_lt (m : Memory) (a : Nat) (h : ∀ c ∈ m, a < c.1) : Memory.lookup m a = none := by
  induction m with
  | nil => rfl
  | cons c m ih =>
    have ha : a < c.1 := h c (by simp)
    simp only [Memory.lookup, if_neg (Nat.ne_of_gt ha)]
    exact ih fun d hd => h d (by simp [hd])

theorem Memory.lookup_erase (m : Memory) (a k : Nat) (h : m.Pairwise (fun x y => x.1 < y.1)) :
    Memory.lookup (Memory.erase a m) k = if a = k then none else Memory.lookup m k := by
  induction m with
  | nil => simp [Memory.erase]
  | cons c m ih =>
    obtain ⟨j, c⟩ := c
    rw [List.pairwise_cons] at h
    simp only [Memory.erase]
    split
    · subst_vars
      split
      · subst_vars; exact Memory.lookup_of_lt m _ h.1
      · simp_all [Memory.lookup]
    · simp only [Memory.lookup, ih h.2]
      split <;> split <;> simp_all

theorem Memory.mem_insert (m : Memory) (a : Nat) (b : Byte) (c : Host.Cell) (h : c ∈ Memory.insert a b m) :
    c = (a, b) ∨ c ∈ m := by
  induction m with
  | nil => simpa [Memory.insert] using h
  | cons d m ih =>
    obtain ⟨j, d⟩ := d
    simp only [Memory.insert] at h
    split at h
    · simpa using h
    · split at h
      · rcases List.mem_cons.mp h with h | h
        · exact .inl h
        · exact .inr (by simp [h])
      · rcases List.mem_cons.mp h with h | h
        · exact .inr (by simp [h])
        · exact (ih h).imp_right fun h => by simp [h]

theorem Memory.mem_erase (m : Memory) (a : Nat) (c : Host.Cell) (h : c ∈ Memory.erase a m) : c ∈ m := by
  induction m with
  | nil => simp [Memory.erase] at h
  | cons d m ih =>
    obtain ⟨j, d⟩ := d
    simp only [Memory.erase] at h
    split at h
    · simp [h]
    · rcases List.mem_cons.mp h with h | h
      · simp [h]
      · simp [ih h]

theorem Memory.pairwise_insert (m : Memory) (a : Nat) (b : Byte) (h : m.Pairwise (fun x y => x.1 < y.1)) :
    (Memory.insert a b m).Pairwise (fun x y => x.1 < y.1) := by
  induction m with
  | nil => simp [Memory.insert]
  | cons d m ih =>
    obtain ⟨j, d⟩ := d
    have h' := List.pairwise_cons.mp h
    simp only [Memory.insert]
    split
    · rename_i hlt
      refine List.pairwise_cons.mpr ⟨fun c hc => ?_, h⟩
      rcases List.mem_cons.mp hc with rfl | hc
      · exact hlt
      · exact Nat.lt_trans hlt (h'.1 c hc)
    · split
      · subst_vars; exact List.pairwise_cons.mpr ⟨h'.1, h'.2⟩
      · refine List.pairwise_cons.mpr ⟨fun c hc => ?_, ih h'.2⟩
        rcases Memory.mem_insert m a b c hc with rfl | hc
        · simp only; omega
        · exact h'.1 c hc

theorem Memory.pairwise_erase (m : Memory) (a : Nat) (h : m.Pairwise (fun x y => x.1 < y.1)) :
    (Memory.erase a m).Pairwise (fun x y => x.1 < y.1) := by
  induction m with
  | nil => simp [Memory.erase]
  | cons d m ih =>
    obtain ⟨j, d⟩ := d
    have h' := List.pairwise_cons.mp h
    simp only [Memory.erase]
    split
    · exact h'.2
    · exact List.pairwise_cons.mpr ⟨fun c hc => h'.1 c (Memory.mem_erase m a c hc), ih h'.2⟩

/-- A read after a write: the byte written at its address, every other address as before. -/
theorem Memory.read_write (sp : Space) (m : Memory) (a k : Nat) (b : Byte)
    (h : m.Pairwise (fun x y => x.1 < y.1)) :
    Memory.read sp (Memory.write sp m a b) k = if a = k then b else Memory.read sp m k := by
  by_cases hb : sp.unlisted = some b <;> by_cases ha : a = k
  · subst ha
    simp [Memory.write, hb, Memory.read, Memory.lookup_erase m a a h]
  · simp [Memory.write, hb, Memory.read, Memory.lookup_erase m a k h, ha]
  · simp [Memory.write, hb, Memory.read, Memory.lookup_insert, ha]
  · simp [Memory.write, hb, Memory.read, Memory.lookup_insert, ha]

theorem Memory.lookup_head (k : Nat) (b : Byte) (m : Memory) : Memory.lookup ((k, b) :: m) k = some b := by
  simp [Memory.lookup]

/-- Strictly rising memories that list the same bytes are the same data. -/
theorem Memory.ext_lookup (m m' : Memory) (h : m.Pairwise (fun x y => x.1 < y.1))
    (h' : m'.Pairwise (fun x y => x.1 < y.1)) (hl : ∀ a, Memory.lookup m a = Memory.lookup m' a) : m = m' := by
  induction m generalizing m' with
  | nil =>
    cases m' with
    | nil => rfl
    | cons c m' => have := hl c.1; simp [Memory.lookup] at this
  | cons c m ih =>
    obtain ⟨k, b⟩ := c
    rw [List.pairwise_cons] at h
    cases m' with
    | nil => have := hl k; simp [Memory.lookup] at this
    | cons c' m' =>
      obtain ⟨k', b'⟩ := c'
      rw [List.pairwise_cons] at h'
      have hk : k = k' := by
        rcases Nat.lt_trichotomy k k' with hlt | heq | hlt
        · have := hl k
          rw [Memory.lookup_head, Memory.lookup_of_lt] at this
          · cases this
          · intro c hc
            rcases List.mem_cons.mp hc with rfl | hc
            · exact hlt
            · exact Nat.lt_trans hlt (h'.1 c hc)
        · exact heq
        · have := hl k'
          rw [Memory.lookup_head, Memory.lookup_of_lt] at this
          · cases this
          · intro c hc
            rcases List.mem_cons.mp hc with rfl | hc
            · exact hlt
            · exact Nat.lt_trans hlt (h.1 c hc)
      subst hk
      have hb : b = b' := by have := hl k; simpa [Memory.lookup] using this
      subst hb
      congr 1
      refine ih m' h.2 h'.2 fun a => ?_
      by_cases ha : k = a
      · subst ha
        rw [Memory.lookup_of_lt m _ h.1, Memory.lookup_of_lt m' _ h'.1]
      · have := hl a
        simpa [Memory.lookup, ha] using this

/-- Every write keeps the canonical form. -/
theorem Memory.wf_write (sp : Space) (size : Nat) (m : Memory) (a : Nat) (b : Byte) (h : Memory.wf sp size m)
    (ha : a < size) : Memory.wf sp size (Memory.write sp m a b) := by
  unfold Memory.write
  split
  · exact ⟨Memory.pairwise_erase m a h.1, fun c hc => h.2 c (Memory.mem_erase m a c hc)⟩
  · rename_i hb
    refine ⟨Memory.pairwise_insert m a b h.1, fun c hc => ?_⟩
    rcases Memory.mem_insert m a b c hc with rfl | hc
    · exact ⟨ha, hb⟩
    · exact h.2 c hc

/-- A canonical ring storage is determined by what it reads as. -/
theorem Memory.ext_read (size : Nat) (m m' : Memory) (h : Memory.wf .rb size m) (h' : Memory.wf .rb size m')
    (hr : ∀ a, Memory.read .rb m a = Memory.read .rb m' a) : m = m' := by
  have listed : ∀ (m : Memory) (a : Nat) (b : Byte), Memory.lookup m a = some b → (a, b) ∈ m := by
    intro m a b
    induction m with
    | nil => simp
    | cons c m ih =>
      obtain ⟨k, c⟩ := c
      simp only [Memory.lookup]
      split
      · rintro ⟨⟩; subst_vars; simp
      · intro hb; simp [ih hb]
  refine Memory.ext_lookup m m' h.1 h'.1 fun a => ?_
  have hra := hr a
  simp only [Memory.read, Space.unlisted] at hra
  cases hm : Memory.lookup m a with
  | none =>
    cases hm' : Memory.lookup m' a with
    | none => rfl
    | some b' => simp only [hm, hm'] at hra; exact absurd (congrArg some hra) (h'.2 _ (listed m' a b' hm')).2
  | some b =>
    cases hm' : Memory.lookup m' a with
    | none => simp only [hm, hm'] at hra; exact absurd (congrArg some hra.symm) (h.2 _ (listed m a b hm)).2
    | some b' => simp only [hm, hm'] at hra; rw [hra]

/-- A run of writes into the ring storage keeps the canonical form. -/
theorem writeRun_wf (cfg : Config) (bs : List Byte) (m : Memory) (t : Nat) (h : Memory.wf .rb cfg.C m) :
    Memory.wf .rb cfg.C (writeRun cfg bs m t) := by
  induction bs generalizing m t with
  | nil => exact h
  | cons b bs ih =>
    exact ih _ _ (Memory.wf_write .rb cfg.C m _ b h (Nat.mod_lt _ (Nat.lt_of_lt_of_le (by decide) cfg.two_le)))

/-- The memories of the reset state are canonical. -/
theorem reset_memories_wf (cfg : Config) :
    Memory.wf .rb cfg.C (State.resetWith cfg).block.rb.store ∧
      Memory.wf .acc cfg.bodyCap (State.resetWith cfg).block.p.bodyAcc := by
  simp [State.resetWith, RingBuffer.reset, Parser.reset, Memory.wf]

/-- The accumulator without a meaning is canonical. -/
theorem deadAcc_wf (size n : Nat) : Memory.wf .acc size (deadAcc size n) := by
  refine ⟨?_, ?_⟩
  · rw [deadAcc, List.pairwise_map]
    exact List.pairwise_lt_range
  · intro c hc
    obtain ⟨a, ha, rfl⟩ := List.mem_map.mp hc
    exact ⟨List.mem_range.mp ha, by simp [Space.unlisted]⟩

end Sys2Proof.Machine
end

