-- ==== Sys2Proof/Laws/State.lean ====
section
/-! SUPPORT. One lemma per field per update of the state, so that no later proof unfolds a record update. -/

namespace Sys2Proof.Machine

@[simp] theorem State.finish_cfg (s : State) (b : Block) (rs : List Result) (es : List Event) :
    (s.finish b rs es).cfg = s.cfg := rfl
@[simp] theorem State.finish_block (s : State) (b : Block) (rs : List Result) (es : List Event) :
    (s.finish b rs es).block = b := rfl
@[simp] theorem State.finish_port (s : State) (b : Block) (rs : List Result) (es : List Event) :
    (s.finish b rs es).port = s.port := rfl
@[simp] theorem State.finish_results (s : State) (b : Block) (rs : List Result) (es : List Event) :
    (s.finish b rs es).results = rs := rfl
@[simp] theorem State.finish_events (s : State) (b : Block) (rs : List Result) (es : List Event) :
    (s.finish b rs es).events = es := rfl
@[simp] theorem State.finish_freeIndex (s : State) (b : Block) (rs : List Result) (es : List Event) :
    (s.finish b rs es).freeIndex = s.freeIndex := rfl

@[simp] theorem State.fail_cfg (s : State) (f : Failure) : (s.fail f).cfg = s.cfg := rfl
@[simp] theorem State.fail_block (s : State) (f : Failure) : (s.fail f).block = s.block := rfl
@[simp] theorem State.fail_port (s : State) (f : Failure) : (s.fail f).port = s.port := rfl
@[simp] theorem State.fail_results (s : State) (f : Failure) : (s.fail f).results = [.failed f] := rfl
@[simp] theorem State.fail_events (s : State) (f : Failure) : (s.fail f).events = [] := rfl
@[simp] theorem State.fail_freeIndex (s : State) (f : Failure) : (s.fail f).freeIndex = s.freeIndex := rfl

@[simp] theorem State.finishTransition_cfg (s : State) (t : Transition) : (s.finishTransition t).cfg = s.cfg := rfl
@[simp] theorem State.finishTransition_block (s : State) (t : Transition) :
    (s.finishTransition t).block = t.block := rfl
@[simp] theorem State.finishTransition_port (s : State) (t : Transition) :
    (s.finishTransition t).port = s.port := rfl
@[simp] theorem State.finishTransition_results (s : State) (t : Transition) :
    (s.finishTransition t).results = [.verdict t.verdict] := rfl
@[simp] theorem State.finishTransition_events (s : State) (t : Transition) :
    (s.finishTransition t).events = t.event.toList := rfl
@[simp] theorem State.finishTransition_freeIndex (s : State) (t : Transition) :
    (s.finishTransition t).freeIndex = s.freeIndex := rfl

@[simp] theorem State.advance_cfg (s : State) (rest : List Byte) : (s.advance rest).cfg = s.cfg := rfl
@[simp] theorem State.advance_block (s : State) (rest : List Byte) : (s.advance rest).block = s.block := rfl
@[simp] theorem State.advance_port (s : State) (rest : List Byte) : (s.advance rest).port = rest := rfl
@[simp] theorem State.advance_results (s : State) (rest : List Byte) : (s.advance rest).results = s.results := rfl
@[simp] theorem State.advance_events (s : State) (rest : List Byte) : (s.advance rest).events = s.events := rfl
@[simp] theorem State.advance_freeIndex (s : State) (rest : List Byte) : (s.advance rest).freeIndex = s.freeIndex := rfl

@[simp] theorem State.ignore_cfg (s : State) (rest : List Byte) : (s.ignore rest).cfg = s.cfg := rfl
@[simp] theorem State.ignore_block (s : State) (rest : List Byte) : (s.ignore rest).block = s.block := rfl
@[simp] theorem State.ignore_port (s : State) (rest : List Byte) : (s.ignore rest).port = rest := rfl
@[simp] theorem State.ignore_results (s : State) (rest : List Byte) : (s.ignore rest).results = [] := rfl
@[simp] theorem State.ignore_events (s : State) (rest : List Byte) : (s.ignore rest).events = [] := rfl
@[simp] theorem State.ignore_freeIndex (s : State) (rest : List Byte) : (s.ignore rest).freeIndex = s.freeIndex := rfl

@[simp] theorem State.forgetDeadBody_cfg (s : State) : s.forgetDeadBody.cfg = s.cfg := by
  unfold State.forgetDeadBody; split <;> rfl
@[simp] theorem State.forgetDeadBody_rb (s : State) : s.forgetDeadBody.block.rb = s.block.rb := by
  unfold State.forgetDeadBody; split <;> rfl
@[simp] theorem State.forgetDeadBody_port (s : State) : s.forgetDeadBody.port = s.port := by
  unfold State.forgetDeadBody; split <;> rfl

@[simp] theorem Block.suspend_block (b : Block) : b.suspend.block = b := rfl
@[simp] theorem Block.suspend_verdict (b : Block) : b.suspend.verdict = .suspend := rfl
@[simp] theorem Block.suspend_event (b : Block) : b.suspend.event = none := rfl
@[simp] theorem Block.progress_block (b : Block) : b.progress.block = b := rfl
@[simp] theorem Block.progress_verdict (b : Block) : b.progress.verdict = .progress := rfl
@[simp] theorem Block.progress_event (b : Block) : b.progress.event = none := rfl
@[simp] theorem Block.raiseError_block (b : Block) (k : ErrorKind) :
    (b.raiseError k).block = { b with p := { b.p with phase := .sync } } := rfl
@[simp] theorem Block.raiseError_verdict (b : Block) (k : ErrorKind) : (b.raiseError k).verdict = .progress := rfl
@[simp] theorem Block.raiseError_event (b : Block) (k : ErrorKind) : (b.raiseError k).event = some (.error k) := rfl
@[simp] theorem Block.emitPacket_block (b : Block) (n : Field) (body : List Byte) :
    (b.emitPacket n body).block = { b with p := { b.p with phase := .sync } } := rfl
@[simp] theorem Block.emitPacket_verdict (b : Block) (n : Field) (body : List Byte) :
    (b.emitPacket n body).verdict = .progress := rfl
@[simp] theorem Block.emitPacket_event (b : Block) (n : Field) (body : List Byte) :
    (b.emitPacket n body).event = some (.packet b.p.declType n body) := rfl

end Sys2Proof.Machine
end

