-- ==== Sys2Proof/Laws/Ops.lean ====
section
/-! SUPPORT. For each shared operation, once, everything it can answer: callers cite these instead of unfolding. -/

namespace Sys2Proof.Machine

/-! ## Ring buffer -/

theorem RingBuffer.append_cases (cfg : Config) (rb : RingBuffer) (data : List Byte) :
    (cfg.C - rb.size < data.length ∧ rb.append cfg data = .error .capacityExceeded) ∨
      (data.length ≤ cfg.C - rb.size ∧ rb.append cfg data = .ok { rb with
        store := writeRun cfg data rb.store rb.tail
        tail := (rb.tail + data.length) % cfg.C
        size := rb.size + data.length }) := by
  unfold RingBuffer.append
  split
  · exact .inl ⟨by assumption, rfl⟩
  · exact .inr ⟨by omega, rfl⟩

theorem RingBuffer.deq_cases (cfg : Config) (rb : RingBuffer) :
    (rb.size = 0 ∧ rb.deq cfg = .error .empty) ∨
      (rb.size ≠ 0 ∧ rb.deq cfg = .ok (rb.byteAt cfg 0,
        { rb with head := (rb.head + 1) % cfg.C, size := rb.size - 1 })) := by
  unfold RingBuffer.deq
  split
  · exact .inl ⟨by assumption, rfl⟩
  · exact .inr ⟨by assumption, rfl⟩

theorem RingBuffer.peek_cases (cfg : Config) (rb : RingBuffer) (index : Nat) :
    (rb.size ≤ index ∧ rb.peek cfg index = .error .outOfRange) ∨
      (index < rb.size ∧ rb.peek cfg index = .ok (rb.byteAt cfg index)) := by
  unfold RingBuffer.peek
  split
  · exact .inl ⟨by assumption, rfl⟩
  · exact .inr ⟨by omega, rfl⟩

theorem RingBuffer.undeq_cases (cfg : Config) (rb : RingBuffer) (b : Byte) :
    (rb.size = cfg.C ∧ rb.undeq cfg b = .error .capacityExceeded) ∨
      (rb.size ≠ cfg.C ∧ rb.undeq cfg b = .ok { rb with
        store := Memory.write .rb rb.store (prevIndex cfg rb.head) b
        head := prevIndex cfg rb.head
        size := rb.size + 1 }) := by
  unfold RingBuffer.undeq
  split
  · exact .inl ⟨by assumption, rfl⟩
  · exact .inr ⟨by assumption, rfl⟩

/-- Going back one index from the next one is where one was (R88). -/
theorem prevIndex_next (cfg : Config) (head : Nat) (h : head < cfg.C) : prevIndex cfg ((head + 1) % cfg.C) = head := by
  have hC := cfg.two_le
  unfold prevIndex
  rcases Nat.lt_or_ge (head + 1) cfg.C with hlt | hge
  · rw [Nat.mod_eq_of_lt hlt, show head + 1 + cfg.C - 1 = head + cfg.C by omega, Nat.add_mod_right,
      Nat.mod_eq_of_lt h]
  · have heq : head + 1 = cfg.C := by omega
    rw [heq, Nat.mod_self, Nat.zero_add, Nat.mod_eq_of_lt (by omega)]
    omega

theorem prevIndex_lt (cfg : Config) (head : Nat) : prevIndex cfg head < cfg.C :=
  Nat.mod_lt _ (Nat.lt_of_lt_of_le (by decide) cfg.two_le)

/-! ## Transitions -/

theorem syncTransition_cases (cfg : Config) (blk : Block) :
    (blk.rb.size = 0 ∧ syncTransition cfg blk = blk.suspend) ∨
      (blk.rb.size ≠ 0 ∧ syncTransition cfg blk = Block.progress
        { rb := { blk.rb with head := (blk.rb.head + 1) % cfg.C, size := blk.rb.size - 1 }
          p := blk.p.matchMarker cfg (blk.rb.byteAt cfg 0) }) := by
  unfold syncTransition
  rcases blk.rb.peek_cases cfg 0 with ⟨h, hp⟩ | ⟨h, hp⟩
  · exact .inl ⟨by omega, by rw [hp]⟩
  · rcases blk.rb.deq_cases cfg with ⟨h', hd⟩ | ⟨h', hd⟩
    · omega
    · exact .inr ⟨h', by rw [hp, hd]⟩

theorem Parser.matchMarker_cases (cfg : Config) (p : Parser) (b : Byte) :
    (b = markerByte cfg p.syncCursor ∧ p.syncCursor = 2 ∧ p.matchMarker cfg b = { p with
        syncCursor := 0, hdrCsum := 0#8, declSize := 0#15, declType := 0#15, phase := .headerSize }) ∨
      (b = markerByte cfg p.syncCursor ∧ p.syncCursor ≠ 2 ∧
        p.matchMarker cfg b = { p with syncCursor := p.syncCursor + 1 }) ∨
      (b ≠ markerByte cfg p.syncCursor ∧ p.matchMarker cfg b = { p with syncCursor := 0 }) := by
  unfold Parser.matchMarker
  split
  · split
    · exact .inl ⟨by assumption, by assumption, rfl⟩
    · exact .inr (.inl ⟨by assumption, by assumption, rfl⟩)
  · exact .inr (.inr ⟨by assumption, rfl⟩)

theorem judgeSize_cases (cfg : Config) (blk : Block) :
    (cfg.maxBody.toNat < blk.p.declSize.toNat ∧ judgeSize cfg blk = blk.raiseError .oversizedBody) ∨
      (blk.p.declSize.toNat ≤ cfg.maxBody.toNat ∧ blk.p.declSize = 0#15 ∧
        judgeSize cfg blk = blk.emitPacket 0#15 []) ∨
      (blk.p.declSize.toNat ≤ cfg.maxBody.toNat ∧ blk.p.declSize ≠ 0#15 ∧
        judgeSize cfg blk = Block.progress { blk with p := { blk.p with bodyCount := 0, phase := .body } }) := by
  unfold judgeSize
  split
  · exact .inl ⟨by assumption, rfl⟩
  · split
    · exact .inr (.inl ⟨by omega, by assumption, rfl⟩)
    · exact .inr (.inr ⟨by omega, by assumption, rfl⟩)

theorem checksumTransition_cases (cfg : Config) (blk : Block) :
    (blk.rb.size = 0 ∧ checksumTransition cfg blk = blk.suspend) ∨
      (blk.rb.size ≠ 0 ∧ ∃ rb', rb' = { blk.rb with head := (blk.rb.head + 1) % cfg.C, size := blk.rb.size - 1 } ∧
        ((blk.rb.byteAt cfg 0 = blk.p.hdrCsum ∧ checksumTransition cfg blk = judgeSize cfg { blk with rb := rb' }) ∨
          (blk.rb.byteAt cfg 0 ≠ blk.p.hdrCsum ∧
            checksumTransition cfg blk = Block.raiseError { blk with rb := rb' } .headerChecksumMismatch))) := by
  unfold checksumTransition
  rcases blk.rb.deq_cases cfg with ⟨h, hd⟩ | ⟨h, hd⟩
  · exact .inl ⟨h, by rw [hd]⟩
  · refine .inr ⟨h, _, rfl, ?_⟩
    rw [hd]
    by_cases hb : blk.rb.byteAt cfg 0 = blk.p.hdrCsum
    · exact .inl ⟨hb, by simp [hb]⟩
    · exact .inr ⟨hb, by simp [hb]⟩

theorem bodyTransition_cases (cfg : Config) (limit : Nat) (blk : Block) :
    (blk.rb.size = 0 ∧ bodyTransition cfg limit blk = blk.suspend) ∨
      (blk.rb.size ≠ 0 ∧ cfg.bodyCap < blk.p.declSize.toNat ∧
        bodyTransition cfg limit blk = blk.raiseError .bodyBufferOverflow) ∨
      (blk.rb.size ≠ 0 ∧ blk.p.declSize.toNat ≤ cfg.bodyCap ∧ bodyTransition cfg limit blk =
        takeBody cfg blk (min (min blk.rb.size limit) (bodyRemainder cfg blk.p))) := by
  unfold bodyTransition
  split
  · exact .inl ⟨by assumption, rfl⟩
  · split
    · exact .inr (.inl ⟨by assumption, by assumption, rfl⟩)
    · exact .inr (.inr ⟨by assumption, by omega, rfl⟩)

/-- What `P.BODY` finds: nothing changed in phase `BODY`, on an empty ring buffer and above `BODY_CAP`; else an accumulator
of free bytes, and the next use numbered. -/
theorem State.forgetDeadBody_cases (s : State) :
    ((s.block.p.phase = .body ∨ s.block.rb.size = 0 ∨ s.cfg.bodyCap < s.block.p.declSize.toNat) ∧
        s.forgetDeadBody = s) ∨
      (s.block.p.phase ≠ .body ∧ s.forgetDeadBody = { s with
        block := { s.block with p := { s.block.p with bodyAcc := deadAcc s.cfg.bodyCap s.freeIndex } }
        freeIndex := s.freeIndex + 1 }) := by
  unfold State.forgetDeadBody
  split
  · next h => exact .inr ⟨h.1, rfl⟩
  · next h =>
    refine .inl ⟨?_, rfl⟩
    by_cases hp : s.block.p.phase = .body
    · exact .inl hp
    · by_cases hr : s.block.rb.size = 0
      · exact .inr (.inl hr)
      · exact .inr (.inr (Nat.lt_of_not_le fun hd => h ⟨hp, hr, hd⟩))

/-- A size or type transition hands on what the field decoder answers. -/
theorem sizeTransition_cases (cfg : Config) (blk : Block) :
    (∃ rb' f, decodeField cfg blk.rb = (rb', .error f) ∧
        sizeTransition cfg blk = Block.suspend { blk with rb := rb' }) ∨
      (∃ rb' f, decodeField cfg blk.rb = (rb', .ok f) ∧ sizeTransition cfg blk =
        Block.progress { rb := rb', p := { blk.p with
          declSize := f.value, hdrCsum := accumulate blk.p.hdrCsum f.sum, phase := .headerType } }) := by
  unfold sizeTransition
  rcases h : decodeField cfg blk.rb with ⟨rb', f | f⟩
  · exact .inl ⟨rb', f, rfl, rfl⟩
  · exact .inr ⟨rb', f, rfl, rfl⟩

theorem typeTransition_cases (cfg : Config) (blk : Block) :
    (∃ rb' f, decodeField cfg blk.rb = (rb', .error f) ∧
        typeTransition cfg blk = Block.suspend { blk with rb := rb' }) ∨
      (∃ rb' f, decodeField cfg blk.rb = (rb', .ok f) ∧ typeTransition cfg blk =
        Block.progress { rb := rb', p := { blk.p with
          declType := f.value, hdrCsum := accumulate blk.p.hdrCsum f.sum, phase := .headerChecksum } }) := by
  unfold typeTransition
  rcases h : decodeField cfg blk.rb with ⟨rb', f | f⟩
  · exact .inl ⟨rb', f, rfl, rfl⟩
  · exact .inr ⟨rb', f, rfl, rfl⟩

/-! ## Field decoder -/

theorem decodeField_cases (cfg : Config) (rb : RingBuffer) :
    (rb.size = 0 ∧ decodeField cfg rb = (rb, .error .insufficientData)) ∨
      (rb.size ≠ 0 ∧ continues (rb.byteAt cfg 0) = false ∧ decodeField cfg rb =
        ({ rb with head := (rb.head + 1) % cfg.C, size := rb.size - 1 },
          .ok { value := fieldOne (rb.byteAt cfg 0), n := 1, sum := checksum [rb.byteAt cfg 0] })) ∨
      (rb.size = 1 ∧ continues (rb.byteAt cfg 0) = true ∧ decodeField cfg rb =
        (rollBack cfg { rb with head := (rb.head + 1) % cfg.C, size := rb.size - 1 } (rb.byteAt cfg 0),
          .error .insufficientData)) ∨
      (2 ≤ rb.size ∧ continues (rb.byteAt cfg 0) = true ∧ ∃ b1,
        b1 = Memory.read .rb rb.store (((rb.head + 1) % cfg.C + 0) % cfg.C) ∧ decodeField cfg rb =
        ({ rb with head := ((rb.head + 1) % cfg.C + 1) % cfg.C, size := rb.size - 1 - 1 },
          .ok { value := fieldTwo (rb.byteAt cfg 0) b1, n := 2, sum := checksum [rb.byteAt cfg 0, b1] })) := by
  unfold decodeField
  rcases rb.deq_cases cfg with ⟨h, hd⟩ | ⟨h, hd⟩
  · exact .inl ⟨h, by rw [hd]⟩
  · cases hc : continues (rb.byteAt cfg 0) with
    | false => exact .inr (.inl ⟨h, rfl, by simp [hd, hc]⟩)
    | true =>
      rcases RingBuffer.deq_cases cfg { rb with head := (rb.head + 1) % cfg.C, size := rb.size - 1 } with
        ⟨h', hd'⟩ | ⟨h', hd'⟩
      · exact .inr (.inr (.inl ⟨by simp only at h'; omega, rfl, by simp only [hd, hc, hd', if_true]⟩))
      · exact .inr (.inr (.inr ⟨by simp only at h'; omega, rfl, _, rfl, by
          simp only [hd, hc, hd', if_true]; rfl⟩))

/-! ## Wire elements -/

theorem handleElement_cases (i : Instr) (t : Transition) (s : State) :
    (frontElement s.cfg s.block = some i ∧ handleElement i t s = .next (s.finishTransition t)) ∨
      (frontElement s.cfg s.block ≠ some i ∧ awaits s.cfg s.block i = true ∧
        handleElement i t s = .next (s.finishTransition s.block.suspend)) ∨
      (frontElement s.cfg s.block ≠ some i ∧ awaits s.cfg s.block i = false ∧
        handleElement i t s = .refused .notTheFrontElement) := by
  unfold handleElement
  split
  · exact .inl ⟨by assumption, rfl⟩
  · split
    · exact .inr (.inl ⟨by assumption, by assumption, rfl⟩)
    · exact .inr (.inr ⟨by assumption, by simpa using ‹¬awaits s.cfg s.block i = true›, rfl⟩)

/-! ## Drive loop -/

/-- More fuel changes nothing once the loop has returned. -/
theorem driveLoop_mono (cfg : Config) (n m : Nat) (blk : Block) (r : Block × List Event)
    (h : driveLoop cfg n blk = some r) (hm : n ≤ m) : driveLoop cfg m blk = some r := by
  induction n generalizing m blk r with
  | zero =>
    simp only [driveLoop] at h
    split at h
    · cases m <;> simp_all [driveLoop]
    · cases h
  | succ n ih =>
    obtain ⟨m, rfl⟩ : ∃ k, m = k + 1 := ⟨m - 1, by omega⟩
    simp only [driveLoop] at h ⊢
    split
    · rwa [if_pos ‹_›] at h
    · rw [if_neg ‹_›] at h
      cases hv : (transition cfg blk).verdict with
      | suspend => rw [hv] at h; exact h
      | progress =>
        simp only [hv] at h ⊢
        cases hd : driveLoop cfg n (transition cfg blk).block with
        | none => rw [hd] at h; cases h
        | some q => rw [hd] at h; rw [ih m _ _ hd (by omega)]; exact h

end Sys2Proof.Machine
end

