-- ==== Sys2Proof/Laws/PerInstr.lean ====
section
/-! SUPPORT. Family CommandByte: every operation's command bytes begin with a byte that selects its format and carries its
row's number, so the format and row are read off the first byte alone. -/

namespace Sys2Proof.Laws.CommandByte

/-- The upper four bits of an operation's first byte: its row's format. -/
def formatOf : Instr → Nat
  | .reset => 0
  | .rbInit => 0
  | .rbAppend _ => 0
  | .rbDeq => 0
  | .rbPeek _ => 0
  | .rbUndeq _ => 0
  | .vlDec => 0
  | .pInit => 0
  | .pStep => 0
  | .drive => 0
  | .pSync => 1
  | .pHsize => 1
  | .pHtype => 1
  | .pHcsum => 1
  | .pBody => 1
  | .pIllegal5 => 1
  | .pIllegal67 _ => 1
  | .wSync0 _ => 2
  | .wSync1 _ => 2
  | .wSync2 _ => 2
  | .wSkip _ => 2
  | .wV1 _ => 2
  | .wV2 _ _ => 2
  | .wCsum _ => 2
  | .wBody _ => 2
  | .vlEnc _ => 3
  | .fbBuild _ _ _ => 3
  | .feed _ => 4
  | .feed1 _ => 4
  | .frame _ _ => 4
  | .enc _ => 4

/-- The first byte of the encoding is the command byte, and its upper four bits are the format. -/
def Statement (i : Instr) : Prop :=
  (encode i).head? = some (commandByte i) ∧ (commandByte i).toNat / 16 = formatOf i

theorem reset : Statement .reset := by simp [Statement, encode, commandByte, formatOf]
theorem rbInit : Statement .rbInit := by simp [Statement, encode, commandByte, formatOf]
theorem rbAppend (data : List Byte) : Statement (.rbAppend data) := by simp [Statement, encode, commandByte, formatOf]
theorem rbDeq : Statement .rbDeq := by simp [Statement, encode, commandByte, formatOf]
theorem rbPeek (index : Nat) : Statement (.rbPeek index) := by simp [Statement, encode, commandByte, formatOf]
theorem rbUndeq (b : Byte) : Statement (.rbUndeq b) := by simp [Statement, encode, commandByte, formatOf]
theorem vlDec : Statement .vlDec := by simp [Statement, encode, commandByte, formatOf]
theorem pInit : Statement .pInit := by simp [Statement, encode, commandByte, formatOf]
theorem pStep : Statement .pStep := by simp [Statement, encode, commandByte, formatOf]
theorem drive : Statement .drive := by simp [Statement, encode, commandByte, formatOf]
theorem pSync : Statement .pSync := by simp [Statement, encode, commandByte, formatOf]
theorem pHsize : Statement .pHsize := by simp [Statement, encode, commandByte, formatOf]
theorem pHtype : Statement .pHtype := by simp [Statement, encode, commandByte, formatOf]
theorem pHcsum : Statement .pHcsum := by simp [Statement, encode, commandByte, formatOf]
theorem pBody : Statement .pBody := by simp [Statement, encode, commandByte, formatOf]
theorem pIllegal5 : Statement .pIllegal5 := by simp [Statement, encode, commandByte, formatOf]
theorem pIllegal67 (low : BitVec 1) : Statement (.pIllegal67 low) :=
  ⟨rfl, by revert low; decide⟩
theorem wSync0 (s : Byte) : Statement (.wSync0 s) := by simp [Statement, encode, commandByte, formatOf]
theorem wSync1 (s : Byte) : Statement (.wSync1 s) := by simp [Statement, encode, commandByte, formatOf]
theorem wSync2 (s : Byte) : Statement (.wSync2 s) := by simp [Statement, encode, commandByte, formatOf]
theorem wSkip (x : Byte) : Statement (.wSkip x) := by simp [Statement, encode, commandByte, formatOf]
theorem wV1 (v : BitVec 7) : Statement (.wV1 v) := by simp [Statement, encode, commandByte, formatOf]
theorem wV2 (l : BitVec 7) (h : Byte) : Statement (.wV2 l h) := by simp [Statement, encode, commandByte, formatOf]
theorem wCsum (c : Byte) : Statement (.wCsum c) := by simp [Statement, encode, commandByte, formatOf]
theorem wBody (b : Byte) : Statement (.wBody b) := by simp [Statement, encode, commandByte, formatOf]
theorem vlEnc (v : Nat) : Statement (.vlEnc v) := by simp [Statement, encode, commandByte, formatOf]
theorem fbBuild (body : List Byte) (type size : Nat) : Statement (.fbBuild body type size) := by simp [Statement, encode, commandByte, formatOf]
theorem feed (data : List Byte) : Statement (.feed data) := by simp [Statement, encode, commandByte, formatOf]
theorem feed1 (data : List Byte) : Statement (.feed1 data) := by simp [Statement, encode, commandByte, formatOf]
theorem frame (type : Nat) (body : List Byte) : Statement (.frame type body) := by simp [Statement, encode, commandByte, formatOf]
theorem enc (v : Nat) : Statement (.enc v) := by simp [Statement, encode, commandByte, formatOf]

end Sys2Proof.Laws.CommandByte
end

