-- ==== Sys2Proof/Tests/Slice0.lean ====
section
/-! SUPPORT. The model's own tests. Expected results are the vectors of 95_test_vectors.md and the examples of the rules,
named at each test; the configuration is `TCFG-A` unless said. The last part shows, for every statement with hypotheses,
a concrete state and operands that meet them. -/

namespace Sys2Proof.Tests

open Sys2Proof.Machine

/-! ## Building small states -/

/-- `TCFG-C` of 95_test_vectors.md: `BODY_CAP = 4 < MAX_BODY = 8`. -/
def tcfgC : Config := { Config.tcfgA with bodyCap := 4 }

/-- `TCFG-R`: `C = 8`. -/
def tcfgR : Config := { Config.tcfgA with C := 8, two_le := by decide }

/-- A marker with its first byte twice, A B A. -/
def tcfgD : Config := { Config.tcfgA with sync0 := 1#8, sync1 := 2#8, sync2 := 1#8 }

/-- A block that holds `content` from physical index `head` on, with parser registers `p`. -/
def stateOf (cfg : Config) (p : Parser) (head : Nat) (content : List Byte) : State :=
  { State.resetWith cfg with
    block :=
      { rb :=
          { store := writeRun cfg content [] head, head := head, tail := (head + content.length) % cfg.C
            size := content.length }
        p := p } }

/-- The ring buffer alone, parser at reset. -/
def ring (head : Nat) (content : List Byte) : State := stateOf tcfgR .reset head content

/-- Under `TCFG-A`, head 0. -/
def parsing (p : Parser) (content : List Byte) : State := stateOf Config.tcfgA p 0 content

/-- A parser in phase `SYNC` with a cursor. -/
def syncing (cursor : Fin 3) : Parser := { Parser.reset with syncCursor := cursor }

/-- A parser in a header phase. -/
def header (phase : Phase) (size type : Field) (sum : Byte) : Parser :=
  { Parser.reset with phase := phase, declSize := size, declType := type, hdrCsum := sum }

/-- A parser in phase `BODY`. -/
def inBody (size type : Field) (count : Nat) (acc : Memory) : Parser :=
  { Parser.reset with
    phase := .body, declSize := size, declType := type, hdrCsum := 9#8, bodyCount := count, bodyAcc := acc }

/-- The next state, where there is one. -/
def next? (o : Host.Outcome State Fault Refusal) : Option State :=
  match o with
  | .next t => some t
  | .fault _ => none
  | .refused _ => none

/-- The refusal, where there is one. -/
def refusal? (o : Host.Outcome State Fault Refusal) : Option Refusal :=
  match o with
  | .next _ => none
  | .fault _ => none
  | .refused r => some r

/-- The results of an operation. -/
def results (i : Instr) (s : State) : Option (List Result) := (next? (exec i s)).map State.results

/-- The events of an operation. -/
def events (i : Instr) (s : State) : Option (List Event) := (next? (exec i s)).map State.events

/-- The ring cursors and the content after an operation: head, tail, content. -/
def ringAfter (i : Instr) (s : State) : Option (Nat × Nat × List Byte) :=
  (next? (exec i s)).map fun t => (t.block.rb.head, t.block.rb.tail, t.content)

/-- The parser registers a test looks at. -/
structure Regs where
  phase : Phase
  cursor : Fin 3
  size : Field
  type : Field
  csum : Byte
  count : Nat
  deriving DecidableEq, Repr

/-- The parser registers after an operation. -/
def parserAfter (i : Instr) (s : State) : Option Regs :=
  (next? (exec i s)).map fun t => ⟨t.block.p.phase, t.block.p.syncCursor, t.block.p.declSize, t.block.p.declType,
    t.block.p.hdrCsum, t.block.p.bodyCount⟩

/-! ## Well-formedness: an ill-formed term for each check -/

/-- R104. -/
theorem test_wf_vlEnc_out_of_range : WellFormed (.vlEnc 32768) = false := by decide
/-- R104, R71. -/
theorem test_wf_enc_out_of_range : WellFormed (.enc 32768) = false := by decide
/-- R111 (a). -/
theorem test_wf_build_length : WellFormed (.fbBuild [1#8] 0 2) = false := by decide
/-- R111 (b), the type. -/
theorem test_wf_build_type : WellFormed (.fbBuild [] 32768 0) = false := by decide
/-- R111 (b), the size. -/
theorem test_wf_build_size : WellFormed (.fbBuild [] 0 32768) = false := by decide
/-- R111 (b), the type of a `FRAME`. -/
theorem test_wf_frame_type : WellFormed (.frame 32768 []) = false := by decide
/-- Both at the boundary. -/
theorem test_wf_boundary : WellFormed (.vlEnc 32767) = true ∧ WellFormed (.frame 32767 []) = true := by decide

/-! ## Decoding words written out from the encodings of the spec -/

/-- R70: the ten op codes in the low four bits. -/
theorem test_decode_op4 :
    decode [0b00000000#8] = .instr .reset [] ∧ decode [0b00000001#8] = .instr .rbInit [] ∧
    decode [0b00000010#8, 1#8, 0xAA#8, 0#8] = .instr (.rbAppend [0xAA#8]) [] ∧
    decode [0b00000011#8] = .instr .rbDeq [] ∧ decode [0b00000100#8, 1#8, 7#8, 0#8] = .instr (.rbPeek 7) [] ∧
    decode [0b00000101#8, 0x82#8] = .instr (.rbUndeq 0x82#8) [] ∧ decode [0b00000110#8] = .instr .vlDec [] ∧
    decode [0b00000111#8] = .instr .pInit [] ∧ decode [0b00001000#8] = .instr .pStep [] ∧
    decode [0b00001001#8] = .instr .drive [] := by decide
/-- R70: 10 to 15 are ignored. -/
theorem test_decode_unassigned :
    decode [0b00001010#8, 9#8] = .ignored [9#8] ∧ decode [0b00001111#8] = .ignored [] := by decide
/-- R17, R129: the 3-bit phase codes. -/
theorem test_decode_phase :
    phaseInstr 0b000#3 = .pSync ∧ phaseInstr 0b001#3 = .pHsize ∧ phaseInstr 0b010#3 = .pHtype ∧
    phaseInstr 0b011#3 = .pHcsum ∧ phaseInstr 0b100#3 = .pBody ∧ phaseInstr 0b101#3 = .pIllegal5 ∧
    phaseInstr 0b110#3 = .pIllegal67 0#1 ∧ phaseInstr 0b111#3 = .pIllegal67 1#1 ∧
    decode [0b00010111#8] = .instr (.pIllegal67 1#1) [] := by decide
/-- R62, R63: `0vvvvvvv` and `1lllllll hhhhhhhh`; `AC 02` is 300 (R104). -/
theorem test_decode_wire :
    decode [0x24#8, 0b01111111#8] = .instr (.wV1 127#7) [] ∧
    decode [0x25#8, 0b10101100#8, 0b00000010#8] = .instr (.wV2 0x2C#7 2#8) [] ∧
    decode [0x25#8, 0b01111111#8, 0#8] = .reject (.notV2 0x7F#8) ∧
    decode [0x20#8, 0xAA#8] = .instr (.wSync0 0xAA#8) [] ∧ decode [0x23#8, 0x00#8] = .instr (.wSkip 0#8) [] ∧
    decode [0x26#8, 0x09#8] = .instr (.wCsum 9#8) [] ∧ decode [0x27#8, 0x10#8] = .instr (.wBody 0x10#8) [] := by
  decide
/-- The formats without an encoding in the spec (log 2), and the rejects. -/
theorem test_decode_ref_pseudo_reject :
    decode [0x31#8, 1#8, 9#8, 0#8, 1#8, 5#8, 0#8, 1#8, 1#8, 0#8] = .instr (.fbBuild [9#8] 5 1) [] ∧
    decode [0x40#8, 1#8, 9#8, 0#8, 7#8] = .instr (.feed [9#8]) [7#8] ∧
    decode [0x42#8, 1#8, 5#8, 0#8, 1#8, 9#8, 0#8] = .instr (.frame 5 [9#8]) [] ∧
    decode [0x50#8] = .reject (.unassigned 0x50#8) ∧ decode [0x02#8, 1#8] = .reject .truncated ∧
    decode [0x02#8, 2#8] = .reject (.badFlag 2#8) := by decide
/-- The table's words: `RB.PEEK`, `W.V2` of 130 = `82 01`, a phase code, a row without bits. -/
theorem test_table_words :
    decodeTableWord 8 4 = some (.rbPeek 0) ∧ decodeTableWord 16 0x8201 = some (.wV2 2#7 1#8) ∧
    decodeTableWord 3 4 = some .pBody ∧ decodeTableWord 0 0 = none ∧ decodeTableWord 8 12 = none := by decide
/-- A placed table word runs as the first operation after reset, and leaves nothing at the port. -/
theorem test_step_from_reset :
    (next? (step (State.reset.withFetchWord 8 2))).map (fun t => (t.results, t.port)) = some ([.ok], []) ∧
    (next? (step (State.reset.withFetchWord 8 6))).map (fun t => (t.results, t.port))
      = some ([.failed .insufficientData], []) ∧
    next? (step State.reset) = some State.reset := by decide

/-! ## Operations on the whole block -/

/-- R180, its example. -/
theorem test_reset_mid_frame :
    next? (exec .reset (parsing (inBody 4#15 0#15 2 []) [1#8, 2#8, 3#8])) = some (State.resetWith Config.tcfgA) := by
  decide
/-- R120, its example. -/
theorem test_pInit : parserAfter .pInit (parsing (inBody 4#15 0#15 2 []) [1#8])
    = some ⟨.sync, 0, 0#15, 0#15, 0#8, 0⟩ := by decide
/-- V7.8: `RB.INIT` in mid-frame does not reset the parser. -/
theorem test_rbInit_keeps_parser :
    parserAfter .rbInit (parsing (inBody 4#15 5#15 2 []) [1#8]) = some ⟨.body, 0, 4#15, 5#15, 9#8, 2⟩ ∧
    ringAfter .rbInit (ring 5 [1#8, 2#8, 3#8, 4#8]) = some (0, 0, []) := by decide
/-- V5.3. -/
theorem test_drive_empty_body :
    events .drive (parsing (syncing 0) [0xAA#8, 0x55#8, 0xC3#8, 0x00#8, 0x07#8, 0x07#8])
      = some [.packet 7#15 0#15 []] ∧
    parserAfter .drive (parsing (syncing 0) [0xAA#8, 0x55#8, 0xC3#8, 0x00#8, 0x07#8, 0x07#8])
      = some ⟨.sync, 0, 0#15, 7#15, 7#8, 0⟩ := by decide
/-- P2: the half-received type field stays buffered. -/
theorem test_drive_suspends :
    ringAfter .drive (stateOf Config.tcfgA (header .headerType 2#15 0#15 2#8) 4 [0x82#8]) = some (4, 5, [0x82#8]) ∧
    parserAfter .drive (stateOf Config.tcfgA (header .headerType 2#15 0#15 2#8) 4 [0x82#8])
      = some ⟨.headerType, 0, 2#15, 0#15, 2#8, 0⟩ := by decide

/-! ## Ring buffer (95_test_vectors.md section 2, `C = 8`) -/

/-- R81, its example: the chunk runs past physical index 7. -/
theorem test_append_wraps :
    ringAfter (.rbAppend [0x11#8, 0x22#8, 0x33#8]) (ring 6 []) = some (6, 1, [0x11#8, 0x22#8, 0x33#8]) ∧
    (next? (exec (.rbAppend [0x11#8, 0x22#8, 0x33#8]) (ring 6 []))).map (fun t => t.block.rb.store)
      = some [(0, 0x33#8), (6, 0x11#8), (7, 0x22#8)] := by decide
/-- Section 2: 4 > 8 - 5; and the empty chunk on a full buffer (R82). -/
theorem test_append_refused :
    results (.rbAppend [6#8, 7#8, 8#8, 9#8]) (ring 0 [1#8, 2#8, 3#8, 4#8, 5#8])
      = some [.failed .capacityExceeded] ∧
    results (.rbAppend []) (ring 3 [1#8, 2#8, 3#8, 4#8, 5#8, 6#8, 7#8, 8#8]) = some [.ok] := by decide
/-- R83, its example. -/
theorem test_deq_wraps : results .rbDeq (ring 7 [0x22#8, 0x33#8]) = some [.okByte 0x22#8] ∧
    ringAfter .rbDeq (ring 7 [0x22#8, 0x33#8]) = some (0, 1, [0x33#8]) := by decide
/-- Section 2. -/
theorem test_deq_empty : results .rbDeq (ring 3 []) = some [.failed .empty] := by decide
/-- R84, its example. -/
theorem test_peek :
    results (.rbPeek 0) (ring 7 [0x22#8, 0x33#8]) = some [.okByte 0x22#8] ∧
    results (.rbPeek 1) (ring 7 [0x22#8, 0x33#8]) = some [.okByte 0x33#8] ∧
    results (.rbPeek 2) (ring 7 [0x22#8, 0x33#8]) = some [.failed .outOfRange] := by decide
/-- Section 2: head 0 goes to `C - 1`. -/
theorem test_undeq_wraps : ringAfter (.rbUndeq 0x77#8) (ring 0 []) = some (7, 0, [0x77#8]) := by decide
/-- Section 2: full. -/
theorem test_undeq_full : results (.rbUndeq 0xFF#8) (ring 0 [1#8, 2#8, 3#8, 4#8, 5#8, 6#8, 7#8, 8#8])
    = some [.failed .capacityExceeded] := by decide

/-! ## Field decoder (95_test_vectors.md section 3, head 6, `C = 8`) -/

theorem test_vlDec_two_bytes :
    results .vlDec (ring 6 [0xFF#8, 0x01#8]) = some [.okField 255#15 2 0x00#8] ∧
    results .vlDec (ring 6 [0x80#8, 0x80#8]) = some [.okField 16384#15 2 0x00#8] ∧
    ringAfter .vlDec (ring 6 [0x80#8, 0xFF#8, 0x80#8]) = some (0, 1, [0x80#8]) := by decide
theorem test_vlDec_rolls_back :
    results .vlDec (ring 6 [0x80#8]) = some [.failed .insufficientData] ∧
    ringAfter .vlDec (ring 6 [0x80#8]) = some (6, 7, [0x80#8]) := by decide

/-! ## Transitions (95_test_vectors.md V5.9) -/

theorem test_pSync_match : parserAfter .pSync (parsing (syncing 1) [0x55#8, 0xC3#8])
    = some ⟨.sync, 2, 0#15, 0#15, 0#8, 0⟩ := by decide
/-- The `AA` is discarded, not kept as a new start. -/
theorem test_pSync_discards : parserAfter .pSync (parsing (syncing 1) [0xAA#8, 0x55#8])
      = some ⟨.sync, 0, 0#15, 0#15, 0#8, 0⟩ ∧
    ringAfter .pSync (parsing (syncing 1) [0xAA#8, 0x55#8]) = some (1, 2, [0x55#8]) := by decide
theorem test_pHsize : parserAfter .pHsize (parsing (header .headerSize 0#15 0#15 0#8) [0xAC#8, 0x02#8, 0x01#8])
    = some ⟨.headerType, 0, 300#15, 0#15, 0xAE#8, 0⟩ := by decide
theorem test_pHsize_suspends : results .pHsize (parsing (header .headerSize 0#15 0#15 0#8) [0xAC#8])
    = some [.verdict .suspend] := by decide
theorem test_pHtype : parserAfter .pHtype (parsing (header .headerType 2#15 0#15 2#8) [0x82#8, 0x01#8, 0x85#8])
    = some ⟨.headerChecksum, 0, 2#15, 130#15, 0x85#8, 0⟩ := by decide
theorem test_pHcsum_accepts : parserAfter .pHcsum (parsing (header .headerChecksum 4#15 5#15 9#8) [0x09#8, 0x10#8])
    = some ⟨.body, 0, 4#15, 5#15, 9#8, 0⟩ := by decide
/-- V5.9, and V6.4: the checksum error wins over oversize. -/
theorem test_pHcsum_errors :
    events .pHcsum (parsing (header .headerChecksum 9#15 1#15 0x0A#8) [0x0A#8]) = some [.error .oversizedBody] ∧
    events .pHcsum (parsing (header .headerChecksum 9#15 1#15 0x0A#8) [0x0B#8])
      = some [.error .headerChecksumMismatch] := by decide
theorem test_pBody_completes :
    events .pBody (parsing (inBody 4#15 5#15 2 [(0, 0x10#8), (1, 0x20#8)]) [0x30#8, 0x40#8, 0xAA#8])
      = some [.packet 5#15 4#15 [0x10#8, 0x20#8, 0x30#8, 0x40#8]] ∧
    ringAfter .pBody (parsing (inBody 4#15 5#15 2 [(0, 0x10#8), (1, 0x20#8)]) [0x30#8, 0x40#8, 0xAA#8])
      = some (2, 3, [0xAA#8]) := by decide
/-- V6.5, `TCFG-C`: nothing is consumed. A body count past the size runs too, with a free value (log 8). -/
theorem test_pBody_overflow :
    (next? (exec .pBody (parsing { inBody 1#15 5#15 2 [] with phase := .sync } [1#8]))).isSome = true ∧
    events .pBody (stateOf tcfgC (inBody 6#15 9#15 0 []) 6 [1#8]) = some [.error .bodyBufferOverflow] ∧
    ringAfter .pBody (stateOf tcfgC (inBody 6#15 9#15 0 []) 6 [1#8]) = some (6, 7, [1#8]) := by decide
/-- R30: outside phase `BODY` the earlier bytes of a packet are the free values of this use (log 27), not the bytes listed. -/
theorem test_pBody_dead_bytes :
    events .pBody (parsing { inBody 3#15 5#15 2 [(0, 0x10#8), (1, 0x20#8)] with phase := .sync } [0x30#8])
      = some [.packet 5#15 3#15 [Config.accFree 0 0, Config.accFree 0 1, 0x30#8]] ∧
    (next? (exec .pBody (parsing { inBody 3#15 5#15 2 [] with phase := .sync } [0x30#8]))).map State.freeIndex
      = some 1 := ⟨rfl, rfl⟩
/-- R129. -/
theorem test_pIllegal :
    parserAfter .pIllegal5 (parsing (header .illegal5 3#15 4#15 7#8) [1#8]) = some ⟨.sync, 0, 3#15, 4#15, 7#8, 0⟩ ∧
    parserAfter (.pIllegal67 1#1) (parsing (header .illegal7 3#15 4#15 7#8) []) = some ⟨.sync, 0, 3#15, 4#15, 7#8, 0⟩ := by
  decide
/-- R122, and R129 through `P.STEP`. -/
theorem test_pStep :
    parserAfter .pStep (parsing (header .headerSize 0#15 0#15 0#8) [0x04#8, 0x05#8])
      = some ⟨.headerType, 0, 4#15, 0#15, 4#8, 0⟩ ∧
    parserAfter .pStep (parsing (header .illegal6 3#15 4#15 7#8) []) = some ⟨.sync, 0, 3#15, 4#15, 7#8, 0⟩ := by decide

/-! ## Wire elements (R68, P1) -/

theorem test_wSync0 : parserAfter (.wSync0 0xAA#8) (parsing (syncing 0) [0xAA#8])
    = some ⟨.sync, 1, 0#15, 0#15, 0#8, 0⟩ := by decide
theorem test_wSync1 : parserAfter (.wSync1 0x55#8) (parsing (syncing 1) [0x55#8])
    = some ⟨.sync, 2, 0#15, 0#15, 0#8, 0⟩ := by decide
theorem test_wSync2 : parserAfter (.wSync2 0xC3#8) (parsing (syncing 2) [0xC3#8])
    = some ⟨.headerSize, 0, 0#15, 0#15, 0#8, 0⟩ := by decide
/-- A byte equal to `SYNC[0]` is garbage where `SYNC[1]` is looked for; it is not a `W.SYNC0` there. -/
theorem test_wSkip :
    parserAfter (.wSkip 0xAA#8) (parsing (syncing 1) [0xAA#8]) = some ⟨.sync, 0, 0#15, 0#15, 0#8, 0⟩ ∧
    refusal? (exec (.wSync0 0xAA#8) (parsing (syncing 1) [0xAA#8])) = some .notTheFrontElement := by decide
theorem test_wV1 : parserAfter (.wV1 5#7) (parsing (header .headerType 4#15 0#15 4#8) [0x05#8])
    = some ⟨.headerChecksum, 0, 4#15, 5#15, 9#8, 0⟩ := by decide
theorem test_wV2 :
    parserAfter (.wV2 2#7 1#8) (parsing (header .headerType 2#15 0#15 2#8) [0x82#8, 0x01#8])
      = some ⟨.headerChecksum, 0, 2#15, 130#15, 0x85#8, 0⟩ ∧
    results (.wV2 2#7 1#8) (parsing (header .headerType 2#15 0#15 2#8) [0x82#8]) = some [.verdict .suspend] := by
  decide
theorem test_wCsum : parserAfter (.wCsum 9#8) (parsing (header .headerChecksum 4#15 5#15 9#8) [0x09#8])
    = some ⟨.body, 0, 4#15, 5#15, 9#8, 0⟩ := by decide
theorem test_wBody :
    parserAfter (.wBody 0x10#8) (parsing (inBody 4#15 5#15 0 []) [0x10#8, 0x20#8])
      = some ⟨.body, 0, 4#15, 5#15, 9#8, 1⟩ ∧
    ringAfter (.wBody 0x10#8) (parsing (inBody 4#15 5#15 0 []) [0x10#8, 0x20#8]) = some (1, 2, [0x20#8]) := by decide

/-! ## Reference functions and pseudo-operations -/

/-- R104, its examples. -/
theorem test_vlEnc :
    results (.vlEnc 300) State.reset = some [.bytes [0xAC#8, 0x02#8]] ∧
    results (.vlEnc 127) State.reset = some [.bytes [0x7F#8]] ∧
    refusal? (exec (.vlEnc 32768) State.reset) = some (.notEncodable 32768) := by decide
theorem test_enc : results (.enc 16384) State.reset = some [.bytes [0x80#8, 0x80#8]] ∧
    results (.enc 32767) State.reset = some [.bytes [0xFF#8, 0xFF#8]] := by decide
/-- R110, its examples; R111. -/
theorem test_fbBuild :
    results (.fbBuild [0x50#8, 0x60#8] 130 2) State.reset
      = some [.bytes [0xAA#8, 0x55#8, 0xC3#8, 0x02#8, 0x82#8, 0x01#8, 0x85#8, 0x50#8, 0x60#8]] ∧
    refusal? (exec (.fbBuild [0x50#8] 130 2) State.reset) = some (.notBuildable 130 2) := by decide
/-- Section 4, last row. -/
theorem test_frame : results (.frame 32767 []) State.reset
    = some [.bytes [0xAA#8, 0x55#8, 0xC3#8, 0x00#8, 0xFF#8, 0xFF#8, 0xFE#8]] := by decide
/-- V6.2, and V7.3: the lost marker. -/
theorem test_feed :
    events (.feed [0xAA#8, 0x55#8, 0xC3#8, 0x09#8, 0x02#8, 0x0B#8]) State.reset = some [.error .oversizedBody] ∧
    events (.feed [0xAA#8, 0xAA#8, 0x55#8, 0xC3#8, 0x00#8, 0x07#8, 0x07#8]) State.reset = some [] := by decide
/-- The shortest frame one byte per invocation (R71). -/
theorem test_feed1 : events (.feed1 [0xAA#8, 0x55#8, 0xC3#8, 0x00#8, 0x07#8, 0x07#8]) State.reset
    = some [.packet 7#15 0#15 []] := by decide

/-! ## Witnesses: hypotheses that can be met together, each clause at a boundary -/

/-- `RbAppendAllOrNothing`: one byte too many, exactly filling, and a full ring with the empty chunk. -/
theorem test_witness_append :
    ((ring 6 [1#8]).block.rb.Inv tcfgR ∧ [1#8, 2#8, 3#8, 4#8, 5#8, 6#8, 7#8, 8#8].length > tcfgR.C - 1) ∧
    [1#8, 2#8, 3#8, 4#8, 5#8, 6#8, 7#8].length = tcfgR.C - (ring 6 [1#8]).block.rb.size := by decide
/-- `RbDeqReturnsOldest`, `RbPeekReadsLogicalIndex`: empty, one byte, head at `C - 1`. -/
theorem test_witness_deq_peek :
    (ring 7 []).block.rb.Inv tcfgR ∧ (ring 7 []).block.rb.size = 0 ∧
    (ring 7 [9#8]).block.rb.Inv tcfgR ∧ (ring 7 [9#8]).content = 9#8 :: [] ∧ (ring 7 [9#8]).block.rb.size ≤ 1 ∧
    0 < (ring 7 [9#8]).block.rb.size := by decide
/-- `RbUndeqPushesBack`, `DeqAndUndeqAreInverse`: full, one below full, head 0. -/
theorem test_witness_undeq :
    (ring 0 [1#8, 2#8, 3#8, 4#8, 5#8, 6#8, 7#8, 8#8]).block.rb.Inv tcfgR ∧
    (ring 0 [1#8, 2#8, 3#8, 4#8, 5#8, 6#8, 7#8, 8#8]).block.rb.size = tcfgR.C ∧
    (ring 0 [1#8, 2#8, 3#8, 4#8, 5#8, 6#8, 7#8]).block.rb.Inv tcfgR ∧
    1 ≤ (ring 0 [1#8, 2#8, 3#8, 4#8, 5#8, 6#8, 7#8]).block.rb.size ∧
    (ring 0 [1#8, 2#8, 3#8, 4#8, 5#8, 6#8, 7#8]).block.rb.size ≤ tcfgR.C - 1 := by decide
/-- `RingInvariantKept`, `FailureChangesNothing`: a full and an empty ring under the invariant, and a failing operation. -/
theorem test_witness_failure :
    (ring 3 []).block.rb.Inv tcfgR ∧ (ring 3 []).block.rb.size = 0 ∧ results .rbDeq (ring 3 []) = some [.failed .empty] ∧
    (ring 3 [1#8, 2#8, 3#8, 4#8, 5#8, 6#8, 7#8, 8#8]).block.rb.Inv tcfgR ∧
    (ring 3 [1#8, 2#8, 3#8, 4#8, 5#8, 6#8, 7#8, 8#8]).block.rb.size = tcfgR.C ∧
    isBlockOp .rbDeq = true := by decide
/-- `FifoLaw`: an append, a dequeue, its push-back and a refused dequeue run to their end. -/
theorem test_witness_fifo :
    (ring 7 []).block.rb.Inv tcfgR ∧
    (runRing [.rbAppend [1#8, 2#8], .rbDeq, .rbUndeq 1#8, .rbDeq, .rbDeq, .rbDeq] (ring 7 []) [] []).map
      (fun r => (r.1.content, r.2)) = some ([], [1#8, 2#8], [1#8, 2#8]) := by decide
/-- `RingResultsDependOnContent`: the same content at different places, under different parsers. -/
theorem test_witness_content :
    (ring 7 [1#8, 2#8]).block.rb.Inv tcfgR ∧ (stateOf tcfgR (syncing 2) 3 [1#8, 2#8]).block.rb.Inv tcfgR ∧
    (ring 7 [1#8, 2#8]).content = (stateOf tcfgR (syncing 2) 3 [1#8, 2#8]).content ∧
    (ring 7 [1#8, 2#8]).block ≠ (stateOf tcfgR (syncing 2) 3 [1#8, 2#8]).block := by decide
/-- `VlDecDecodesOrRestores`, `VlDecEqualsLookAhead`, `PHsizeDecodesSize`, `PHtypeDecodesType`: 127, 128, an incomplete
field, an empty ring. -/
theorem test_witness_fields :
    (ring 7 [127#8, 1#8]).block.rb.Inv tcfgR ∧ (ring 7 [127#8, 1#8]).content = 127#8 :: [1#8] ∧
    (127#8).toNat < 128 ∧ (ring 7 [128#8, 1#8]).block.rb.Inv tcfgR ∧
    (ring 7 [128#8, 1#8]).content = 128#8 :: 1#8 :: [] ∧ 128 ≤ (128#8).toNat ∧
    (ring 7 [128#8]).block.rb.Inv tcfgR ∧ (ring 7 [128#8]).content = [128#8] ∧ (ring 7 []).content = [] := by decide
/-- The two field forms of `IsField` at 127 and 128. -/
theorem test_witness_isField : IsField [127#8] 127#15 ∧ IsField [128#8, 1#8] 128#15 :=
  ⟨IsField.one 127#8 (by decide), IsField.two 128#8 1#8 (by decide)⟩
/-- `VlDecInvertsVlEnc`: content that is the encoding of 32767 and more, and of 127. -/
theorem test_witness_vlDec_vlEnc :
    (ring 7 [0xFF#8, 0xFF#8, 5#8]).block.rb.Inv tcfgR ∧
    results (.vlEnc 32767) (ring 7 [0xFF#8, 0xFF#8, 5#8]) = some [.bytes [0xFF#8, 0xFF#8]] ∧
    (ring 7 [0xFF#8, 0xFF#8, 5#8]).content = [0xFF#8, 0xFF#8] ++ [5#8] ∧
    results (.vlEnc 127) (ring 7 [0x7F#8]) = some [.bytes [0x7F#8]] ∧
    (ring 7 [0x7F#8]).content = [0x7F#8] ++ [] := by decide
/-- `PSyncMatchesMarker`, `SyncElementsMoveCursor`: each cursor with its marker byte, and a mismatch. -/
theorem test_witness_sync :
    (parsing (syncing 0) [0xAA#8]).block.rb.Inv Config.tcfgA ∧ (parsing (syncing 0) [0xAA#8]).content = [0xAA#8] ∧
    (parsing (syncing 1) [0x55#8]).content = [0x55#8] ∧ (parsing (syncing 2) [0xC3#8]).content = [0xC3#8] ∧
    (parsing (syncing 2) [0xAA#8]).content = [0xAA#8] ∧
    [Config.tcfgA.sync0, Config.tcfgA.sync1, Config.tcfgA.sync2][(2 : Fin 3).val]? ≠ some 0xAA#8 ∧
    (parsing (syncing 2) [0xAA#8]).block.p.phase = .sync := by decide
/-- `PHcsumJudgesHeader`, `ChecksumElementIsCompared`: a match and a mismatch; sizes 8 and 9 around `MAX_BODY`, and 0. -/
theorem test_witness_hcsum :
    (parsing (header .headerChecksum 8#15 5#15 9#8) [9#8]).block.rb.Inv Config.tcfgA ∧
    (parsing (header .headerChecksum 8#15 5#15 9#8) [9#8]).content = 9#8 :: [] ∧
    ¬ Config.tcfgA.maxBody.toNat < (8#15).toNat ∧ Config.tcfgA.maxBody.toNat < (9#15).toNat ∧
    (parsing (header .headerChecksum 9#15 5#15 9#8) [8#8]).content = 8#8 :: [] ∧
    (parsing (header .headerChecksum 0#15 5#15 9#8) [9#8]).content = 9#8 :: [] ∧
    (parsing (header .headerChecksum 0#15 5#15 9#8) []).content = [] := by decide
/-- `PBodyAccumulates`, `BodyElementIsStored`: fewer bytes than needed, exactly enough, and more; and
another phase. -/
theorem test_witness_body :
    (parsing (inBody 4#15 5#15 2 [(0, 1#8), (1, 2#8)]) [3#8]).Inv ∧
    (parsing (inBody 4#15 5#15 2 [(0, 1#8), (1, 2#8)]) [3#8]).content = 3#8 :: [] ∧
    (parsing (inBody 4#15 5#15 2 [(0, 1#8), (1, 2#8)]) [3#8, 4#8]).Inv ∧
    (parsing (inBody 4#15 5#15 2 [(0, 1#8), (1, 2#8)]) [3#8, 4#8, 5#8]).Inv ∧
    (parsing (inBody 4#15 5#15 3 [(0, 1#8), (1, 2#8), (2, 3#8)]) [4#8]).Inv ∧
    (parsing { inBody 4#15 5#15 2 [] with phase := .sync } [3#8, 4#8]).Inv ∧
    (4#15).toNat ≤ Config.tcfgA.bodyCap ∧ 2 ≤ (4#15).toNat := by
  refine ⟨?_, ?_, ?_, ?_, ?_, ?_, ?_, ?_⟩ <;> decide
/-- `PBodyOverflowConsumesNothing`, `BodyElementIsStored`: one above `BODY_CAP`. -/
theorem test_witness_overflow :
    (stateOf tcfgC (inBody 5#15 9#15 0 []) 6 [1#8]).content = 1#8 :: [] ∧
    (stateOf tcfgC (inBody 5#15 9#15 0 []) 6 [1#8]).Inv ∧
    (stateOf tcfgC (inBody 5#15 9#15 0 []) 6 [1#8]).block.rb.size ≠ 0 ∧ tcfgC.bodyCap < (5#15).toNat := by decide
/-- `PIllegalGoesToSync`: each illegal code. -/
theorem test_witness_illegal :
    (parsing (header .illegal5 3#15 4#15 7#8) []).block.p.phase = .illegal5 ∧
    (parsing (header .illegal6 3#15 4#15 7#8) []).block.p.phase = .illegal6 ∧
    (parsing (header .illegal7 3#15 4#15 7#8) []).block.p.phase = .illegal7 := by decide
/-- `EmptyRingSuspends`. -/
theorem test_witness_empty :
    (parsing (syncing 0) []).block.rb.size = 0 ∧ (parsing (syncing 0) []).block.p.phase.legal = true := by decide
/-- `SuspendChangesNothing`: a transition that suspends on a half field, and one that progresses. -/
theorem test_witness_suspend :
    (parsing (header .headerSize 0#15 0#15 0#8) [0x80#8]).block.rb.Inv Config.tcfgA ∧
    results .pStep (parsing (header .headerSize 0#15 0#15 0#8) [0x80#8]) = some [.verdict .suspend] ∧
    results .pHsize (parsing (header .headerSize 0#15 0#15 0#8) [0x7F#8]) = some [.verdict .progress] ∧
    isPhaseRow .pHsize = true := by decide
/-- `ErrorEntryWritesPhaseOnly`: each of the three errors. -/
theorem test_witness_errors :
    (parsing (header .headerChecksum 9#15 1#15 1#8) [2#8]).block.rb.Inv Config.tcfgA ∧
    events .pStep (parsing (header .headerChecksum 9#15 1#15 1#8) [2#8]) = some [.error .headerChecksumMismatch] ∧
    events .pStep (parsing (header .headerChecksum 9#15 1#15 1#8) [1#8]) = some [.error .oversizedBody] ∧
    (stateOf tcfgC (inBody 5#15 9#15 0 []) 6 [1#8]).block.rb.Inv tcfgC ∧
    events .pStep (stateOf tcfgC (inBody 5#15 9#15 0 []) 6 [1#8]) = some [.error .bodyBufferOverflow] := by decide
/-- `MarkerAfterPartialMarkerIsLost`: V7.3 and V7.4 after their garbage. -/
theorem test_witness_lost :
    (parsing (syncing 1) [0xAA#8, 0x55#8, 0xC3#8]).block.rb.Inv Config.tcfgA ∧
    (parsing (syncing 1) [0xAA#8, 0x55#8, 0xC3#8]).content = [0xAA#8, 0x55#8, 0xC3#8] ∧
    (parsing (syncing 2) [0xAA#8, 0x55#8, 0xC3#8]).content = [0xAA#8, 0x55#8, 0xC3#8] ∧
    (∀ k : Fin 3, k ≠ 0 →
      [Config.tcfgA.sync0, Config.tcfgA.sync1, Config.tcfgA.sync2][k.val]? ≠ some Config.tcfgA.sync0) ∧
    Config.tcfgA.sync1 ≠ Config.tcfgA.sync0 ∧ Config.tcfgA.sync2 ≠ Config.tcfgA.sync0 := by decide
/-- `MarkerAfterPartialMarkerIsLost` where the marker has its first byte twice: A B A after A. -/
theorem test_witness_lost_repeating :
    (stateOf tcfgD (syncing 1) 0 [1#8, 2#8, 1#8]).block.rb.Inv tcfgD ∧
    (stateOf tcfgD (syncing 1) 0 [1#8, 2#8, 1#8]).content = [tcfgD.sync0, tcfgD.sync1, tcfgD.sync2] ∧
    [tcfgD.sync0, tcfgD.sync1, tcfgD.sync2][(1 : Fin 3).val]? ≠ some tcfgD.sync0 ∧
    tcfgD.sync2 = tcfgD.sync0 := by decide
/-- `DriveReturnsQuiescent`, `DriveIsLoopOfPStep`, `FeedIsAppendThenDrive`, `Feed1IsFeedOfEachByte`,
`ChunkFitsAfterDrive`: invariant states with a full, an empty and a half-field ring, and a chunk of `C - 1` bytes. -/
theorem test_witness_drive :
    (ring 3 [1#8, 2#8, 3#8, 4#8, 5#8, 6#8, 7#8, 8#8]).Inv ∧ (ring 3 []).Inv ∧
    1 ≤ (ring 3 [1#8, 2#8, 3#8, 4#8, 5#8, 6#8, 7#8, 8#8]).block.rb.size ∧ (ring 3 []).block.rb.size = 0 ∧
    (parsing (header .headerSize 0#15 0#15 0#8) [0x80#8]).Inv ∧
    [1#8, 2#8, 3#8, 4#8, 5#8, 6#8, 7#8].length = tcfgR.C - 1 := by
  refine ⟨?_, ?_, ?_, ?_, ?_, ?_⟩ <;> decide
/-- `DriveIdempotentAtQuiescence`: both quiescent configurations of R130. -/
theorem test_witness_quiescent :
    (ring 3 []).Quiescent ∧ (parsing (header .headerSize 0#15 0#15 0#8) [0x80#8]).Quiescent ∧
    (parsing (header .headerType 0#15 0#15 0#8) [0xFF#8]).Quiescent :=
  ⟨.inl (by decide), .inr ⟨by decide, by decide, 0x80#8, by decide, by decide⟩,
    .inr ⟨by decide, by decide, 0xFF#8, by decide, by decide⟩⟩
/-- `ChunkIndependence`: two ways to deliver the same bytes, neither refused. -/
theorem test_witness_chunks :
    (parsing (syncing 2) []).Inv ∧
    [[0xC3#8, 0x00#8], [0x81#8], [], [0x00#8, 0x81#8]].flatten
      = [[0xC3#8, 0x00#8, 0x81#8, 0x00#8, 0x81#8]].flatten ∧
    (feedAll [[0xC3#8, 0x00#8], [0x81#8], [], [0x00#8, 0x81#8]] (parsing (syncing 2) [])).map Prod.snd
      = some [.packet 1#15 0#15 []] ∧
    (feedAll [[0xC3#8, 0x00#8, 0x81#8, 0x00#8, 0x81#8]] (parsing (syncing 2) [])).map Prod.snd
      = some [.packet 1#15 0#15 []] := by decide
/-- `FrameRoundTrip`: a frame with a body, in two chunks, from a state that is not the reset state. -/
theorem test_witness_frame :
    (stateOf Config.tcfgA (syncing 0) 9 []).Inv ∧
    results (.frame 5 [0x10#8]) (stateOf Config.tcfgA (syncing 0) 9 [])
      = some [.bytes [0xAA#8, 0x55#8, 0xC3#8, 0x01#8, 0x05#8, 0x06#8, 0x10#8]] ∧
    (feedAll [[0xAA#8, 0x55#8, 0xC3#8, 0x01#8], [0x05#8, 0x06#8, 0x10#8]] (stateOf Config.tcfgA (syncing 0) 9 [])).map
      Prod.snd = some [.packet 5#15 1#15 [0x10#8]] ∧
    [0x10#8].length ≤ Config.tcfgA.maxBody.toNat ∧ [0x10#8].length ≤ Config.tcfgA.bodyCap := by decide
/-- `StepKeepsInvariant`, `ConfigurationIsConstant`: a step that answers a next state. -/
theorem test_witness_step :
    (({ parsing (syncing 0) [0xAA#8] with port := [0x09#8] } : State).Inv) ∧
    (next? (step { parsing (syncing 0) [0xAA#8] with port := [0x09#8] })).isSome = true := by decide
/-- `OperationsKeepPhaseRows`: a state in phase `HEADER_TYPE` that meets the rows, and an operation in its place. -/
theorem test_witness_phase_rows :
    (parsing (header .headerType 4#15 0#15 4#8) [5#8]).Inv ∧
    (parsing (header .headerType 4#15 0#15 4#8) [5#8]).block.p.PhaseInv Config.tcfgA ∧
    inPlace .pHtype (parsing (header .headerType 4#15 0#15 4#8) [5#8]) ∧
    (next? (exec .pHtype (parsing (header .headerType 4#15 0#15 4#8) [5#8]))).isSome = true :=
  ⟨by decide,
    { legal := by decide
      cursor := by decide
      size := fun h => absurd h (by decide)
      type := fun _ => ⟨by decide, [4#8], IsField.one 4#8 (by decide), by decide⟩
      csum := fun h => absurd h (by decide)
      body := by decide },
    by decide, by decide⟩
/-- `BodyBufferOverflowUnreachable`, `PacketEventsInBounds`: a drive that emits a packet, in a well-formed configuration. -/
theorem test_witness_events :
    (parsing (inBody 1#15 5#15 0 []) [3#8]).Inv ∧ Config.tcfgA.wellFormed ∧
    inPlace .drive (parsing (inBody 1#15 5#15 0 []) [3#8]) ∧ inPlace .pBody (parsing (inBody 1#15 5#15 0 []) [3#8]) ∧
    events .pBody (parsing (inBody 1#15 5#15 0 []) [3#8]) = some [.packet 5#15 1#15 [3#8]] ∧
    events .drive (parsing (inBody 1#15 5#15 0 []) [3#8]) = some [.packet 5#15 1#15 [3#8]] := by decide
/-- `FieldElementsStoreValue`: 127 as `W.V1`, 128 as `W.V2`, and its first byte alone, in both header phases. -/
theorem test_witness_field_elements :
    (parsing (header .headerSize 0#15 0#15 0#8) [0x7F#8]).block.rb.Inv Config.tcfgA ∧
    (parsing (header .headerSize 0#15 0#15 0#8) [0x7F#8]).content = 0x7F#8 :: [] ∧
    (0x7F#8).toNat = (127#7).toNat ∧ (0x80#8).toNat = 128 + (0#7).toNat ∧
    (parsing (header .headerType 0#15 0#15 0#8) [0x7F#8]).content = 0x7F#8 :: [] ∧
    (parsing (header .headerType 0#15 0#15 0#8) [0x80#8, 1#8]).content = 0x80#8 :: 1#8 :: [] ∧
    (parsing (header .headerSize 0#15 0#15 0#8) [0x80#8, 1#8]).content = 0x80#8 :: 1#8 :: [] ∧
    (parsing (header .headerSize 0#15 0#15 0#8) [0x80#8]).content = [0x80#8] := by decide
/-- `ExactlyOneElementExecutes`: two bytes buffered in a legal phase. -/
theorem test_witness_one_element :
    (parsing (syncing 0) [0xAA#8, 0x55#8]).block.rb.Inv Config.tcfgA ∧
    (parsing (syncing 0) [0xAA#8, 0x55#8]).content = 0xAA#8 :: 0x55#8 :: [] ∧ Phase.sync.legal = true := by decide
/-- `OtherElementsAreRefused`: refused in another phase, for another first byte, for the marker byte as `W.SKIP` and for a
wrong second byte; awaited on an empty ring buffer and after the first byte of two. -/
theorem test_witness_other_elements :
    wireBytes (.wV1 5#7) ≠ [] ∧
    refusal? (exec (.wV1 5#7) (parsing (syncing 0) [5#8])) = some .notTheFrontElement ∧
    refusal? (exec (.wV1 5#7) (parsing (header .headerSize 0#15 0#15 0#8) [6#8])) = some .notTheFrontElement ∧
    refusal? (exec (.wSkip 0xAA#8) (parsing (syncing 0) [0xAA#8])) = some .notTheFrontElement ∧
    refusal? (exec (.wV2 0#7 1#8) (parsing (header .headerSize 0#15 0#15 0#8) [0x80#8, 2#8]))
      = some .notTheFrontElement ∧
    recognises (header .headerSize 0#15 0#15 0#8) (.wV2 0#7 1#8) = true ∧
    results (.wV2 0#7 1#8) (parsing (header .headerSize 0#15 0#15 0#8) []) = some [.verdict .suspend] ∧
    results (.wV2 0#7 1#8) (parsing (header .headerSize 0#15 0#15 0#8) [0x80#8]) = some [.verdict .suspend] := by decide
/-- `VlEncGivesCanonicalForm`, `FbBuildGivesFrame`, `FbBuildRefusedOutsideDomain`: both sides of 128 and of 32767, and the
preconditions of R111 at their boundary. -/
theorem test_witness_reference :
    results (.vlEnc 127) State.reset = some [.bytes [0x7F#8]] ∧
    results (.vlEnc 128) State.reset = some [.bytes [0x80#8, 0x01#8]] ∧
    results (.vlEnc 32767) State.reset = some [.bytes [0xFF#8, 0xFF#8]] ∧
    WellFormed (.fbBuild [1#8] 32767 1) = true ∧
    (results (.fbBuild [1#8] 32767 1) State.reset).isSome = true ∧
    refusal? (exec (.frame 32768 []) State.reset) = some (.notBuildable 32768 0) := by decide
/-- `StepRunsDecodedOperation`, `StepRestsIgnoresRefuses`: a port for each clause, op codes 10 and 15. -/
theorem test_witness_ports :
    decode ({ State.reset with port := [0x03#8, 0x09#8] } : State).port = .instr .rbDeq [0x09#8] ∧
    State.reset.port = [] ∧ 10 ≤ (0x0A#8).toNat ∧ (0x0F#8).toNat ≤ 15 ∧
    decode [0x0A#8] = .ignored [] ∧ decode [0x60#8] = .reject (.unassigned 0x60#8) := by decide
/-- `FailuresRaisedExactlyWhen`: an empty ring in phase `SYNC`, half a field in a header phase, a byte in phase `BODY`, and
each failure. -/
theorem test_witness_raised :
    (ring 3 []).block.rb.Inv tcfgR ∧ inPlace .pSync (ring 3 []) ∧
    inPlace .pHtype (parsing (header .headerType 4#15 0#15 4#8) [0x80#8]) ∧ 128 ≤ (0x80#8).toNat ∧
    (parsing (header .headerType 4#15 0#15 4#8) [0x80#8]).content = [0x80#8] ∧
    (parsing (inBody 4#15 5#15 0 []) [3#8]).content ≠ [] ∧
    results .rbDeq (ring 3 []) = some [.failed .empty] ∧ results (.rbPeek 0) (ring 3 []) = some [.failed .outOfRange] ∧
    results .vlDec (ring 3 [0x80#8]) = some [.failed .insufficientData] := by decide
/-- `ParserErrorsRaisedExactlyWhen`: a state in its premises where no error is raised; `test_witness_errors` has the three
errors. -/
theorem test_witness_no_error :
    (parsing (header .headerChecksum 8#15 1#15 1#8) [1#8]).block.rb.Inv Config.tcfgA ∧
    (parsing (header .headerChecksum 8#15 1#15 1#8) [1#8]).content = 1#8 :: [] ∧ Config.tcfgA.wellFormed ∧
    events .pStep (parsing (header .headerChecksum 8#15 1#15 1#8) [1#8]) = some [] := by decide
/-- The table of R158. -/
theorem test_codes :
    [Result.ok, .failed .capacityExceeded, .failed .empty, .failed .outOfRange, .failed .insufficientData].map Result.code
      = [0, 1, 2, 3, 4] ∧
    [Event.packet 0#15 0#15 [], .error .headerChecksumMismatch, .error .oversizedBody, .error .bodyBufferOverflow].map
      Event.code = [0, 5, 6, 7] := by decide

end Sys2Proof.Tests
end

section
/-! PROOFS. What an answered operation and an answered step leave of the state they start from, and the statement of
00_scope.md R6: the configuration and the port are in the part that is left. -/

namespace Sys2Proof.Machine

/-! ## An operation records a block, results and events, and nothing else -/

/-- Where the outcome `o` is a next state, it is `s` with a block, results and events recorded. -/
def RecordsIn (s : State) (o : Host.Outcome State Fault Refusal) : Prop :=
  ∀ t, o = .next t → ∃ b rs es, t = s.finish b rs es

theorem recordsIn_finish (s : State) (b : Block) (rs : List Result) (es : List Event) :
    RecordsIn s (.next (s.finish b rs es)) := by
  rintro t ⟨⟩
  exact ⟨b, rs, es, rfl⟩

theorem recordsIn_finishTransition (s : State) (tr : Transition) : RecordsIn s (.next (s.finishTransition tr)) :=
  recordsIn_finish s _ _ _

theorem recordsIn_fail (s : State) (f : Failure) : RecordsIn s (.next (s.fail f)) :=
  recordsIn_finish s _ _ _

theorem recordsIn_fault (s : State) (r : Fault) : RecordsIn s (.fault r) := nofun

theorem recordsIn_refused (s : State) (r : Refusal) : RecordsIn s (.refused r) := nofun

theorem recordsIn_deliver (bs : Option (List Byte)) (r : Refusal) (s : State) : RecordsIn s (deliver bs r s) := by
  cases bs with
  | some bs => exact recordsIn_finish s _ _ _
  | none => exact recordsIn_refused s r

theorem recordsIn_handleElement (i : Instr) (tr : Transition) (s : State) : RecordsIn s (handleElement i tr s) := by
  rcases handleElement_cases i tr s with ⟨-, h⟩ | ⟨-, -, h⟩ | ⟨-, -, h⟩ <;> rw [h]
  · exact recordsIn_finishTransition s tr
  · exact recordsIn_finishTransition s _
  · exact recordsIn_refused s _

/-- `P.BODY` records its transition in the state whose accumulator it finds (R30, log 27). -/
theorem exec_pBody_recordsIn (s : State) : RecordsIn s.forgetDeadBody (exec .pBody s) :=
  recordsIn_finishTransition s.forgetDeadBody _

/-- Every operation but `P.BODY` records what it leaves in the state it is issued in. -/
theorem exec_recordsIn (i : Instr) (s : State) (hi : i ≠ .pBody) : RecordsIn s (exec i s) := by
  cases i
  case pBody => exact absurd rfl hi
  case reset | rbInit | rbAppend | pInit => exact recordsIn_finish s _ _ _
  case pStep | pSync | pHsize | pHtype | pHcsum | pIllegal5 | pIllegal67 => exact recordsIn_finishTransition s _
  case wSync0 | wSync1 | wSync2 | wSkip | wV1 | wV2 | wCsum | wBody => exact recordsIn_handleElement _ _ s
  case vlEnc | fbBuild | frame | enc => exact recordsIn_deliver _ _ s
  case rbDeq | rbPeek | rbUndeq =>
    simp only [exec, execRbDeq, execRbPeek, execRbUndeq]
    split
    · exact recordsIn_finish s _ _ _
    · exact recordsIn_fail s _
  case vlDec =>
    simp only [exec, execVlDec]
    split <;> exact recordsIn_finish s _ _ _
  case drive | feed | feed1 =>
    simp only [exec, execDrive, execFeed, execFeed1]
    split
    · exact recordsIn_finish s _ _ _
    · exact recordsIn_fault s _

/-! ## The configuration and the port -/

theorem RecordsIn.cfg_port {s t : State} {o : Host.Outcome State Fault Refusal} (ho : RecordsIn s o) (h : o = .next t) :
    t.cfg = s.cfg ∧ t.port = s.port := by
  obtain ⟨b, rs, es, rfl⟩ := ho t h
  exact ⟨State.finish_cfg s b rs es, State.finish_port s b rs es⟩

theorem exec_cfg_port {i : Instr} {s t : State} (h : exec i s = .next t) : t.cfg = s.cfg ∧ t.port = s.port := by
  by_cases hi : i = .pBody
  · subst hi
    simpa using (exec_pBody_recordsIn s).cfg_port h
  · exact (exec_recordsIn i s hi).cfg_port h

/-- All that a step can answer: rest, ignore an op code (R70, R174), or execute the operation at the port. -/
theorem step_next_cases {s t : State} (h : step s = .next t) :
    (s.fetch = .idle ∧ t = s) ∨
      (∃ rest, s.fetch = .ignored rest ∧ t = s.ignore rest) ∨
      (∃ i rest, s.fetch = .instr i rest ∧ exec i (s.advance rest) = .next t) := by
  unfold step at h
  split at h
  next hf => cases h; exact .inl ⟨hf, rfl⟩
  next rest hf => cases h; exact .inr (.inl ⟨rest, hf, rfl⟩)
  next i rest hf => exact .inr (.inr ⟨i, rest, hf, h⟩)
  next => cases h

theorem step_cfg {s t : State} (h : step s = .next t) : t.cfg = s.cfg := by
  rcases step_next_cases h with ⟨-, rfl⟩ | ⟨rest, -, rfl⟩ | ⟨i, rest, -, hx⟩
  · rfl
  · exact State.ignore_cfg s rest
  · exact (exec_cfg_port hx).1

/-- Settles O43: an operation records only a block, results and events, and a step beyond that only takes its bytes from
the port. -/
theorem configurationIsConstant : Obligations.ConfigurationIsConstant :=
  ⟨fun _ _ _ => exec_cfg_port, fun _ _ => step_cfg⟩

end Sys2Proof.Machine
end

section
/-! PROOFS. The ring buffer (40_ring_buffer.md): what each of its operations does to the content, and that each keeps the
invariant of 10_state.md R16. -/

namespace Sys2Proof.Machine

/-! ## Physical indices modulo `C` -/

theorem capacity_pos (cfg : Config) : 0 < cfg.C := Nat.lt_of_lt_of_le (by decide) cfg.two_le

/-- Different logical indices below `C` have different places. -/
theorem add_mod_ne {C h i j : Nat} (hi : i < C) (hj : j < C) (hij : i ≠ j) : (h + i) % C ≠ (h + j) % C := fun heq =>
  hij ((Nat.ModEq.add_left_cancel' h heq).eq_of_lt_of_lt hi hj)

/-- The index after the one before is where one was (R88). -/
theorem next_prevIndex (cfg : Config) (head i : Nat) : (prevIndex cfg head + (i + 1)) % cfg.C = (head + i) % cfg.C := by
  have hC := capacity_pos cfg
  unfold prevIndex
  rw [Nat.mod_add_mod, show head + cfg.C - 1 + (i + 1) = head + i + cfg.C by omega, Nat.add_mod_right]

/-! ## The ring buffer after taking its oldest byte, and after a push-back -/

/-- The ring buffer without its oldest byte (R83). -/
def RingBuffer.drop (cfg : Config) (rb : RingBuffer) : RingBuffer :=
  { rb with head := (rb.head + 1) % cfg.C, size := rb.size - 1 }

/-- The ring buffer with `b` put before its oldest byte (R85). -/
def RingBuffer.push (cfg : Config) (rb : RingBuffer) (b : Byte) : RingBuffer :=
  { rb with
    store := Memory.write .rb rb.store (prevIndex cfg rb.head) b
    head := prevIndex cfg rb.head
    size := rb.size + 1 }

/-- The ring buffer with `data` behind its newest byte (R81). -/
def RingBuffer.extend (cfg : Config) (rb : RingBuffer) (data : List Byte) : RingBuffer :=
  { rb with
    store := writeRun cfg data rb.store rb.tail
    tail := (rb.tail + data.length) % cfg.C
    size := rb.size + data.length }

@[simp] theorem RingBuffer.drop_size (cfg : Config) (rb : RingBuffer) : (rb.drop cfg).size = rb.size - 1 := rfl
@[simp] theorem RingBuffer.push_size (cfg : Config) (rb : RingBuffer) (b : Byte) :
    (rb.push cfg b).size = rb.size + 1 := rfl
@[simp] theorem RingBuffer.extend_size (cfg : Config) (rb : RingBuffer) (data : List Byte) :
    (rb.extend cfg data).size = rb.size + data.length := rfl

theorem RingBuffer.deq_of_size_ne {cfg : Config} {rb : RingBuffer} (h : rb.size ≠ 0) :
    rb.deq cfg = .ok (rb.byteAt cfg 0, rb.drop cfg) := if_neg h

theorem RingBuffer.deq_of_size_eq {cfg : Config} {rb : RingBuffer} (h : rb.size = 0) : rb.deq cfg = .error .empty :=
  if_pos h

theorem RingBuffer.undeq_of_size_ne {cfg : Config} {rb : RingBuffer} (b : Byte) (h : rb.size ≠ cfg.C) :
    rb.undeq cfg b = .ok (rb.push cfg b) := if_neg h

theorem RingBuffer.undeq_of_size_eq {cfg : Config} {rb : RingBuffer} (b : Byte) (h : rb.size = cfg.C) :
    rb.undeq cfg b = .error .capacityExceeded := if_pos h

theorem RingBuffer.append_of_le {cfg : Config} {rb : RingBuffer} {data : List Byte}
    (h : data.length ≤ cfg.C - rb.size) : rb.append cfg data = .ok (rb.extend cfg data) := if_neg (Nat.not_lt.mpr h)

theorem RingBuffer.append_of_lt {cfg : Config} {rb : RingBuffer} {data : List Byte}
    (h : cfg.C - rb.size < data.length) : rb.append cfg data = .error .capacityExceeded := if_pos h

/-! ## The invariant of R16 -/

theorem RingBuffer.Inv.init (cfg : Config) (rb : RingBuffer) : rb.init.Inv cfg := by
  simp [RingBuffer.Inv, Memory.wf, RingBuffer.init, capacity_pos cfg]

theorem RingBuffer.Inv.drop {cfg : Config} {rb : RingBuffer} (h : rb.Inv cfg) (hne : rb.size ≠ 0) :
    (rb.drop cfg).Inv cfg := by
  obtain ⟨-, htail, hsize, hlaw, hstore⟩ := h
  refine ⟨Nat.mod_lt _ (capacity_pos cfg), htail, Nat.le_trans (Nat.sub_le _ _) hsize, ?_, hstore⟩
  simp only [RingBuffer.drop]
  rw [hlaw, Nat.mod_add_mod, show rb.head + 1 + (rb.size - 1) = rb.head + rb.size by omega]

theorem RingBuffer.Inv.push {cfg : Config} {rb : RingBuffer} (h : rb.Inv cfg) (b : Byte) (hne : rb.size ≠ cfg.C) :
    (rb.push cfg b).Inv cfg := by
  obtain ⟨-, htail, hsize, hlaw, hstore⟩ := h
  have hlt := prevIndex_lt cfg rb.head
  refine ⟨hlt, htail, ?_, ?_, Memory.wf_write .rb cfg.C rb.store _ b hstore hlt⟩
  · simp only [RingBuffer.push]; omega
  · simp only [RingBuffer.push]
    rw [next_prevIndex, hlaw]

theorem RingBuffer.Inv.extend {cfg : Config} {rb : RingBuffer} (h : rb.Inv cfg) {data : List Byte}
    (hle : data.length ≤ cfg.C - rb.size) : (rb.extend cfg data).Inv cfg := by
  obtain ⟨hhead, -, hsize, hlaw, hstore⟩ := h
  refine ⟨hhead, Nat.mod_lt _ (capacity_pos cfg), ?_, ?_, writeRun_wf cfg data rb.store rb.tail hstore⟩
  · simp only [RingBuffer.extend]; omega
  · simp only [RingBuffer.extend]
    rw [hlaw, Nat.mod_add_mod, Nat.add_assoc]

/-- R16: full and empty both have `tail = head`. -/
theorem RingBuffer.Inv.tail_eq_head {cfg : Config} {rb : RingBuffer} (h : rb.Inv cfg)
    (hs : rb.size = cfg.C ∨ rb.size = 0) : rb.tail = rb.head := by
  obtain ⟨hhead, -, -, hlaw, -⟩ := h
  rw [hlaw]
  rcases hs with hs | hs
  · rw [hs, Nat.add_mod_right, Nat.mod_eq_of_lt hhead]
  · rw [hs, Nat.add_zero, Nat.mod_eq_of_lt hhead]

/-! ## The content (R15) -/

@[simp] theorem RingBuffer.content_length (cfg : Config) (rb : RingBuffer) : (rb.content cfg).length = rb.size := by
  simp [RingBuffer.content]

theorem RingBuffer.content_init (cfg : Config) (rb : RingBuffer) : rb.init.content cfg = [] := rfl

theorem RingBuffer.content_of_size_eq {cfg : Config} {rb : RingBuffer} (h : rb.size = 0) : rb.content cfg = [] := by
  simp [RingBuffer.content, h]

theorem RingBuffer.content_getElem? {cfg : Config} {rb : RingBuffer} {i : Nat} (h : i < rb.size) :
    (rb.content cfg)[i]? = some (rb.byteAt cfg i) := by
  simp [RingBuffer.content, h]

/-- The content is known from its length and its bytes. -/
theorem RingBuffer.content_eq {cfg : Config} {rb : RingBuffer} {bs : List Byte} (hlen : rb.size = bs.length)
    (hbyte : ∀ i (h : i < bs.length), rb.byteAt cfg i = bs[i]) : rb.content cfg = bs :=
  List.ext_getElem (by simp [hlen]) fun i _ hi => by simpa [RingBuffer.content] using hbyte i hi

theorem RingBuffer.byteAt_drop (cfg : Config) (rb : RingBuffer) (i : Nat) :
    (rb.drop cfg).byteAt cfg i = rb.byteAt cfg (i + 1) := by
  simp only [RingBuffer.byteAt, RingBuffer.drop]
  rw [Nat.mod_add_mod, Nat.add_assoc, Nat.add_comm 1 i]

theorem RingBuffer.content_drop {cfg : Config} {rb : RingBuffer} (hne : rb.size ≠ 0) :
    rb.content cfg = rb.byteAt cfg 0 :: (rb.drop cfg).content cfg := by
  obtain ⟨n, hn⟩ := Nat.exists_eq_succ_of_ne_zero hne
  simp [RingBuffer.content, hn, List.range_succ_eq_map, RingBuffer.byteAt_drop]

theorem RingBuffer.content_push {cfg : Config} {rb : RingBuffer} (h : rb.Inv cfg) (b : Byte)
    (hne : rb.size ≠ cfg.C) : (rb.push cfg b).content cfg = b :: rb.content cfg := by
  obtain ⟨-, -, hsize, -, hrising, -⟩ := h
  refine RingBuffer.content_eq (by simp) fun i hi => ?_
  simp only [RingBuffer.byteAt, RingBuffer.push, Memory.read_write _ _ _ _ _ hrising]
  cases i with
  | zero => simp [Nat.mod_eq_of_lt (prevIndex_lt cfg rb.head)]
  | succ i =>
    have hi : i < rb.size := by simpa using hi
    have hplace : prevIndex cfg rb.head ≠ (prevIndex cfg rb.head + (i + 1)) % cfg.C := by
      simpa [Nat.mod_eq_of_lt (prevIndex_lt cfg rb.head)] using
        add_mod_ne (h := prevIndex cfg rb.head) (capacity_pos cfg) (show i + 1 < cfg.C by omega) (Nat.succ_ne_zero i).symm
    rw [if_neg hplace, next_prevIndex]
    simp [RingBuffer.content, RingBuffer.byteAt]

/-- A run of writes leaves every place outside it as it was. -/
theorem read_writeRun_of_ne (cfg : Config) (bs : List Byte) (m : Memory) (t a : Nat) (h : Memory.wf .rb cfg.C m)
    (ha : ∀ k, k < bs.length → a ≠ (t + k) % cfg.C) :
    Memory.read .rb (writeRun cfg bs m t) a = Memory.read .rb m a := by
  induction bs generalizing m t with
  | nil => rfl
  | cons b bs ih =>
    have hne : t % cfg.C ≠ a := (ha 0 (by simp)).symm
    have hwf := Memory.wf_write .rb cfg.C m (t % cfg.C) b h (Nat.mod_lt _ (capacity_pos cfg))
    rw [writeRun, ih _ _ hwf fun k hk => by
      simpa [Nat.add_assoc, Nat.add_comm 1 k] using ha (k + 1) (by simpa using hk)]
    rw [Memory.read_write _ _ _ _ _ h.1, if_neg hne]

/-- A run of writes no longer than the storage puts each byte at its place. -/
theorem read_writeRun (cfg : Config) (bs : List Byte) (m : Memory) (t k : Nat) (h : Memory.wf .rb cfg.C m)
    (hlen : bs.length ≤ cfg.C) (hk : k < bs.length) :
    Memory.read .rb (writeRun cfg bs m t) ((t + k) % cfg.C) = bs[k] := by
  induction bs generalizing m t k with
  | nil => simp at hk
  | cons b bs ih =>
    have hwf := Memory.wf_write .rb cfg.C m (t % cfg.C) b h (Nat.mod_lt _ (capacity_pos cfg))
    simp only [List.length_cons] at hlen hk
    cases k with
    | zero =>
      have hout : ∀ k, k < bs.length → (t + 0) % cfg.C ≠ (t + 1 + k) % cfg.C := fun k hk => by
        rw [Nat.add_assoc]
        exact add_mod_ne (capacity_pos cfg) (by omega) (by omega)
      rw [writeRun, read_writeRun_of_ne cfg bs _ _ _ hwf hout, Memory.read_write _ _ _ _ _ h.1]
      simp
    | succ k =>
      rw [writeRun, show t + (k + 1) = t + 1 + k by omega, ih _ _ _ hwf (by omega) (by omega)]
      rfl

theorem RingBuffer.content_extend {cfg : Config} {rb : RingBuffer} (h : rb.Inv cfg) {data : List Byte}
    (hle : data.length ≤ cfg.C - rb.size) : (rb.extend cfg data).content cfg = rb.content cfg ++ data := by
  obtain ⟨-, -, hsize, hlaw, hstore⟩ := h
  refine RingBuffer.content_eq (by simp) fun i hi => ?_
  simp only [List.length_append, RingBuffer.content_length] at hi
  simp only [RingBuffer.byteAt, RingBuffer.extend]
  rcases Nat.lt_or_ge i rb.size with hlt | hge
  · have hout : ∀ k, k < data.length → (rb.head + i) % cfg.C ≠ (rb.tail + k) % cfg.C := fun k hk => by
      rw [hlaw, Nat.mod_add_mod, Nat.add_assoc]
      exact add_mod_ne (by omega) (by omega) (by omega)
    rw [read_writeRun_of_ne cfg data _ _ _ hstore hout, List.getElem_append_left (by simpa using hlt)]
    simp [RingBuffer.content, RingBuffer.byteAt]
  · have hplace : (rb.head + i) % cfg.C = (rb.tail + (i - rb.size)) % cfg.C := by
      rw [hlaw, Nat.mod_add_mod, show rb.head + rb.size + (i - rb.size) = rb.head + i by omega]
    rw [hplace, read_writeRun cfg data _ _ _ hstore (by omega) (by omega),
      List.getElem_append_right (by simpa using hge)]
    simp

/-! ## The field decoder -/

/-- R87, R101: pushing back the byte just dequeued restores the ring buffer, storage included. -/
theorem RingBuffer.push_drop {cfg : Config} {rb : RingBuffer} (h : rb.Inv cfg) (hne : rb.size ≠ 0) :
    (rb.drop cfg).push cfg (rb.byteAt cfg 0) = rb := by
  obtain ⟨hhead, -, -, -, hstore⟩ := h
  have hback : prevIndex cfg ((rb.head + 1) % cfg.C) = rb.head := prevIndex_next cfg rb.head hhead
  have hbyte : rb.byteAt cfg 0 = Memory.read .rb rb.store rb.head := by
    rw [RingBuffer.byteAt, Nat.add_zero, Nat.mod_eq_of_lt hhead]
  have hsame : Memory.write .rb rb.store rb.head (rb.byteAt cfg 0) = rb.store := by
    refine Memory.ext_read cfg.C _ _ (Memory.wf_write .rb cfg.C _ _ _ hstore hhead) hstore fun a => ?_
    rw [Memory.read_write _ _ _ _ _ hstore.1, hbyte]
    split
    · next ha => rw [ha]
    · rfl
  obtain ⟨store, head, tail, size⟩ := rb
  simp only at hne hback hsame
  simp only [RingBuffer.push, RingBuffer.drop, hback, hsame, Nat.sub_add_cancel (Nat.pos_of_ne_zero hne)]

theorem rollBack_drop {cfg : Config} {rb : RingBuffer} (h : rb.Inv cfg) (hne : rb.size ≠ 0) :
    rollBack cfg (rb.drop cfg) (rb.byteAt cfg 0) = rb := by
  have ⟨_, _, hsize, _⟩ := h
  have hroom : (rb.drop cfg).size ≠ cfg.C := by simp only [RingBuffer.drop_size]; omega
  rw [rollBack, RingBuffer.undeq_of_size_ne _ hroom]
  exact RingBuffer.push_drop h hne

/-- `VL.DEC` by the content (R101): an incomplete field leaves the ring buffer as it was, a complete one is taken. -/
theorem decodeField_cases_content {cfg : Config} {rb : RingBuffer} (h : rb.Inv cfg) :
    ((rb.content cfg = [] ∨ ∃ b0, rb.content cfg = [b0] ∧ continues b0 = true) ∧
        decodeField cfg rb = (rb, .error .insufficientData)) ∨
      (∃ b0, rb.size ≠ 0 ∧ rb.content cfg = b0 :: (rb.drop cfg).content cfg ∧ continues b0 = false ∧
        decodeField cfg rb = (rb.drop cfg, .ok { value := fieldOne b0, n := 1, sum := checksum [b0] })) ∨
      (∃ b0 b1, rb.size ≠ 0 ∧ (rb.drop cfg).size ≠ 0 ∧
        rb.content cfg = b0 :: b1 :: ((rb.drop cfg).drop cfg).content cfg ∧ continues b0 = true ∧
        decodeField cfg rb =
          ((rb.drop cfg).drop cfg, .ok { value := fieldTwo b0 b1, n := 2, sum := checksum [b0, b1] })) := by
  rcases decodeField_cases cfg rb with ⟨hs, hd⟩ | ⟨hs, hc, hd⟩ | ⟨hs, hc, hd⟩ | ⟨hs, hc, b1, rfl, hd⟩
  · exact .inl ⟨.inl (RingBuffer.content_of_size_eq hs), hd⟩
  · exact .inr (.inl ⟨_, hs, RingBuffer.content_drop hs, hc, hd⟩)
  · have hne : rb.size ≠ 0 := by omega
    refine .inl ⟨.inr ⟨_, ?_, hc⟩, ?_⟩
    · rw [RingBuffer.content_drop hne, RingBuffer.content_of_size_eq (by simp [hs])]
    · rw [hd]
      exact congrArg (·, Except.error Failure.insufficientData) (rollBack_drop h hne)
  · have hne : rb.size ≠ 0 := by omega
    have hne' : (rb.drop cfg).size ≠ 0 := by simp only [RingBuffer.drop_size]; omega
    refine .inr (.inr ⟨_, _, hne, hne', ?_, hc, hd⟩)
    rw [RingBuffer.content_drop hne, RingBuffer.content_drop hne']
    rfl

theorem RingBuffer.Inv.decodeField {cfg : Config} {rb : RingBuffer} (h : rb.Inv cfg) :
    (decodeField cfg rb).1.Inv cfg := by
  rcases decodeField_cases_content h with ⟨-, hd⟩ | ⟨b0, hs, -, -, hd⟩ | ⟨b0, b1, hs, hs', -, -, hd⟩ <;> rw [hd]
  · exact h
  · exact h.drop hs
  · exact (h.drop hs).drop hs'

theorem RingBuffer.Inv.moveBody {cfg : Config} {rb : RingBuffer} (h : rb.Inv cfg) (n : Nat) (acc : Memory) (i : Nat) :
    (moveBody cfg n rb acc i).1.Inv cfg := by
  induction n generalizing rb acc i with
  | zero => exact h
  | succ n ih =>
    by_cases hs : rb.size = 0
    · simpa only [Machine.moveBody, RingBuffer.deq_of_size_eq hs] using h
    · simpa only [Machine.moveBody, RingBuffer.deq_of_size_ne hs] using ih (h.drop hs) _ _

end Sys2Proof.Machine
end

section
/-! PROOFS. What any operation does to the block, as a sequence of a few moves, and the properties of the block that every
operation keeps because each move keeps them. -/

namespace Sys2Proof.Machine

open Relation (ReflTransGen)

/-! ## Moves of the block -/

/-- What a ring-buffer operation that answers, or `VL.DEC`, makes of the ring buffer. -/
inductive RingMove (cfg : Config) (rb : RingBuffer) : RingBuffer → Prop where
  | init : RingMove cfg rb rb.init
  | append (data : List Byte) (rb' : RingBuffer) (h : rb.append cfg data = .ok rb') : RingMove cfg rb rb'
  | deq (b : Byte) (rb' : RingBuffer) (h : rb.deq cfg = .ok (b, rb')) : RingMove cfg rb rb'
  | undeq (b : Byte) (rb' : RingBuffer) (h : rb.undeq cfg b = .ok rb') : RingMove cfg rb rb'
  | decode : RingMove cfg rb (decodeField cfg rb).1

/-- What the operations do to the block, each of them a sequence of these; a phase's transition only in that phase. -/
inductive BlockMove (cfg : Config) (blk : Block) : Block → Prop where
  | ring (rb' : RingBuffer) (h : RingMove cfg blk.rb rb') : BlockMove cfg blk { blk with rb := rb' }
  | pInit : BlockMove cfg blk { blk with p := blk.p.init }
  | transition : BlockMove cfg blk (transition cfg blk).block
  | body (limit : Nat) (h : blk.p.phase = .body) : BlockMove cfg blk (bodyTransition cfg limit blk).block

/-- A sequence of moves. -/
abbrev BlockMoves (cfg : Config) : Block → Block → Prop := ReflTransGen (BlockMove cfg)

theorem appendChunk_moves (cfg : Config) (blk : Block) (data : List Byte) :
    BlockMoves cfg blk (blk.appendChunk cfg data).1 := by
  unfold Block.appendChunk
  split
  next rb' h => exact .single (.ring rb' (.append data rb' h))
  next => exact .refl

theorem driveLoop_moves {cfg : Config} {n : Nat} {blk : Block} {r : Block × List Event}
    (h : driveLoop cfg n blk = some r) : BlockMoves cfg blk r.1 := by
  induction n generalizing blk r with
  | zero =>
    simp only [driveLoop] at h
    split at h <;> cases h
    exact .refl
  | succ n ih =>
    simp only [driveLoop] at h
    split at h
    · cases h; exact .refl
    · split at h
      · cases h; exact .single .transition
      · split at h
        next hrest =>
          have hmoves := ih hrest
          cases h
          exact .head .transition hmoves
        next => cases h

theorem feedBlock_moves {cfg : Config} {blk : Block} {data : List Byte} {r : Block × Result × List Event}
    (h : feedBlock cfg blk data = some r) : BlockMoves cfg blk r.1 := by
  unfold feedBlock at h
  split at h
  next blk' es hd => cases h; exact (appendChunk_moves cfg blk data).trans (driveLoop_moves hd)
  next => cases h

theorem feedBytes_moves {cfg : Config} {bs : List Byte} {blk : Block} {r : Block × List Result × List Event}
    (h : feedBytes cfg bs blk = some r) : BlockMoves cfg blk r.1 := by
  induction bs generalizing blk r with
  | nil => cases h; exact .refl
  | cons b bs ih =>
    simp only [feedBytes] at h
    split at h
    · cases h
    next blk' res es hfeed =>
      split at h
      · cases h
      next hrest =>
        have hmoves := ih hrest
        cases h
        exact (feedBlock_moves hfeed).trans hmoves

/-! ## A wire element makes the transition of the phase (R68) -/

theorem fieldElement_kind {b0 : Byte} {b1 : Option Byte} {i : Instr} (h : fieldElement b0 b1 = some i) :
    (∃ v, i = .wV1 v) ∨ ∃ l hi, i = .wV2 l hi := by
  unfold fieldElement at h
  split at h
  · split at h <;> cases h
    exact .inr ⟨_, _, rfl⟩
  · cases h
    exact .inl ⟨_, rfl⟩

theorem syncElement_recognises (cfg : Config) {p : Parser} (hp : p.phase = .sync) (b : Byte) :
    recognises p (syncElement cfg p.syncCursor b) = true := by
  unfold syncElement
  split
  · split <;> next hc => simp [recognises, hp, hc]
  · simp [recognises, hp]

/-- The element found at the front is of a kind that the phase recognises. -/
theorem classify_recognises {cfg : Config} {p : Parser} {b0 : Byte} {b1 : Option Byte} {i : Instr}
    (h : classify cfg p b0 b1 = some i) : recognises p i = true := by
  unfold classify at h
  cases hp : p.phase <;> simp only [hp] at h
  case sync =>
    obtain rfl := Option.some.inj h
    exact syncElement_recognises cfg hp b0
  case headerSize | headerType =>
    rcases fieldElement_kind h with ⟨v, rfl⟩ | ⟨l, hi, rfl⟩ <;> simp [recognises, hp]
  case headerChecksum | body =>
    obtain rfl := Option.some.inj h
    simp [recognises, hp]
  case illegal5 | illegal6 | illegal7 => cases h

theorem frontElement_recognises {cfg : Config} {blk : Block} {i : Instr} (h : frontElement cfg blk = some i) :
    recognises blk.p i = true := by
  unfold frontElement at h
  split at h
  · cases h
  · exact classify_recognises h

theorem transition_of_sync {cfg : Config} {blk : Block} (h : blk.p.phase = .sync) :
    transition cfg blk = syncTransition cfg blk := by simp only [transition, h]

theorem transition_of_headerChecksum {cfg : Config} {blk : Block} (h : blk.p.phase = .headerChecksum) :
    transition cfg blk = checksumTransition cfg blk := by simp only [transition, h]

theorem transition_of_field {cfg : Config} {blk : Block} (h : blk.p.phase = .headerSize ∨ blk.p.phase = .headerType) :
    transition cfg blk = fieldTransition cfg blk := by
  rcases h with h | h <;> simp [transition, fieldTransition, h]

/-- A wire element whose transition is a sequence of moves, in the phases that recognise it, makes these or none. -/
theorem handleElement_moves {i : Instr} {tr : Transition} {s t : State}
    (htr : recognises s.block.p i = true → BlockMoves s.cfg s.block tr.block) (h : handleElement i tr s = .next t) :
    BlockMoves s.cfg s.block t.block := by
  rcases handleElement_cases i tr s with ⟨hf, he⟩ | ⟨-, -, he⟩ | ⟨-, -, he⟩ <;> rw [he] at h <;> cases h
  · exact htr (frontElement_recognises hf)
  · exact .refl

theorem deliver_block {bs : Option (List Byte)} {r : Refusal} {s t : State} (h : deliver bs r s = .next t) :
    t.block = s.block := by
  unfold deliver at h
  split at h <;> cases h
  rfl

/-! ## Every operation is a sequence of moves -/

/-- In phase `BODY` the accumulator holds what was written (R30, log 27). -/
theorem forgetDeadBody_of_body {s : State} (h : s.block.p.phase = .body) : s.forgetDeadBody = s := by
  rcases s.forgetDeadBody_cases with ⟨-, hf⟩ | ⟨hp, -⟩
  · exact hf
  · exact absurd h hp

/-- R122: a phase's own transition, issued in that phase, is `P.STEP`. -/
theorem exec_phaseInstr (s : State) : exec (phaseInstr s.block.p.phase.code) s = exec .pStep s := by
  cases hp : s.block.p.phase
  case body => simp [phaseInstr, Phase.code, exec, execPBody, execPStep, transition, forgetDeadBody_of_body hp, hp]
  all_goals
    simp [phaseInstr, Phase.code, exec, execPStep, execPSync, execPHsize, execPHtype, execPHcsum, execPIllegal5,
      execPIllegal67, transition, hp]

/-- Every operation that is not a phase's transition is a sequence of moves. -/
theorem exec_moves_of_not_phaseRow {i : Instr} {s t : State} (hi : isPhaseRow i = false) (h : exec i s = .next t) :
    BlockMoves s.cfg s.block t.block := by
  cases i
  case pSync | pHsize | pHtype | pHcsum | pBody | pIllegal5 | pIllegal67 => cases hi
  case reset => cases h; exact .head (.ring _ .init) (.single .pInit)
  case rbInit => cases h; exact .single (.ring _ .init)
  case rbAppend data => cases h; exact appendChunk_moves s.cfg s.block data
  case rbDeq =>
    simp only [exec, execRbDeq] at h
    split at h <;> cases h
    next b rb' hd => exact .single (.ring rb' (.deq b rb' hd))
    next => exact .refl
  case rbPeek =>
    simp only [exec, execRbPeek] at h
    split at h <;> cases h <;> exact .refl
  case rbUndeq b =>
    simp only [exec, execRbUndeq] at h
    split at h <;> cases h
    next rb' hu => exact .single (.ring rb' (.undeq b rb' hu))
    next => exact .refl
  case vlDec =>
    have hm := BlockMove.ring (blk := s.block) _ (.decode (cfg := s.cfg))
    simp only [exec, execVlDec] at h
    split at h <;> cases h <;> next hd => rw [hd] at hm; exact .single hm
  case pInit => cases h; exact .single .pInit
  case pStep => cases h; exact .single .transition
  case drive =>
    simp only [exec, execDrive] at h
    split at h <;> cases h
    next hd => exact driveLoop_moves hd
  case feed =>
    simp only [exec, execFeed] at h
    split at h <;> cases h
    next hf => exact feedBlock_moves hf
  case feed1 =>
    simp only [exec, execFeed1] at h
    split at h <;> cases h
    next hf => exact feedBytes_moves hf
  case wSync0 | wSync1 | wSync2 | wSkip =>
    refine handleElement_moves (fun hr => ?_) h
    simp only [recognises, Bool.and_eq_true, decide_eq_true_eq] at hr
    exact transition_of_sync (by tauto) ▸ .single .transition
  case wV1 | wV2 =>
    refine handleElement_moves (fun hr => ?_) h
    simp only [recognises, Bool.or_eq_true, decide_eq_true_eq] at hr
    exact transition_of_field hr ▸ .single .transition
  case wCsum =>
    refine handleElement_moves (fun hr => ?_) h
    exact transition_of_headerChecksum (of_decide_eq_true hr) ▸ .single .transition
  case wBody =>
    refine handleElement_moves (fun hr => ?_) h
    exact .single (.body 1 (of_decide_eq_true hr))
  case vlEnc | fbBuild | frame | enc => exact deliver_block h ▸ .refl

/-- Every operation issued in its place is a sequence of moves. -/
theorem exec_moves {i : Instr} {s t : State} (hi : inPlace i s) (h : exec i s = .next t) :
    BlockMoves s.cfg s.block t.block := by
  cases hrow : isPhaseRow i
  · exact exec_moves_of_not_phaseRow hrow h
  · rw [hi hrow, exec_phaseInstr] at h
    cases h
    exact .single .transition

/-- What every move keeps, a sequence of moves keeps. -/
theorem BlockMoves.keep {cfg : Config} {P : Block → Prop} (hP : ∀ a b, BlockMove cfg a b → P a → P b) {a b : Block}
    (h : BlockMoves cfg a b) (ha : P a) : P b := by
  induction h with
  | refl => exact ha
  | tail _ hmove ih => exact hP _ _ hmove ih

/-! ## Properties that transitions keep in every phase -/

/-- `P` is kept by every ring-buffer operation, by `P.INIT`, by each of the transitions in whatever phase it is made, and
by forgetting the accumulator. -/
structure KeptInAnyPhase (cfg : Config) (P : Block → Prop) : Prop where
  ring : ∀ blk rb', RingMove cfg blk.rb rb' → P blk → P { blk with rb := rb' }
  pInit : ∀ blk, P blk → P { blk with p := blk.p.init }
  sync : ∀ blk, P blk → P (syncTransition cfg blk).block
  size : ∀ blk, P blk → P (sizeTransition cfg blk).block
  type : ∀ blk, P blk → P (typeTransition cfg blk).block
  csum : ∀ blk, P blk → P (checksumTransition cfg blk).block
  body : ∀ blk limit, P blk → P (bodyTransition cfg limit blk).block
  illegal : ∀ blk, P blk → P (illegalTransition blk).block
  deadAcc : ∀ blk n, P blk → P { blk with p := { blk.p with bodyAcc := deadAcc cfg.bodyCap n } }

section
variable {cfg : Config} {P : Block → Prop} (hP : KeptInAnyPhase cfg P)
include hP

theorem KeptInAnyPhase.transition (blk : Block) (h : P blk) : P (transition cfg blk).block := by
  unfold Machine.transition
  cases blk.p.phase
  case sync => exact hP.sync blk h
  case headerSize => exact hP.size blk h
  case headerType => exact hP.type blk h
  case headerChecksum => exact hP.csum blk h
  case body => exact hP.body blk _ h
  case illegal5 | illegal6 | illegal7 => exact hP.illegal blk h

theorem KeptInAnyPhase.move (a b : Block) (hm : BlockMove cfg a b) (h : P a) : P b := by
  cases hm with
  | ring rb' hr => exact hP.ring a rb' hr h
  | pInit => exact hP.pInit a h
  | transition => exact hP.transition a h
  | body limit _ => exact hP.body a limit h

end

/-- Whatever operation is issued, in its place or not, keeps `P`. -/
theorem KeptInAnyPhase.exec {P : Block → Prop} {i : Instr} {s t : State} (hP : KeptInAnyPhase s.cfg P)
    (h : exec i s = .next t) (hs : P s.block) : P t.block := by
  by_cases hrow : isPhaseRow i = false
  · exact (exec_moves_of_not_phaseRow hrow h).keep hP.move hs
  cases i
  case pSync => cases h; exact hP.sync _ hs
  case pHsize => cases h; exact hP.size _ hs
  case pHtype => cases h; exact hP.type _ hs
  case pHcsum => cases h; exact hP.csum _ hs
  case pIllegal5 | pIllegal67 => cases h; exact hP.illegal _ hs
  case pBody =>
    cases h
    refine hP.body _ _ ?_
    rcases s.forgetDeadBody_cases with ⟨-, hf⟩ | ⟨-, hf⟩ <;> rw [hf]
    · exact hs
    · exact hP.deadAcc _ _ hs
  all_goals exact absurd rfl hrow

end Sys2Proof.Machine
end

section
/-! PROOFS. The invariants of 10_state.md R16 and R25: they hold at reset and are kept by every operation. -/

namespace Sys2Proof.Machine

/-! ## The ring buffer (R16) -/

theorem RingMove.inv {cfg : Config} {rb rb' : RingBuffer} (hm : RingMove cfg rb rb') (h : rb.Inv cfg) :
    rb'.Inv cfg := by
  cases hm with
  | init => exact .init cfg rb
  | append data _ ha =>
    rcases rb.append_cases cfg data with ⟨-, hc⟩ | ⟨hle, hc⟩ <;> rw [hc] at ha <;> cases ha
    exact h.extend hle
  | deq b _ hd =>
    rcases rb.deq_cases cfg with ⟨-, hc⟩ | ⟨hne, hc⟩ <;> rw [hc] at hd <;> cases hd
    exact h.drop hne
  | undeq b _ hu =>
    rcases rb.undeq_cases cfg b with ⟨-, hc⟩ | ⟨hne, hc⟩ <;> rw [hc] at hu <;> cases hu
    exact h.push b hne
  | decode => exact h.decodeField

theorem judgeSize_rb (cfg : Config) (blk : Block) : (judgeSize cfg blk).block.rb = blk.rb := by
  rcases judgeSize_cases cfg blk with ⟨-, h⟩ | ⟨-, -, h⟩ | ⟨-, -, h⟩ <;> rw [h] <;> rfl

theorem sizeTransition_rb (cfg : Config) (blk : Block) :
    (sizeTransition cfg blk).block.rb = (decodeField cfg blk.rb).1 := by
  rcases sizeTransition_cases cfg blk with ⟨rb', f, hd, h⟩ | ⟨rb', f, hd, h⟩ <;> rw [hd, h] <;> rfl

theorem typeTransition_rb (cfg : Config) (blk : Block) :
    (typeTransition cfg blk).block.rb = (decodeField cfg blk.rb).1 := by
  rcases typeTransition_cases cfg blk with ⟨rb', f, hd, h⟩ | ⟨rb', f, hd, h⟩ <;> rw [hd, h] <;> rfl

/-- The block after `P.BODY` has moved `take` bytes, before it is seen whether the body is complete (R128). -/
def Block.accumulated (cfg : Config) (blk : Block) (take : Nat) : Block :=
  { rb := (moveBody cfg take blk.rb blk.p.bodyAcc blk.p.bodyCount).1
    p := { blk.p with
      bodyAcc := (moveBody cfg take blk.rb blk.p.bodyAcc blk.p.bodyCount).2
      bodyCount := blk.p.bodyCount + take } }

theorem takeBody_cases (cfg : Config) (blk : Block) (take : Nat) :
    (blk.p.bodyCount + take = blk.p.declSize.toNat ∧ takeBody cfg blk take = (blk.accumulated cfg take).emitPacket
        blk.p.declSize (bodyCopy (blk.accumulated cfg take).p.bodyAcc blk.p.declSize.toNat)) ∨
      (blk.p.bodyCount + take ≠ blk.p.declSize.toNat ∧
        takeBody cfg blk take = (blk.accumulated cfg take).progress) := by
  by_cases h : blk.p.bodyCount + take = blk.p.declSize.toNat
  · exact .inl ⟨h, if_pos h⟩
  · exact .inr ⟨h, if_neg h⟩

/-- R16 is kept in any phase. -/
theorem ringInv_keptInAnyPhase (cfg : Config) : KeptInAnyPhase cfg fun blk => blk.rb.Inv cfg where
  ring _ _ hm h := hm.inv h
  pInit _ h := h
  sync blk h := by
    rcases syncTransition_cases cfg blk with ⟨-, ht⟩ | ⟨hne, ht⟩ <;> rw [ht]
    · exact h
    · exact h.drop hne
  size blk h := by
    rw [sizeTransition_rb]
    exact h.decodeField
  type blk h := by
    rw [typeTransition_rb]
    exact h.decodeField
  csum blk h := by
    rcases checksumTransition_cases cfg blk with ⟨-, ht⟩ | ⟨hne, _, rfl, ⟨-, ht⟩ | ⟨-, ht⟩⟩ <;> rw [ht]
    · exact h
    · rw [judgeSize_rb]
      exact h.drop hne
    · exact h.drop hne
  body blk limit h := by
    rcases bodyTransition_cases cfg limit blk with ⟨-, ht⟩ | ⟨-, -, ht⟩ | ⟨-, -, ht⟩ <;> rw [ht]
    · exact h
    · exact h
    · rcases takeBody_cases cfg blk _ with ⟨-, hb⟩ | ⟨-, hb⟩ <;> rw [hb] <;> exact h.moveBody _ _ _
  illegal _ h := h
  deadAcc _ _ h := h

theorem exec_keeps_ringInv {i : Instr} {s t : State} (hs : s.block.rb.Inv s.cfg) (h : exec i s = .next t) :
    t.block.rb.Inv t.cfg := by
  rw [(exec_cfg_port h).1]
  exact (ringInv_keptInAnyPhase s.cfg).exec h hs

/-- Settles O12: `RB.INIT` establishes R16, and every move of the block keeps it. -/
theorem ringInvariantKept : Obligations.RingInvariantKept := by
  refine ⟨fun s t h => ?_, fun _ _ _ => exec_keeps_ringInv, fun _ => RingBuffer.Inv.tail_eq_head⟩
  cases h
  exact .init s.cfg s.block.rb

/-! ## The accumulator and the `BODY` row of R25 -/

/-- The parser's part of `State.Inv`. -/
def Parser.Inv (cfg : Config) (p : Parser) : Prop := p.AccInv cfg ∧ p.BodyInv cfg

/-- With the accumulator untouched, the parser outside phase `BODY` meets its invariant. -/
theorem Parser.Inv.of_ne_body {cfg : Config} {p q : Parser} (h : p.Inv cfg) (hacc : q.bodyAcc = p.bodyAcc)
    (hq : q.phase ≠ .body) : q.Inv cfg :=
  ⟨by rw [Parser.AccInv, hacc]; exact h.1, fun hb => absurd hb hq⟩

theorem Parser.Inv.matchMarker {cfg : Config} {p : Parser} (h : p.Inv cfg) (b : Byte) :
    (p.matchMarker cfg b).Inv cfg := by
  rcases p.matchMarker_cases cfg b with ⟨-, -, hm⟩ | ⟨-, -, hm⟩ | ⟨-, hm⟩ <;> rw [hm]
  · exact h.of_ne_body rfl nofun
  · exact h
  · exact h

/-- Phase `BODY` is entered with a declared size from 1 to `MAX_BODY` and no byte accumulated (R127). -/
theorem judgeSize_keeps_parserInv {cfg : Config} {blk : Block} (h : blk.p.Inv cfg) :
    (judgeSize cfg blk).block.p.Inv cfg := by
  rcases judgeSize_cases cfg blk with ⟨-, hj⟩ | ⟨-, -, hj⟩ | ⟨hmax, hne, hj⟩ <;> rw [hj]
  · exact h.of_ne_body rfl nofun
  · exact h.of_ne_body rfl nofun
  · have hpos : 0 < blk.p.declSize.toNat := Nat.pos_of_ne_zero fun hz => hne (BitVec.eq_of_toNat_eq hz)
    exact ⟨h.1, fun _ => ⟨hpos, hmax, hpos⟩⟩

/-- `n` bytes moved to indices from `i` on, all within the memory, keep the accumulator canonical. -/
theorem moveBody_wf (cfg : Config) (size n : Nat) (rb : RingBuffer) (acc : Memory) (i : Nat)
    (h : Memory.wf .acc size acc) (hn : n ≤ size - i) : Memory.wf .acc size (moveBody cfg n rb acc i).2 := by
  induction n generalizing rb acc i with
  | zero => exact h
  | succ n ih =>
    unfold moveBody
    split
    · exact h
    · exact ih _ _ _ (Memory.wf_write .acc size acc i _ h (by omega)) (by omega)

/-- R53: `P.BODY` takes no more bytes than the accumulator has room for. -/
theorem bodyRemainder_le_room {cfg : Config} {p : Parser} (h : p.declSize.toNat ≤ cfg.bodyCap) :
    bodyRemainder cfg p ≤ cfg.bodyCap - p.bodyCount := by
  unfold bodyRemainder
  split
  · exact Nat.sub_le_sub_right h _
  · exact Nat.min_le_right _ _

/-- R128: in phase `BODY` no more bytes are taken than the packet still needs. -/
theorem Parser.BodyInv.add_le {cfg : Config} {p : Parser} (h : p.BodyInv cfg) (hp : p.phase = .body) {n : Nat}
    (hn : n ≤ bodyRemainder cfg p) : p.bodyCount + n ≤ p.declSize.toNat := by
  obtain ⟨-, -, hlt⟩ := h hp
  rw [bodyRemainder, if_pos (Nat.le_of_lt hlt)] at hn
  omega

theorem takeBody_keeps_parserInv {cfg : Config} {blk : Block} {take : Nat} (h : blk.p.Inv cfg)
    (hcap : blk.p.declSize.toNat ≤ cfg.bodyCap) (htake : take ≤ bodyRemainder cfg blk.p) :
    (takeBody cfg blk take).block.p.Inv cfg := by
  obtain ⟨hacc, hbody⟩ := h
  have hacc' : (blk.accumulated cfg take).p.AccInv cfg :=
    moveBody_wf cfg cfg.bodyCap take _ _ _ hacc (Nat.le_trans htake (bodyRemainder_le_room hcap))
  rcases takeBody_cases cfg blk take with ⟨-, hb⟩ | ⟨hne, hb⟩ <;> rw [hb]
  · exact ⟨hacc', nofun⟩
  · refine ⟨hacc', fun hp => ?_⟩
    obtain ⟨hpos, hmax, -⟩ := hbody hp
    exact ⟨hpos, hmax, Nat.lt_of_le_of_ne (hbody.add_le hp htake) hne⟩

/-- The canonical accumulator and the `BODY` row are kept in any phase. -/
theorem parserInv_keptInAnyPhase (cfg : Config) : KeptInAnyPhase cfg fun blk => blk.p.Inv cfg where
  ring _ _ _ h := h
  pInit _ h := h.of_ne_body rfl nofun
  sync blk h := by
    rcases syncTransition_cases cfg blk with ⟨-, ht⟩ | ⟨-, ht⟩ <;> rw [ht]
    · exact h
    · exact h.matchMarker _
  size blk h := by
    rcases sizeTransition_cases cfg blk with ⟨rb', f, -, ht⟩ | ⟨rb', f, -, ht⟩ <;> rw [ht]
    · exact h
    · exact h.of_ne_body rfl nofun
  type blk h := by
    rcases typeTransition_cases cfg blk with ⟨rb', f, -, ht⟩ | ⟨rb', f, -, ht⟩ <;> rw [ht]
    · exact h
    · exact h.of_ne_body rfl nofun
  csum blk h := by
    rcases checksumTransition_cases cfg blk with ⟨-, ht⟩ | ⟨-, _, rfl, ⟨-, ht⟩ | ⟨-, ht⟩⟩ <;> rw [ht]
    · exact h
    · exact judgeSize_keeps_parserInv h
    · exact h.of_ne_body rfl nofun
  body blk limit h := by
    rcases bodyTransition_cases cfg limit blk with ⟨-, ht⟩ | ⟨-, -, ht⟩ | ⟨-, hcap, ht⟩ <;> rw [ht]
    · exact h
    · exact h.of_ne_body rfl nofun
    · exact takeBody_keeps_parserInv h hcap (Nat.min_le_right _ _)
  illegal _ h := h.of_ne_body rfl nofun
  deadAcc _ n h := ⟨deadAcc_wf cfg.bodyCap n, h.2⟩

theorem exec_keeps_parserInv {i : Instr} {s t : State} (hs : s.block.p.Inv s.cfg) (h : exec i s = .next t) :
    t.block.p.Inv t.cfg := by
  rw [(exec_cfg_port h).1]
  exact (parserInv_keptInAnyPhase s.cfg).exec h hs

theorem exec_keeps_inv {i : Instr} {s t : State} (hs : s.Inv) (h : exec i s = .next t) : t.Inv :=
  ⟨exec_keeps_ringInv hs.1 h, exec_keeps_parserInv hs.2 h⟩

/-- Settles O41: a step rests, ignores its byte, or executes an operation, which keeps both parts of the invariant. -/
theorem stepKeepsInvariant : Obligations.StepKeepsInvariant := by
  intro s t hs h
  rcases step_next_cases h with ⟨-, rfl⟩ | ⟨rest, -, rfl⟩ | ⟨i, rest, -, hx⟩
  · exact hs
  · exact hs
  · exact exec_keeps_inv (s := s.advance rest) hs hx

/-! ## The rows of every phase (R25) and the checksum law (R134) -/

/-- The sum of two runs of bytes is the sum of their sums (R65). -/
theorem checksum_append (as bs : List Byte) : checksum (as ++ bs) = checksum as + checksum bs := by
  induction as with
  | nil => simp [checksum]
  | cons a as ih => simp only [List.cons_append, checksum, ih, BitVec.add_assoc]

/-- What `VL.DEC` answers is the value and the sum of the bytes of a field (R101). -/
theorem decodeField_isField {cfg : Config} {rb rb' : RingBuffer} {f : DecodedField}
    (h : decodeField cfg rb = (rb', .ok f)) : ∃ raw, IsField raw f.value ∧ f.sum = checksum raw := by
  rcases decodeField_cases cfg rb with ⟨-, hd⟩ | ⟨-, hc, hd⟩ | ⟨-, -, hd⟩ | ⟨-, hc, b1, -, hd⟩ <;> rw [hd] at h <;> cases h
  · exact ⟨_, .one _ hc, rfl⟩
  · exact ⟨_, .two _ _ hc, rfl⟩

/-- In phase `SYNC` no row of R25 asks anything. -/
theorem Parser.PhaseInv.of_sync {cfg : Config} {p : Parser} (h : p.phase = .sync) : p.PhaseInv cfg where
  legal := by rw [h]; rfl
  cursor hne := absurd h hne
  size hp := by rw [h] at hp; cases hp
  type hp := by rw [h] at hp; cases hp
  csum hp := by rw [h] at hp; cases hp
  body hp := by rw [h] at hp; cases hp

theorem Parser.PhaseInv.of_body {cfg : Config} {p : Parser} (h : p.phase = .body) (hcursor : p.syncCursor = 0)
    (hbody : p.BodyInv cfg) : p.PhaseInv cfg where
  legal := by rw [h]; rfl
  cursor _ := hcursor
  size hp := by rw [h] at hp; cases hp
  type hp := by rw [h] at hp; cases hp
  csum hp := by rw [h] at hp; cases hp
  body := hbody

theorem syncTransition_keeps_phaseInv {cfg : Config} {blk : Block} (hp : blk.p.phase = .sync) :
    (syncTransition cfg blk).block.p.PhaseInv cfg := by
  rcases syncTransition_cases cfg blk with ⟨-, ht⟩ | ⟨-, ht⟩ <;> rw [ht]
  · exact .of_sync hp
  · simp only [Block.progress_block]
    rcases blk.p.matchMarker_cases cfg (blk.rb.byteAt cfg 0) with ⟨-, -, hm⟩ | ⟨-, -, hm⟩ | ⟨-, hm⟩ <;> rw [hm]
    · exact ⟨rfl, fun _ => rfl, fun _ => ⟨rfl, rfl, rfl⟩, nofun, nofun, nofun⟩
    · exact .of_sync hp
    · exact .of_sync hp

/-- R124: the checksum starts from 0, so it becomes the sum of the size field's bytes. -/
theorem sizeTransition_keeps_phaseInv {cfg : Config} {blk : Block} (h : blk.p.PhaseInv cfg)
    (hp : blk.p.phase = .headerSize) : (sizeTransition cfg blk).block.p.PhaseInv cfg := by
  have hcursor := h.cursor (by rw [hp]; decide)
  obtain ⟨hcsum, -, htype⟩ := h.size hp
  rcases sizeTransition_cases cfg blk with ⟨rb', f, -, ht⟩ | ⟨rb', f, hd, ht⟩ <;> rw [ht]
  · exact h
  · obtain ⟨raw, hraw, hsum⟩ := decodeField_isField hd
    have hlaw : accumulate blk.p.hdrCsum f.sum = checksum raw := by
      rw [accumulate, hcsum, hsum, BitVec.zero_add]
    exact ⟨rfl, fun _ => hcursor, nofun, fun _ => ⟨htype, raw, hraw, hlaw⟩, nofun, nofun⟩

/-- R125: the type field's bytes are added to the sum of the size field's. -/
theorem typeTransition_keeps_phaseInv {cfg : Config} {blk : Block} (h : blk.p.PhaseInv cfg)
    (hp : blk.p.phase = .headerType) : (typeTransition cfg blk).block.p.PhaseInv cfg := by
  have hcursor := h.cursor (by rw [hp]; decide)
  obtain ⟨-, rs, hrs, hcsum⟩ := h.type hp
  rcases typeTransition_cases cfg blk with ⟨rb', f, -, ht⟩ | ⟨rb', f, hd, ht⟩ <;> rw [ht]
  · exact h
  · obtain ⟨rt, hrt, hsum⟩ := decodeField_isField hd
    have hlaw : accumulate blk.p.hdrCsum f.sum = checksum (rs ++ rt) := by
      rw [accumulate, hcsum, hsum, checksum_append]
    exact ⟨rfl, fun _ => hcursor, nofun, nofun, fun _ => ⟨rs, rt, hrs, hrt, hlaw⟩, nofun⟩

theorem judgeSize_phase (cfg : Config) (blk : Block) :
    (judgeSize cfg blk).block.p.phase = .sync ∨
      ((judgeSize cfg blk).block.p.phase = .body ∧ (judgeSize cfg blk).block.p.syncCursor = blk.p.syncCursor) := by
  rcases judgeSize_cases cfg blk with ⟨-, h⟩ | ⟨-, -, h⟩ | ⟨-, -, h⟩ <;> rw [h]
  · exact .inl rfl
  · exact .inl rfl
  · exact .inr ⟨rfl, rfl⟩

theorem bodyTransition_phase (cfg : Config) (limit : Nat) (blk : Block) :
    (bodyTransition cfg limit blk).block.p.phase = .sync ∨
      ((bodyTransition cfg limit blk).block.p.phase = blk.p.phase ∧
        (bodyTransition cfg limit blk).block.p.syncCursor = blk.p.syncCursor) := by
  rcases bodyTransition_cases cfg limit blk with ⟨-, ht⟩ | ⟨-, -, ht⟩ | ⟨-, -, ht⟩ <;> rw [ht]
  · exact .inr ⟨rfl, rfl⟩
  · exact .inl rfl
  · rcases takeBody_cases cfg blk _ with ⟨-, hb⟩ | ⟨-, hb⟩ <;> rw [hb]
    · exact .inl rfl
    · exact .inr ⟨rfl, rfl⟩

/-- The `BODY` row on entry into phase `BODY` is the invariant's own. -/
theorem checksumTransition_keeps_phaseInv {cfg : Config} {blk : Block} (hinv : blk.p.Inv cfg)
    (h : blk.p.PhaseInv cfg) (hp : blk.p.phase = .headerChecksum) :
    (checksumTransition cfg blk).block.p.PhaseInv cfg := by
  have hcursor := h.cursor (by rw [hp]; decide)
  rcases checksumTransition_cases cfg blk with ⟨-, ht⟩ | ⟨-, rb', -, ⟨-, ht⟩ | ⟨-, ht⟩⟩ <;> rw [ht]
  · exact h
  · have hjudged := judgeSize_keeps_parserInv (blk := { blk with rb := rb' }) hinv
    rcases judgeSize_phase cfg { blk with rb := rb' } with hsync | ⟨hbody, hkept⟩
    · exact .of_sync hsync
    · exact .of_body hbody (hkept.trans hcursor) hjudged.2
  · exact .of_sync rfl

theorem bodyTransition_keeps_phaseInv {cfg : Config} {blk : Block} (hinv : blk.p.Inv cfg) (h : blk.p.PhaseInv cfg)
    (hp : blk.p.phase = .body) (limit : Nat) : (bodyTransition cfg limit blk).block.p.PhaseInv cfg := by
  have hcursor := h.cursor (by rw [hp]; decide)
  rcases bodyTransition_phase cfg limit blk with hsync | ⟨hbody, hkept⟩
  · exact .of_sync hsync
  · exact .of_body (hbody.trans hp) (hkept.trans hcursor) ((parserInv_keptInAnyPhase cfg).body blk limit hinv).2

theorem transition_keeps_phaseInv {cfg : Config} {blk : Block} (hinv : blk.p.Inv cfg) (h : blk.p.PhaseInv cfg) :
    (transition cfg blk).block.p.PhaseInv cfg := by
  unfold transition
  cases hp : blk.p.phase
  case sync => exact syncTransition_keeps_phaseInv hp
  case headerSize => exact sizeTransition_keeps_phaseInv h hp
  case headerType => exact typeTransition_keeps_phaseInv h hp
  case headerChecksum => exact checksumTransition_keeps_phaseInv hinv h hp
  case body => exact bodyTransition_keeps_phaseInv hinv h hp _
  case illegal5 | illegal6 | illegal7 => exact .of_sync rfl

theorem BlockMove.keeps_phaseInv {cfg : Config} {a b : Block} (hm : BlockMove cfg a b) (hinv : a.p.Inv cfg)
    (h : a.p.PhaseInv cfg) : b.p.PhaseInv cfg := by
  cases hm with
  | ring => exact h
  | pInit => exact .of_sync rfl
  | transition => exact transition_keeps_phaseInv hinv h
  | body limit hp => exact bodyTransition_keeps_phaseInv hinv h hp limit

/-- Settles O42: an operation issued in its place is a sequence of moves, and each move keeps the rows of R25 beside the
parser's own invariant. -/
theorem operationsKeepPhaseRows : Obligations.OperationsKeepPhaseRows := by
  intro s t i hs hrows hplace h
  have hkeep : ∀ a b, BlockMove s.cfg a b → a.p.Inv s.cfg ∧ a.p.PhaseInv s.cfg → b.p.Inv s.cfg ∧ b.p.PhaseInv s.cfg :=
    fun a b hm ⟨hinv, hrow⟩ => ⟨(parserInv_keptInAnyPhase s.cfg).move a b hm hinv, hm.keeps_phaseInv hinv hrow⟩
  rw [(exec_cfg_port h).1]
  exact ((exec_moves hplace h).keep hkeep ⟨hs.2, hrows⟩).2

/-! ## Reset (R31) -/

/-- Settles O17, each value read off `State.resetWith`; storage that lists nothing reads as `0x00`. -/
theorem resetValues : Obligations.ResetValues :=
  fun _ => ⟨rfl, rfl, rfl, rfl, fun _ _ => rfl, rfl, rfl, rfl, rfl, rfl, rfl, rfl, rfl, rfl, rfl⟩

/-- Settles O18: after reset the ring buffer is an initialised one, and the parser is in phase `SYNC`. -/
theorem resetMeetsInvariants : Obligations.ResetMeetsInvariants := fun cfg =>
  ⟨⟨.init cfg .reset, (reset_memories_wf cfg).2, nofun⟩, .of_sync rfl, .inl rfl⟩

end Sys2Proof.Machine
end

section
/-! PROOFS. The ring-buffer operations as functions of the content and the capacity (10_state.md R15). -/

namespace Sys2Proof.Machine

@[simp] theorem State.finish_content (s : State) (b : Block) (rs : List Result) (es : List Event) :
    (s.finish b rs es).content = b.rb.content s.cfg := rfl

@[simp] theorem State.fail_content (s : State) (f : Failure) : (s.fail f).content = s.content := rfl

/-- What `VL.DEC` answers and leaves, from the content (R101). -/
def contentDecode : List Byte → Result × List Byte
  | [] => (.failed .insufficientData, [])
  | b0 :: rest =>
    if continues b0 then
      match rest with
      | [] => (.failed .insufficientData, [b0])
      | b1 :: rest => (.okField (fieldTwo b0 b1) 2 (checksum [b0, b1]), rest)
    else (.okField (fieldOne b0) 1 (checksum [b0]), rest)

/-- The results of a ring-buffer operation and the content it leaves, from the capacity and the content (R80 to R85); an
operation of another kind is not spoken of. -/
def contentReply (C : Nat) (content : List Byte) : Instr → List Result × List Byte
  | .rbInit => ([], [])
  | .rbAppend data =>
    if data.length ≤ C - content.length then ([.ok], content ++ data) else ([.failed .capacityExceeded], content)
  | .rbDeq =>
    match content with
    | [] => ([.failed .empty], [])
    | b :: rest => ([.okByte b], rest)
  | .rbPeek index =>
    match content[index]? with
    | some b => ([.okByte b], content)
    | none => ([.failed .outOfRange], content)
  | .rbUndeq b =>
    if content.length = C then ([.failed .capacityExceeded], content) else ([.ok], b :: content)
  | .vlDec => ([(contentDecode content).1], (contentDecode content).2)
  | _ => ([], content)

/-- The operation answers with these results and this content, and leaves the parser as it is. -/
def RepliesWith (i : Instr) (s : State) (reply : List Result × List Byte) : Prop :=
  ∃ t, exec i s = .next t ∧ t.results = reply.1 ∧ t.content = reply.2 ∧ t.block.p = s.block.p

theorem exec_rbInit_reply (s : State) : RepliesWith .rbInit s (contentReply s.cfg.C s.content .rbInit) :=
  ⟨_, rfl, rfl, RingBuffer.content_init s.cfg s.block.rb, rfl⟩

theorem exec_rbAppend_reply {s : State} (h : s.block.rb.Inv s.cfg) (data : List Byte) :
    RepliesWith (.rbAppend data) s (contentReply s.cfg.C s.content (.rbAppend data)) := by
  by_cases hle : data.length ≤ s.cfg.C - s.block.rb.size
  · refine ⟨s.finish { s.block with rb := s.block.rb.extend s.cfg data } [.ok] [], ?_, ?_⟩
    · simp only [exec, execRbAppend, Block.appendChunk, RingBuffer.append_of_le hle]
    · simp [contentReply, hle, RingBuffer.content_extend h hle]
  · refine ⟨s.finish s.block [.failed .capacityExceeded] [], ?_, ?_⟩
    · simp only [exec, execRbAppend, Block.appendChunk, RingBuffer.append_of_lt (Nat.lt_of_not_le hle)]
    · simp [contentReply, hle]

theorem exec_rbDeq_reply (s : State) : RepliesWith .rbDeq s (contentReply s.cfg.C s.content .rbDeq) := by
  by_cases hs : s.block.rb.size = 0
  · refine ⟨s.fail .empty, ?_, ?_⟩
    · simp only [exec, execRbDeq, RingBuffer.deq_of_size_eq hs]
    · simp [contentReply, RingBuffer.content_of_size_eq hs]
  · refine ⟨s.finish { s.block with rb := s.block.rb.drop s.cfg } [.okByte (s.block.rb.byteAt s.cfg 0)] [], ?_, ?_⟩
    · simp only [exec, execRbDeq, RingBuffer.deq_of_size_ne hs]
    · simp [contentReply, RingBuffer.content_drop hs]

theorem exec_rbPeek_reply (s : State) (index : Nat) :
    RepliesWith (.rbPeek index) s (contentReply s.cfg.C s.content (.rbPeek index)) := by
  rcases s.block.rb.peek_cases s.cfg index with ⟨hout, hp⟩ | ⟨hin, hp⟩
  · refine ⟨s.fail .outOfRange, ?_, ?_⟩
    · simp only [exec, execRbPeek, hp]
    · simp [contentReply, hout]
  · refine ⟨s.finish s.block [.okByte (s.block.rb.byteAt s.cfg index)] [], ?_, ?_⟩
    · simp only [exec, execRbPeek, hp]
    · simp [contentReply, RingBuffer.content_getElem? hin]

theorem exec_rbUndeq_reply {s : State} (h : s.block.rb.Inv s.cfg) (b : Byte) :
    RepliesWith (.rbUndeq b) s (contentReply s.cfg.C s.content (.rbUndeq b)) := by
  by_cases hs : s.block.rb.size = s.cfg.C
  · refine ⟨s.fail .capacityExceeded, ?_, ?_⟩
    · simp only [exec, execRbUndeq, RingBuffer.undeq_of_size_eq b hs]
    · simp [contentReply, hs]
  · refine ⟨s.finish { s.block with rb := s.block.rb.push s.cfg b } [.ok] [], ?_, ?_⟩
    · simp only [exec, execRbUndeq, RingBuffer.undeq_of_size_ne b hs]
    · simp [contentReply, hs, RingBuffer.content_push h b hs]

theorem exec_vlDec_reply {s : State} (h : s.block.rb.Inv s.cfg) :
    RepliesWith .vlDec s (contentReply s.cfg.C s.content .vlDec) := by
  unfold RepliesWith
  simp only [exec, execVlDec, contentReply]
  rcases decodeField_cases_content h with
    ⟨hc | ⟨b0, hc, hb⟩, hd⟩ | ⟨b0, -, hc, hb, hd⟩ | ⟨b0, b1, -, -, hc, hb, hd⟩ <;> rw [hd] <;> refine ⟨_, rfl, ?_⟩
  · simp [hc, contentDecode]
  · simp [hc, hb, contentDecode]
  · simp [hc, hb, contentDecode]
  · simp [hc, hb, contentDecode]

/-- R15: the reply of a ring-buffer operation is the one read off the content and the capacity. -/
theorem exec_ring_reply {s : State} (h : s.block.rb.Inv s.cfg) {i : Instr}
    (hi : i = .rbInit ∨ (∃ d, i = .rbAppend d) ∨ i = .rbDeq ∨ (∃ k, i = .rbPeek k) ∨ (∃ b, i = .rbUndeq b) ∨ i = .vlDec) :
    RepliesWith i s (contentReply s.cfg.C s.content i) := by
  rcases hi with rfl | ⟨d, rfl⟩ | rfl | ⟨k, rfl⟩ | ⟨b, rfl⟩ | rfl
  · exact exec_rbInit_reply s
  · exact exec_rbAppend_reply h d
  · exact exec_rbDeq_reply s
  · exact exec_rbPeek_reply s k
  · exact exec_rbUndeq_reply h b
  · exact exec_vlDec_reply h

/-- Settles O11: equal contents and configurations give equal replies, since `contentReply` reads nothing else. -/
theorem ringResultsDependOnContent : Obligations.RingResultsDependOnContent := by
  intro s u i hi hs hu hcfg hcontent
  obtain ⟨s', hs', hsr, hsc, hsp⟩ := exec_ring_reply hs hi
  obtain ⟨u', hu', hur, huc, hup⟩ := exec_ring_reply hu hi
  rw [← hcfg, ← hcontent] at hur huc
  exact ⟨s', u', hs', hu', hsr.trans hur.symm, hsc.trans huc.symm, hsp, hup⟩

end Sys2Proof.Machine
end

section
/-! PROOFS. The FIFO law of the ring buffer (20_memory.md R54), and the step as the execution of the operation at the
port (R48). -/

namespace Sys2Proof.Machine

/-- R54 speaks of these four operations only. -/
theorem ledger_some_cases {i : Instr} {results : List Result} {admitted returned : List Byte}
    {books : List Byte × List Byte} (h : ledger i results admitted returned = some books) :
    (∃ d, i = .rbAppend d) ∨ i = .rbDeq ∨ (∃ k, i = .rbPeek k) ∨ ∃ b, i = .rbUndeq b := by
  unfold ledger at h
  split at h <;> simp_all

/-- R54 for one operation, on the content alone: what was returned, followed by the content, stays what was held and
admitted. -/
theorem ledger_keeps_balance {C : Nat} {content held admitted returned admitted' returned' : List Byte} {i : Instr}
    (hbal : returned ++ content = held ++ admitted)
    (h : ledger i (contentReply C content i).1 admitted returned = some (admitted', returned')) :
    returned' ++ (contentReply C content i).2 = held ++ admitted' := by
  rcases ledger_some_cases h with ⟨d, rfl⟩ | rfl | ⟨k, rfl⟩ | ⟨b, rfl⟩
  · by_cases hroom : d.length ≤ C - content.length
    · obtain ⟨rfl, rfl⟩ : admitted ++ d = admitted' ∧ returned = returned' := by
        simpa [contentReply, hroom, ledger] using h
      simp only [contentReply, if_pos hroom]
      rw [← List.append_assoc, hbal, List.append_assoc]
    · obtain ⟨rfl, rfl⟩ : admitted = admitted' ∧ returned = returned' := by
        simpa [contentReply, hroom, ledger] using h
      simpa [contentReply, hroom] using hbal
  · cases content with
    | nil =>
      obtain ⟨rfl, rfl⟩ : admitted = admitted' ∧ returned = returned' := by simpa [contentReply, ledger] using h
      simpa [contentReply] using hbal
    | cons b rest =>
      obtain ⟨rfl, rfl⟩ : admitted = admitted' ∧ returned ++ [b] = returned' := by simpa [contentReply, ledger] using h
      simpa [contentReply] using hbal
  · obtain ⟨rfl, rfl⟩ : admitted = admitted' ∧ returned = returned' := by simpa [ledger] using h
    cases hk : content[k]? <;> simpa [contentReply, hk] using hbal
  · by_cases hfull : content.length = C
    · obtain ⟨rfl, rfl⟩ : admitted = admitted' ∧ returned = returned' := by
        simpa [contentReply, hfull, ledger] using h
      simpa [contentReply, hfull] using hbal
    · obtain ⟨hlast, rfl, rfl⟩ : returned.getLast? = some b ∧ admitted = admitted' ∧ returned.dropLast = returned' := by
        simpa [contentReply, hfull, ledger] using h
      have hback : returned.dropLast ++ [b] = returned := List.dropLast_append_getLast? b hlast
      simp only [contentReply, if_neg hfull]
      rw [List.append_cons, hback, hbal]

/-- R54 along a run, from any books that balance. -/
theorem runRing_keeps_balance {ops : List Instr} {s t : State} {held admitted returned admitted' returned' : List Byte}
    (hinv : s.block.rb.Inv s.cfg) (hbal : returned ++ s.content = held ++ admitted)
    (h : runRing ops s admitted returned = some (t, admitted', returned')) :
    returned' ++ t.content = held ++ admitted' := by
  induction ops generalizing s admitted returned with
  | nil => cases h; exact hbal
  | cons i is ih =>
    unfold runRing at h
    split at h
    next u hu =>
      split at h
      next a r hl =>
        have hi := ledger_some_cases hl
        obtain ⟨v, hv, hres, hcontent, -⟩ := exec_ring_reply hinv (i := i) (by tauto)
        cases hu.symm.trans hv
        rw [hres] at hl
        exact ih (exec_keeps_ringInv hinv hu) (hcontent ▸ ledger_keeps_balance hbal hl) h
      next => cases h
    next => cases h
    next => cases h

/-- Settles O10: the books balance before the first operation, nothing being admitted or returned yet. -/
theorem fifoLaw : Obligations.FifoLaw := fun _ _ _ _ _ hinv =>
  runRing_keeps_balance hinv (List.append_nil _).symm

/-- Settles O55: the fetch decodes the port, and the operation runs after its bytes are taken. -/
theorem stepRunsDecodedOperation : Obligations.StepRunsDecodedOperation := by
  intro s i rest h
  have hfetch : s.fetch = .instr i rest := h
  simp only [step, hfetch]
  rfl

end Sys2Proof.Machine
end

section
/-! PROOFS. The command port (30_encoding.md R70, R71; log 2): the decoder reads back what the encoder writes. -/

namespace Sys2Proof.Machine

/-! ## Operand strings -/

/-- A byte-sequence operand is read back, whatever follows its end mark. -/
@[simp] theorem takeBytes_putBytes (data rest : List Byte) : takeBytes (putBytes data ++ rest) = .ok (data, rest) := by
  induction data with
  | nil =>
    rw [putBytes, List.singleton_append]
    unfold takeBytes
    rfl
  | cons b bs ih => simp [putBytes, takeBytes, ih]

/-- `n` has no more base-256 digits than its own value. -/
theorem natOfBytes_digits {fuel n : Nat} (h : n ≤ fuel) : natOfBytes (digits fuel n) = n := by
  induction fuel generalizing n with
  | zero => simpa [digits, natOfBytes] using (Nat.le_zero.mp h).symm
  | succ fuel ih =>
    by_cases hn : n = 0
    · simp [digits, hn, natOfBytes]
    · have hrest : natOfBytes (digits fuel (n / 256)) = n / 256 := ih (by omega)
      simp only [digits, if_neg hn, natOfBytes, hrest, BitVec.toNat_ofNat]
      omega

@[simp] theorem takeNat_putNat (n : Nat) (rest : List Byte) : takeNat (putNat n ++ rest) = .ok (n, rest) := by
  simp [takeNat, putNat, natOfBytes_digits]

/-! ## Operations with operands -/

theorem decodeWithBytes_putBytes (k : List Byte → Instr) (data rest : List Byte) :
    decodeWithBytes k (putBytes data ++ rest) = .instr (k data) rest := by
  simp [decodeWithBytes]

theorem decodeWithNat_putNat (k : Nat → Instr) (n : Nat) (rest : List Byte) :
    decodeWithNat k (putNat n ++ rest) = .instr (k n) rest := by
  simp [decodeWithNat]

theorem decodeBuild_put (body : List Byte) (type size : Nat) (rest : List Byte) :
    decodeBuild (putBytes body ++ putNat type ++ putNat size ++ rest) = .instr (.fbBuild body type size) rest := by
  simp [decodeBuild]

theorem decodeFrame_put (type : Nat) (body rest : List Byte) :
    decodeFrame (putNat type ++ putBytes body ++ rest) = .instr (.frame type body) rest := by
  simp [decodeFrame]

/-! ## The bytes of a field element (R62, R63), by their value -/

theorem continues_eq (b : Byte) : continues b = decide (128 ≤ b.toNat) := BitVec.msb_eq_decide b

theorem low7_toNat (b : Byte) : (low7 b).toNat = b.toNat % 128 := by
  simp [low7, BitVec.extractLsb'_toNat]

theorem v1Byte_toNat (v : BitVec 7) : (v1Byte v).toNat = v.toNat := by
  simp only [v1Byte, BitVec.toNat_setWidth]
  omega

theorem v2First_toNat (l : BitVec 7) : (v2First l).toNat = 128 + l.toNat := by
  have hdisjoint := Nat.two_pow_add_eq_or_of_lt l.isLt 1
  simp only [v2First, BitVec.toNat_or, BitVec.toNat_setWidth]
  rw [Nat.mod_eq_of_lt (by omega)]
  exact hdisjoint.symm

@[simp] theorem continues_v1Byte (v : BitVec 7) : continues (v1Byte v) = false := by
  rw [continues_eq, v1Byte_toNat]
  exact decide_eq_false (by omega)

@[simp] theorem continues_v2First (l : BitVec 7) : continues (v2First l) = true := by
  rw [continues_eq, v2First_toNat]
  exact decide_eq_true (Nat.le_add_right ..)

@[simp] theorem low7_v1Byte (v : BitVec 7) : low7 (v1Byte v) = v := by
  refine BitVec.eq_of_toNat_eq ?_
  rw [low7_toNat, v1Byte_toNat]
  omega

@[simp] theorem low7_v2First (l : BitVec 7) : low7 (v2First l) = l := by
  refine BitVec.eq_of_toNat_eq ?_
  rw [low7_toNat, v2First_toNat]
  omega

theorem v1Byte_low7 {b : Byte} (h : continues b = false) : v1Byte (low7 b) = b := by
  rw [continues_eq, decide_eq_false_iff_not] at h
  refine BitVec.eq_of_toNat_eq ?_
  rw [v1Byte_toNat, low7_toNat]
  omega

theorem v2First_low7 {b : Byte} (h : continues b = true) : v2First (low7 b) = b := by
  rw [continues_eq, decide_eq_true_eq] at h
  refine BitVec.eq_of_toNat_eq ?_
  rw [v2First_toNat, low7_toNat]
  omega

theorem decodeV1_v1Byte (v : BitVec 7) (rest : List Byte) : decodeV1 (v1Byte v :: rest) = .instr (.wV1 v) rest := by
  simp [decodeV1, takeByte]

theorem decodeV2_v2First (l : BitVec 7) (h : Byte) (rest : List Byte) :
    decodeV2 (v2First l :: h :: rest) = .instr (.wV2 l h) rest := by
  simp [decodeV2, takeByte]

/-! ## The first byte -/

/-- The open bit of the row of codes 6 and 7 is read back. -/
theorem decode_pIllegal67 (low : BitVec 1) (rest : List Byte) :
    decode (encode (.pIllegal67 low) ++ rest) = .instr (.pIllegal67 low) rest := by
  obtain rfl | rfl : low = 0#1 ∨ low = 1#1 := by revert low; decide
  · rfl
  · rfl

/-- Settles O1: the first byte selects the row, and the row's operands are read back from their operand strings. -/
theorem decodeEncodeAgree : Obligations.DecodeEncodeAgree := by
  intro i rest
  cases i
  case pIllegal67 low => exact decode_pIllegal67 low rest
  all_goals simp only [encode, commandByte, List.cons_append]
  case reset | rbInit | rbDeq | vlDec | pInit | pStep | drive => rfl
  case pSync | pHsize | pHtype | pHcsum | pBody | pIllegal5 => rfl
  case rbUndeq | wSync0 | wSync1 | wSync2 | wSkip | wCsum | wBody => rfl
  case rbAppend data | feed data | feed1 data => exact decodeWithBytes_putBytes _ data rest
  case rbPeek n | vlEnc n | enc n => exact decodeWithNat_putNat _ n rest
  case wV1 v => exact decodeV1_v1Byte v rest
  case wV2 l h => exact decodeV2_v2First l h rest
  case fbBuild body type size => exact decodeBuild_put body type size rest
  case frame type body => exact decodeFrame_put type body rest

/-- Settles O2, each word by running the decoder on it. -/
theorem sampleWordsDecode : Obligations.SampleWordsDecode := by
  unfold Obligations.SampleWordsDecode
  decide

/-! ## The header checksum (R65) -/

/-- Settles O3, by induction on the bytes: each addition discards the carry out of bit 7. -/
theorem checksumIsSumModulo256 : Obligations.ChecksumIsSumModulo256 := by
  intro bs
  induction bs with
  | nil => rfl
  | cons b bs ih => rw [checksum, BitVec.toNat_add, ih, Nat.add_mod_mod, List.map_cons, List.sum_cons]

end Sys2Proof.Machine
end

section
/-! PROOFS. The drive loop returns within its bound (43_frame_parser.md R131), and the pseudo-operations FEED and FEED1 as
appends and drives (30_encoding.md R71). -/

namespace Sys2Proof.Machine

/-! ## A transition that progresses leaves less to do -/

theorem decodeField_ok_size_lt {cfg : Config} {rb rb' : RingBuffer} {f : DecodedField}
    (h : decodeField cfg rb = (rb', .ok f)) : rb'.size < rb.size := by
  rcases decodeField_cases cfg rb with ⟨-, hd⟩ | ⟨hs, -, hd⟩ | ⟨-, -, hd⟩ | ⟨hs, -, b1, -, hd⟩ <;> rw [hd] at h <;> cases h
  · exact Nat.sub_one_lt hs
  · show rb.size - 1 - 1 < rb.size
    omega

theorem moveBody_size (cfg : Config) (n : Nat) (rb : RingBuffer) (acc : Memory) (i : Nat) :
    (moveBody cfg n rb acc i).1.size = rb.size - n := by
  induction n generalizing rb acc i with
  | zero => rfl
  | succ n ih =>
    by_cases hs : rb.size = 0
    · simp [moveBody, RingBuffer.deq_of_size_eq hs, hs]
    · simp only [moveBody, RingBuffer.deq_of_size_ne hs, ih, RingBuffer.drop_size]
      omega

theorem takeBody_rb (cfg : Config) (blk : Block) (take : Nat) :
    (takeBody cfg blk take).block.rb = (blk.accumulated cfg take).rb := by
  rcases takeBody_cases cfg blk take with ⟨-, h⟩ | ⟨-, h⟩ <;> rw [h] <;> rfl

theorem takeBody_size (cfg : Config) (blk : Block) (take : Nat) :
    (takeBody cfg blk take).block.rb.size = blk.rb.size - take := by
  rw [takeBody_rb]
  exact moveBody_size cfg take _ _ _

/-- The transition leaves fewer bytes, or goes from another phase to `SYNC` without taking one (R131). -/
def Transition.LeavesLess (t : Transition) (blk : Block) : Prop :=
  t.block.rb.size < blk.rb.size ∨
    (t.block.rb.size = blk.rb.size ∧ t.block.p.phase = .sync ∧ blk.p.phase ≠ .sync)

theorem checksumTransition_size_lt {cfg : Config} {blk : Block} (hs : blk.rb.size ≠ 0) :
    (checksumTransition cfg blk).block.rb.size < blk.rb.size := by
  rcases checksumTransition_cases cfg blk with ⟨hs', -⟩ | ⟨-, _, rfl, ⟨-, ht⟩ | ⟨-, ht⟩⟩
  · exact absurd hs' hs
  · rw [ht, judgeSize_rb]
    exact Nat.sub_one_lt hs
  · rw [ht]
    exact Nat.sub_one_lt hs

/-- In phase `BODY` a byte is still wanted, so at least one is taken, or the overflow is reported. -/
theorem bodyTransition_leavesLess {cfg : Config} {blk : Block} (hbody : blk.p.BodyInv cfg) (hp : blk.p.phase = .body)
    (hs : blk.rb.size ≠ 0) : (bodyTransition cfg blk.rb.size blk).LeavesLess blk := by
  rcases bodyTransition_cases cfg blk.rb.size blk with ⟨hs', -⟩ | ⟨-, -, ht⟩ | ⟨-, -, ht⟩
  · exact absurd hs' hs
  · rw [ht]
    exact .inr ⟨rfl, rfl, by rw [hp]; decide⟩
  · obtain ⟨-, -, hlt⟩ := hbody hp
    rw [ht, Transition.LeavesLess, takeBody_size, bodyRemainder, if_pos (Nat.le_of_lt hlt)]
    omega

theorem transition_leavesLess {cfg : Config} {blk : Block} (hbody : blk.p.BodyInv cfg) (hs : blk.rb.size ≠ 0)
    (hv : (transition cfg blk).verdict = .progress) : (transition cfg blk).LeavesLess blk := by
  unfold transition at hv ⊢
  cases hp : blk.p.phase <;> simp only [hp] at hv ⊢
  case sync =>
    rcases syncTransition_cases cfg blk with ⟨hs', -⟩ | ⟨-, ht⟩
    · exact absurd hs' hs
    · rw [ht]
      exact .inl (Nat.sub_one_lt hs)
  case headerSize =>
    rcases sizeTransition_cases cfg blk with ⟨_, _, -, ht⟩ | ⟨_, _, hd, ht⟩ <;> rw [ht] at hv ⊢
    · cases hv
    · exact .inl (decodeField_ok_size_lt hd)
  case headerType =>
    rcases typeTransition_cases cfg blk with ⟨_, _, -, ht⟩ | ⟨_, _, hd, ht⟩ <;> rw [ht] at hv ⊢
    · cases hv
    · exact .inl (decodeField_ok_size_lt hd)
  case headerChecksum => exact .inl (checksumTransition_size_lt hs)
  case body => exact bodyTransition_leavesLess hbody hp hs
  case illegal5 | illegal6 | illegal7 => exact .inr ⟨rfl, rfl, by rw [hp]; decide⟩

/-- How many transitions can still progress: two for each byte buffered, and one more outside phase `SYNC` (R131). -/
def Block.transitionsLeft (blk : Block) : Nat := 2 * blk.rb.size + if blk.p.phase = .sync then 0 else 1

theorem Transition.LeavesLess.transitionsLeft_lt {t : Transition} {blk : Block} (h : t.LeavesLess blk) :
    t.block.transitionsLeft < blk.transitionsLeft := by
  unfold Block.transitionsLeft
  rcases h with hlt | ⟨heq, hsync, hne⟩
  · split <;> split <;> omega
  · rw [heq, if_pos hsync, if_neg hne]
    omega

/-! ## The loop returns (R131) -/

theorem driveLoop_returns {cfg : Config} {n : Nat} {blk : Block} (h : blk.p.Inv cfg) (hn : blk.transitionsLeft ≤ n) :
    ∃ r, driveLoop cfg n blk = some r := by
  induction n generalizing blk with
  | zero =>
    have hs : blk.rb.size = 0 := by unfold Block.transitionsLeft at hn; omega
    exact ⟨_, if_pos hs⟩
  | succ n ih =>
    by_cases hs : blk.rb.size = 0
    · exact ⟨_, if_pos hs⟩
    · simp only [driveLoop, if_neg hs]
      cases hv : (transition cfg blk).verdict with
      | suspend => exact ⟨_, rfl⟩
      | progress =>
        have hless := (transition_leavesLess h.2 hs hv).transitionsLeft_lt
        obtain ⟨r, hr⟩ := ih ((parserInv_keptInAnyPhase cfg).transition blk h) (by omega)
        exact ⟨_, by simp only [hr]; rfl⟩

theorem driveBlock_returns {cfg : Config} {blk : Block} (h : blk.p.Inv cfg) : ∃ r, driveBlock cfg blk = some r :=
  driveLoop_returns h (by unfold Block.transitionsLeft; split <;> omega)

/-! ## FEED and FEED1 (R71) -/

/-- Settles O36: the append keeps the invariant, so the drive after it returns, and `FEED` runs these two. -/
theorem feedIsAppendThenDrive : Obligations.FeedIsAppendThenDrive := by
  intro s data hs
  have hinv : ((s.block.appendChunk s.cfg data).1).p.Inv s.cfg := (exec_keeps_inv (i := .rbAppend data) hs rfl).2
  obtain ⟨⟨blk, es⟩, hd⟩ := driveBlock_returns hinv
  refine ⟨_, (s.finish blk [] es), rfl, ?_, ?_⟩
  · simp only [exec, execDrive, State.finish_cfg, State.finish_block, hd]
    rfl
  · simp only [exec, execFeed, feedBlock, hd]
    rfl

theorem exec_feed_returns {s : State} (hs : s.Inv) (data : List Byte) : ∃ t, exec (.feed data) s = .next t := by
  obtain ⟨t, u, -, -, hfeed⟩ := feedIsAppendThenDrive s data hs
  exact ⟨_, hfeed⟩

theorem exec_feed1_nil (s : State) : exec (.feed1 []) s = .next { s with results := [], events := [] } := rfl

/-- A `FEED1` of one byte more: its `FEED`, then the rest. -/
theorem exec_feed1_cons {s t u : State} {b : Byte} {bs : List Byte} (ht : exec (.feed [b]) s = .next t)
    (hu : exec (.feed1 bs) t = .next u) :
    exec (.feed1 (b :: bs)) s = .next { u with results := t.results ++ u.results, events := t.events ++ u.events } := by
  simp only [exec, execFeed] at ht
  split at ht <;> cases ht
  next hfeed =>
    simp only [exec, execFeed1, State.finish_cfg, State.finish_block] at hu
    split at hu <;> cases hu
    next hrest =>
      simp only [exec, execFeed1, feedBytes, hfeed, hrest]
      rfl

theorem exec_feed1_returns {s : State} (hs : s.Inv) (bs : List Byte) : ∃ t, exec (.feed1 bs) s = .next t := by
  induction bs generalizing s with
  | nil => exact ⟨_, exec_feed1_nil s⟩
  | cons b bs ih =>
    obtain ⟨t, ht⟩ := exec_feed_returns hs [b]
    obtain ⟨u, hu⟩ := ih (exec_keeps_inv hs ht)
    exact ⟨_, exec_feed1_cons ht hu⟩

/-- Settles O37: every `FEED` returns in a state that meets the invariant again, so the rest can be fed to it. -/
theorem feed1IsFeedOfEachByte : Obligations.Feed1IsFeedOfEachByte := by
  intro s hs
  refine ⟨exec_feed1_nil s, fun b bs => ?_⟩
  obtain ⟨t, ht⟩ := exec_feed_returns hs [b]
  obtain ⟨u, hu⟩ := exec_feed1_returns (exec_keeps_inv hs ht) bs
  exact ⟨t, u, ht, hu, exec_feed1_cons ht hu⟩

end Sys2Proof.Machine
end

section
/-! PROOFS. The wire elements (30_encoding.md R61 to R69): which element is at the front of the ring buffer and which is
awaited, both read off the content, and what executing one does. -/

namespace Sys2Proof.Machine

/-! ## The marker byte looked for -/

theorem marker_getElem? (cfg : Config) (k : Fin 3) :
    [cfg.sync0, cfg.sync1, cfg.sync2][k.val]? = some (markerByte cfg k) := by
  match k with
  | 0 => rfl
  | 1 => rfl
  | 2 => rfl

/-- A marker element is, a skipped byte is not, the marker byte looked for (R68). -/
def FitsMarker (cfg : Config) (p : Parser) (i : Instr) : Prop :=
  (∀ b, i = .wSync0 b ∨ i = .wSync1 b ∨ i = .wSync2 b →
    [cfg.sync0, cfg.sync1, cfg.sync2][p.syncCursor.val]? = some b) ∧
  (∀ x, i = .wSkip x → [cfg.sync0, cfg.sync1, cfg.sync2][p.syncCursor.val]? ≠ some x)

@[simp] theorem fitsMarker_iff {cfg : Config} {p : Parser} {i : Instr} : FitsMarker cfg p i ↔
    (∀ b, i = .wSync0 b ∨ i = .wSync1 b ∨ i = .wSync2 b → b = markerByte cfg p.syncCursor) ∧
      (∀ x, i = .wSkip x → x ≠ markerByte cfg p.syncCursor) := by
  simp only [FitsMarker, marker_getElem?, Option.some.injEq, ne_eq, eq_comm (a := markerByte cfg p.syncCursor)]

/-! ## The classification of R68, element by element -/

theorem fieldElement_eq_some_iff {b0 : Byte} {b1 : Option Byte} {i : Instr} :
    fieldElement b0 b1 = some i ↔
      (∃ v, i = .wV1 v ∧ v1Byte v = b0) ∨ ∃ l h, i = .wV2 l h ∧ v2First l = b0 ∧ b1 = some h := by
  constructor
  · intro hf
    unfold fieldElement at hf
    split at hf
    next hc =>
      split at hf <;> cases hf
      exact .inr ⟨_, _, rfl, v2First_low7 hc, rfl⟩
    next hc =>
      cases hf
      exact .inl ⟨_, rfl, v1Byte_low7 (by simpa using hc)⟩
  · rintro (⟨v, rfl, rfl⟩ | ⟨l, h, rfl, rfl, rfl⟩) <;> simp [fieldElement]

/-- What each phase finds (the phase column of R68). -/
theorem classify_eq_some_iff {cfg : Config} {p : Parser} {b0 : Byte} {b1 : Option Byte} {i : Instr} :
    classify cfg p b0 b1 = some i ↔
      (p.phase = .sync ∧ i = syncElement cfg p.syncCursor b0) ∨
        ((p.phase = .headerSize ∨ p.phase = .headerType) ∧ fieldElement b0 b1 = some i) ∨
        (p.phase = .headerChecksum ∧ i = .wCsum b0) ∨ (p.phase = .body ∧ i = .wBody b0) := by
  unfold classify
  cases hp : p.phase <;> simp [eq_comm]

theorem eq_syncElement_iff {cfg : Config} {k : Fin 3} {b : Byte} {i : Instr} :
    i = syncElement cfg k b ↔
      (b = markerByte cfg k ∧ ((k = 0 ∧ i = .wSync0 b) ∨ (k = 1 ∧ i = .wSync1 b) ∨ (k = 2 ∧ i = .wSync2 b))) ∨
        (b ≠ markerByte cfg k ∧ i = .wSkip b) := by
  unfold syncElement
  by_cases hb : b = markerByte cfg k
  · rw [if_pos hb]
    match k with
    | 0 => simp [hb]
    | 1 => simp [hb]
    | 2 => simp [hb]
  · simp [hb]

/-- The element of the front bytes is the one whose kind is recognised, whose bytes begin the content, and which fits the
marker byte looked for. -/
theorem classify_head_eq_some_iff {cfg : Config} {p : Parser} {b0 : Byte} {rest : List Byte} {i : Instr}
    (hi : wireBytes i ≠ []) : classify cfg p b0 rest.head? = some i ↔
      recognises p i = true ∧ wireBytes i <+: b0 :: rest ∧ FitsMarker cfg p i := by
  rw [classify_eq_some_iff, eq_syncElement_iff, fieldElement_eq_some_iff]
  cases i
  case wSync0 b | wSync1 b | wSync2 b | wSkip b =>
    constructor <;> simp +contextual [recognises, wireBytes]
  case wV1 v => simp [recognises, wireBytes]
  case wV2 l h =>
    have hhead : rest.head? = some h ↔ [h] <+: rest := by cases rest <;> simp [eq_comm]
    simp [recognises, wireBytes, hhead]
  case wCsum c | wBody c => simp [recognises, wireBytes]
  all_goals exact absurd rfl hi

/-! ## The front of the ring buffer, by its content -/

theorem frontElement_of_content_eq_nil {cfg : Config} {blk : Block} (h : blk.rb.content cfg = []) :
    frontElement cfg blk = none := by
  have hs : blk.rb.size = 0 := by simpa using congrArg List.length h
  simp [frontElement, RingBuffer.peek, hs]

theorem frontElement_of_content_eq_cons {cfg : Config} {blk : Block} {b0 : Byte} {rest : List Byte}
    (h : blk.rb.content cfg = b0 :: rest) : frontElement cfg blk = classify cfg blk.p b0 rest.head? := by
  have hs : blk.rb.size = rest.length + 1 := by simpa using congrArg List.length h
  have hb0 : blk.rb.byteAt cfg 0 = b0 := by
    have hget := RingBuffer.content_getElem? (cfg := cfg) (rb := blk.rb) (i := 0) (by omega)
    simpa [h] using hget.symm
  have hb1 : (blk.rb.peek cfg 1).toOption = rest.head? := by
    cases rest with
    | nil => simp [RingBuffer.peek, hs, Except.toOption]
    | cons b1 rest =>
      have hget := RingBuffer.content_getElem? (cfg := cfg) (rb := blk.rb) (i := 1) (by simp [hs])
      simpa [RingBuffer.peek, hs, Except.toOption, h] using hget.symm
  have hp0 : blk.rb.peek cfg 0 = .ok b0 := by simp [RingBuffer.peek, hs, hb0]
  simp only [frontElement, hp0, hb1]

/-- The element at the front, read off the content. -/
theorem frontElement_eq_some_iff {cfg : Config} {blk : Block} {i : Instr} (hi : wireBytes i ≠ []) :
    frontElement cfg blk = some i ↔
      recognises blk.p i = true ∧ wireBytes i <+: blk.rb.content cfg ∧ FitsMarker cfg blk.p i := by
  cases hc : blk.rb.content cfg with
  | nil => simp [frontElement_of_content_eq_nil hc, hi]
  | cons b0 rest => rw [frontElement_of_content_eq_cons hc, classify_head_eq_some_iff hi]

/-- The element awaited, read off the content. -/
theorem awaits_iff {cfg : Config} {blk : Block} {i : Instr} :
    awaits cfg blk i = true ↔ recognises blk.p i = true ∧ blk.rb.content cfg <+: wireBytes i ∧
      blk.rb.content cfg ≠ wireBytes i := by
  have hlen : (blk.rb.content cfg).length = blk.rb.size := RingBuffer.content_length cfg blk.rb
  have htake : (List.range blk.rb.size).map (blk.rb.byteAt cfg) = (wireBytes i).take blk.rb.size ↔
      blk.rb.content cfg <+: wireBytes i := by
    rw [List.prefix_iff_eq_take, hlen]
    rfl
  simp only [awaits, Bool.and_eq_true, decide_eq_true_eq, htake, and_assoc, and_congr_right_iff]
  intro _
  rw [and_comm, and_congr_right_iff, ← hlen]
  exact fun hprefix => ⟨fun hlt heq => by simp [heq] at hlt,
    fun hne => Nat.lt_of_le_of_ne hprefix.length_le fun heq => hne (hprefix.eq_of_length heq)⟩

/-- An element that is awaited is not yet at the front. -/
theorem frontElement_ne_of_awaits {cfg : Config} {blk : Block} {i : Instr} (hi : wireBytes i ≠ [])
    (h : awaits cfg blk i = true) : frontElement cfg blk ≠ some i := by
  rw [Ne, frontElement_eq_some_iff hi]
  rintro ⟨-, hfront, -⟩
  obtain ⟨-, hprefix, hne⟩ := awaits_iff.mp h
  exact hne (hprefix.eq_of_length (Nat.le_antisymm hprefix.length_le hfront.length_le))

/-! ## Executing an element -/

theorem handleElement_of_front {i : Instr} {tr : Transition} {s : State} (h : frontElement s.cfg s.block = some i) :
    handleElement i tr s = .next (s.finishTransition tr) := if_pos h

/-- Every wire element is handled by a transition, which is `P.STEP`'s own where the kind is recognised, but that `W.BODY`
takes a single byte (log 13). -/
theorem exec_wireElement {i : Instr} (hi : wireBytes i ≠ []) (s : State) :
    ∃ tr, exec i s = handleElement i tr s ∧
      (recognises s.block.p i = true → s.block.p.phase ≠ .body → tr = transition s.cfg s.block) := by
  cases i
  case wSync0 | wSync1 | wSync2 | wSkip =>
    refine ⟨_, rfl, fun hr _ => (transition_of_sync ?_).symm⟩
    simp only [recognises, Bool.and_eq_true, decide_eq_true_eq] at hr
    tauto
  case wV1 | wV2 =>
    refine ⟨_, rfl, fun hr _ => (transition_of_field ?_).symm⟩
    simpa [recognises] using hr
  case wCsum => exact ⟨_, rfl, fun hr _ => (transition_of_headerChecksum (of_decide_eq_true hr)).symm⟩
  case wBody => exact ⟨_, rfl, fun hr hp => absurd (of_decide_eq_true hr) hp⟩
  all_goals exact absurd rfl hi

/-- Outside phase `BODY` the element at the front is executed as `P.STEP`. -/
theorem exec_of_front {i : Instr} {s : State} (hi : wireBytes i ≠ []) (hf : frontElement s.cfg s.block = some i)
    (hp : s.block.p.phase ≠ .body) : exec i s = exec .pStep s := by
  obtain ⟨tr, hx, htr⟩ := exec_wireElement hi s
  rw [hx, handleElement_of_front hf, htr (frontElement_recognises hf) hp]
  rfl

theorem exec_of_awaits {i : Instr} {s : State} (hi : wireBytes i ≠ []) (h : awaits s.cfg s.block i = true) :
    exec i s = .next { s with results := [.verdict .suspend], events := [] } := by
  obtain ⟨tr, hx, -⟩ := exec_wireElement hi s
  rw [hx, handleElement, if_neg (frontElement_ne_of_awaits hi h), if_pos h]
  rfl

theorem exec_eq_refused_iff {i : Instr} {s : State} (hi : wireBytes i ≠ []) :
    exec i s = .refused .notTheFrontElement ↔
      frontElement s.cfg s.block ≠ some i ∧ ¬ awaits s.cfg s.block i = true := by
  obtain ⟨tr, hx, -⟩ := exec_wireElement hi s
  rw [hx]
  rcases handleElement_cases i tr s with ⟨hf, he⟩ | ⟨hf, ha, he⟩ | ⟨hf, ha, he⟩ <;> rw [he]
  · simp [hf]
  · simp [ha]
  · simp [hf, ha]

/-- Settles O51: an element is refused where it is neither at the front nor awaited, and both are read off the content. -/
theorem otherElementsAreRefused : Obligations.OtherElementsAreRefused := by
  intro s i hi
  refine ⟨?_, fun hr hprefix hne => exec_of_awaits hi (awaits_iff.mpr ⟨hr, hprefix, hne⟩)⟩
  rw [exec_eq_refused_iff hi, Ne, frontElement_eq_some_iff hi, awaits_iff]
  rfl

/-! ## One element at a time (R68, R69) -/

/-- In the five phases two bytes make an element. -/
theorem classify_isSome_of_legal {cfg : Config} {p : Parser} (hp : p.phase.legal = true) (b0 b1 : Byte) :
    ∃ i, classify cfg p b0 (some b1) = some i := by
  unfold classify
  cases hphase : p.phase <;> simp only [hphase] at hp ⊢
  case illegal5 | illegal6 | illegal7 => cases hp
  case headerSize | headerType => cases hc : continues b0 <;> simp [fieldElement, hc]
  all_goals exact ⟨_, rfl⟩

theorem wireBytes_length_le (i : Instr) : (wireBytes i).length ≤ 2 := by
  cases i <;> simp [wireBytes]

/-- The kinds that a phase recognises are wire elements. -/
theorem wireBytes_ne_nil_of_recognises {p : Parser} {i : Instr} (h : recognises p i = true) : wireBytes i ≠ [] := by
  cases i <;> simp [recognises, wireBytes] at h ⊢

/-- With two bytes buffered an element that is executed is at the front, since none is awaited. -/
theorem frontElement_of_exec {i : Instr} {s t : State} (hi : wireBytes i ≠ []) (hs : 2 ≤ s.block.rb.size)
    (h : exec i s = .next t) : frontElement s.cfg s.block = some i := by
  obtain ⟨tr, hx, -⟩ := exec_wireElement hi s
  rw [hx] at h
  rcases handleElement_cases i tr s with ⟨hf, -⟩ | ⟨-, ha, -⟩ | ⟨-, -, he⟩
  · exact hf
  · obtain ⟨-, hprefix, hne⟩ := awaits_iff.mp ha
    have hlen := RingBuffer.content_length s.cfg s.block.rb
    have hle := wireBytes_length_le i
    exact absurd (hprefix.eq_of_length (Nat.le_antisymm hprefix.length_le (by omega))) hne
  · rw [he] at h
    cases h

/-- The bytes at the front are one or two (R61 to R66). -/
theorem wireBytes_of_prefix {i : Instr} {b0 b1 : Byte} {rest : List Byte} (hi : wireBytes i ≠ [])
    (h : wireBytes i <+: b0 :: b1 :: rest) : wireBytes i = [b0] ∨ wireBytes i = [b0, b1] := by
  have hle := wireBytes_length_le i
  match hb : wireBytes i with
  | [] => exact absurd hb hi
  | [a] => simp_all
  | [a, b] => simp_all
  | a :: b :: c :: bs => simp [hb] at hle

/-- Settles O50: the element at the front is one, it is handled, and with two bytes buffered nothing else is. -/
theorem exactlyOneElementExecutes : Obligations.ExactlyOneElementExecutes := by
  intro s b0 b1 rest _ (hc : s.block.rb.content s.cfg = _) hlegal
  obtain ⟨i, hclass⟩ := classify_isSome_of_legal (cfg := s.cfg) hlegal b0 b1
  have hf : frontElement s.cfg s.block = some i := (frontElement_of_content_eq_cons hc).trans hclass
  have hi := wireBytes_ne_nil_of_recognises (frontElement_recognises hf)
  have hsize : 2 ≤ s.block.rb.size := by
    rw [← RingBuffer.content_length s.cfg, hc]
    simp
  obtain ⟨-, hprefix, -⟩ := (frontElement_eq_some_iff hi).mp hf
  rw [hc] at hprefix
  obtain ⟨tr, hx, -⟩ := exec_wireElement hi s
  have hnext := hx.trans (handleElement_of_front hf)
  refine ⟨i, _, hnext, wireBytes_of_prefix hi hprefix, fun hp => exec_of_front hi hf hp ▸ hnext, fun j u hj hu => ?_⟩
  exact Option.some.inj ((frontElement_of_exec hj hsize hu).symm.trans hf)

end Sys2Proof.Machine
end

section
/-! PROOFS. What each wire element does in its phase (30_encoding.md R61 to R66; 43_frame_parser.md R123 to R128): the byte
or bytes at the front are taken, and the parser moves as the phase's transition says. -/

namespace Sys2Proof.Machine

/-! ## Taking bytes from the front -/

/-- The content without the bytes consumed. -/
theorem State.consumed_content (s : State) (n : Nat) (p : Parser) : (s.consumed n p).content = s.content.drop n := by
  have hlen : (s.content.drop n).length = s.block.rb.size - n := by simp [State.content]
  refine RingBuffer.content_eq hlen.symm fun i hi => ?_
  simp only [State.consumed, RingBuffer.byteAt, Nat.mod_add_mod, State.content, RingBuffer.content, List.getElem_drop,
    List.getElem_map, List.getElem_range, Nat.add_assoc]

theorem checksum_singleton (b : Byte) : checksum [b] = b := by simp [checksum]

theorem checksum_pair (b0 b1 : Byte) : checksum [b0, b1] = b0 + b1 := by simp [checksum]

/-- A field at the front is decoded and taken (R101). -/
theorem decodeField_of_isField {cfg : Config} {rb : RingBuffer} {raw rest : List Byte} {v : Field} (h : rb.Inv cfg)
    (hf : IsField raw v) (hc : rb.content cfg = raw ++ rest) :
    decodeField cfg rb =
      ({ rb with head := (rb.head + raw.length) % cfg.C, size := rb.size - raw.length },
        .ok { value := v, n := raw.length, sum := checksum raw }) := by
  rcases decodeField_cases_content h with
    ⟨hn | ⟨b, hn, hb⟩, -⟩ | ⟨b, -, hn, hb, hd⟩ | ⟨b, b', -, -, hn, hb, hd⟩ <;> rw [hn] at hc
  · cases hf <;> cases hc
  · cases hf with
    | one b0 h0 => simp_all
    | two b0 b1 h0 => simp_all
  · cases hf with
    | one b0 h0 => cases hc; exact hd
    | two b0 b1 h0 => simp_all
  · cases hf with
    | one b0 h0 => simp_all
    | two b0 b1 h0 =>
      cases hc
      rw [hd]
      simp [RingBuffer.drop, Nat.add_assoc, Nat.sub_sub]

/-! ## The transitions of the phases on a front byte or field -/

section
variable {s : State} {b : Byte} {raw rest : List Byte} {v : Field}

theorem size_ne_zero_of_content (hc : s.content = b :: rest) : s.block.rb.size ≠ 0 := by
  have hlen : s.content.length = s.block.rb.size := RingBuffer.content_length s.cfg s.block.rb
  rw [← hlen, hc]
  exact Nat.succ_ne_zero _

theorem byteAt_zero_of_content (hc : s.content = b :: rest) : s.block.rb.byteAt s.cfg 0 = b := by
  have hget : s.content[0]? = some (s.block.rb.byteAt s.cfg 0) :=
    RingBuffer.content_getElem? (Nat.pos_of_ne_zero (size_ne_zero_of_content hc))
  simpa [hc] using hget.symm

theorem content_drop_of_content (hc : s.content = b :: rest) : (s.block.rb.drop s.cfg).content s.cfg = rest :=
  (List.cons.inj ((RingBuffer.content_drop (size_ne_zero_of_content hc)).symm.trans hc)).2

theorem exec_pStep_of_sync (hp : s.block.p.phase = .sync) (hc : s.content = b :: rest) :
    exec .pStep s = .next (s.consumed 1 (s.block.p.matchMarker s.cfg b)) := by
  simp only [exec, execPStep, transition_of_sync hp]
  rcases syncTransition_cases s.cfg s.block with ⟨hs, -⟩ | ⟨-, ht⟩
  · exact absurd hs (size_ne_zero_of_content hc)
  · rw [ht, byteAt_zero_of_content hc]
    rfl

theorem exec_pStep_of_headerSize (h : s.block.rb.Inv s.cfg) (hp : s.block.p.phase = .headerSize) (hf : IsField raw v)
    (hc : s.content = raw ++ rest) : exec .pStep s = .next (s.consumed raw.length { s.block.p with
      declSize := v, hdrCsum := s.block.p.hdrCsum + checksum raw, phase := .headerType }) := by
  simp only [exec, execPStep, transition, hp, sizeTransition, decodeField_of_isField h hf hc]
  rfl

theorem exec_pStep_of_headerType (h : s.block.rb.Inv s.cfg) (hp : s.block.p.phase = .headerType) (hf : IsField raw v)
    (hc : s.content = raw ++ rest) : exec .pStep s = .next (s.consumed raw.length { s.block.p with
      declType := v, hdrCsum := s.block.p.hdrCsum + checksum raw, phase := .headerChecksum }) := by
  simp only [exec, execPStep, transition, hp, typeTransition, decodeField_of_isField h hf hc]
  rfl

end

/-! ## The sync elements -/

/-- An element of one byte is at the front where its kind is recognised, it fits the marker byte looked for, and its byte
is the front one. -/
theorem frontElement_of_byte {s : State} {i : Instr} {b : Byte} {rest : List Byte} (hi : wireBytes i = [b])
    (hc : s.content = b :: rest) (hr : recognises s.block.p i = true) (hfit : FitsMarker s.cfg s.block.p i) :
    frontElement s.cfg s.block = some i := by
  have hprefix : wireBytes i <+: s.content := by simp [hi, hc]
  exact (frontElement_eq_some_iff (by simp [hi])).mpr ⟨hr, hprefix, hfit⟩

/-- A sync element at the front matches or mismatches as R123 says. -/
theorem exec_sync_element {s : State} {i : Instr} {b : Byte} {rest : List Byte} (hi : wireBytes i = [b])
    (hp : s.block.p.phase = .sync) (hc : s.content = b :: rest) (hr : recognises s.block.p i = true)
    (hfit : FitsMarker s.cfg s.block.p i) : exec i s = .next (s.consumed 1 (s.block.p.matchMarker s.cfg b)) := by
  rw [exec_of_front (by simp [hi]) (frontElement_of_byte hi hc hr hfit) (by simp [hp]), exec_pStep_of_sync hp hc]

/-- Settles O46: each sync element is at the front where its cursor and byte are, and the byte it takes is matched. -/
theorem syncElementsMoveCursor : Obligations.SyncElementsMoveCursor := by
  intro s b rest _ hc hp
  refine ⟨fun p => ?content, fun hk hb => ?sync0, fun hk hb => ?sync1, fun hk hb => ?sync2, fun hb => ?skip⟩
  case content =>
    rw [State.consumed_content, hc]
    rfl
  case sync0 | sync1 | sync2 =>
    rw [exec_sync_element rfl hp hc (by simp [recognises, hp, hk]) (by simp [hk, hb, markerByte])]
    simp [Parser.matchMarker, hk, hb, markerByte]
  case skip =>
    have hne : b ≠ markerByte s.cfg s.block.p.syncCursor := by
      rintro rfl
      exact hb (marker_getElem? _ _)
    rw [exec_sync_element rfl hp hc (by simp [recognises, hp]) (by simp [hne])]
    simp [Parser.matchMarker, hne]

/-! ## The field elements -/

theorem fieldOne_toNat (b : Byte) : (fieldOne b).toNat = b.toNat := by
  simp only [fieldOne, BitVec.toNat_setWidth]
  omega

theorem fieldTwo_toNat (b0 b1 : Byte) : (fieldTwo b0 b1).toNat = b0.toNat % 128 + 128 * b1.toNat := by
  simp only [fieldTwo, BitVec.toNat_add, BitVec.toNat_shiftLeft, BitVec.toNat_setWidth, low7_toNat, Nat.shiftLeft_eq]
  omega

/-- In a header phase a field element with the front bytes is executed as `P.STEP`. -/
theorem exec_field_element {s : State} {i : Instr} {rest : List Byte}
    (hp : s.block.p.phase = .headerSize ∨ s.block.p.phase = .headerType) (hc : s.content = wireBytes i ++ rest)
    (hi : (∃ v, i = .wV1 v) ∨ ∃ l h, i = .wV2 l h) : exec i s = exec .pStep s := by
  have hne : wireBytes i ≠ [] := by rcases hi with ⟨v, rfl⟩ | ⟨l, h, rfl⟩ <;> simp [wireBytes]
  have hr : recognises s.block.p i = true := by rcases hi with ⟨v, rfl⟩ | ⟨l, h, rfl⟩ <;> simpa [recognises] using hp
  have hfit : FitsMarker s.cfg s.block.p i := by rcases hi with ⟨v, rfl⟩ | ⟨l, h, rfl⟩ <;> simp
  have hprefix : wireBytes i <+: s.content := by simp [hc]
  refine exec_of_front hne ((frontElement_eq_some_iff hne).mpr ⟨hr, hprefix, hfit⟩) ?_
  rcases hp with hp | hp <;> simp [hp]

/-- Settles O47: the bytes of a field element are a field, which the header phase's transition decodes and takes. -/
theorem fieldElementsStoreValue : Obligations.FieldElementsStoreValue := by
  intro s v l h b0 b1 rest hinv h0 h1
  obtain rfl : b0 = v1Byte v := BitVec.eq_of_toNat_eq (by rw [h0, v1Byte_toNat])
  obtain rfl : b1 = v2First l := BitVec.eq_of_toNat_eq (by rw [h1, v2First_toNat])
  have hone : IsField (wireBytes (.wV1 v)) (fieldOne (v1Byte v)) := .one _ (continues_v1Byte v)
  have htwo : IsField (wireBytes (.wV2 l h)) (fieldTwo (v2First l) h) := .two _ _ (continues_v2First l)
  have hv1 : (fieldOne (v1Byte v)).toNat = v.toNat := by rw [fieldOne_toNat, v1Byte_toNat]
  have hv2 : (fieldTwo (v2First l) h).toNat = l.toNat + 128 * h.toNat := by
    rw [fieldTwo_toNat, v2First_toNat]
    omega
  have hsum1 : checksum (wireBytes (.wV1 v)) = v1Byte v := checksum_singleton _
  have hsum2 : checksum (wireBytes (.wV2 l h)) = v2First l + h := checksum_pair _ _
  refine ⟨fun hp hc => ⟨_, hv1, ?_⟩, fun hp hc => ⟨_, hv1, ?_⟩, fun hp hc => ⟨_, hv2, ?_⟩, fun hp hc => ⟨_, hv2, ?_⟩,
    fun hp hc => ?_⟩
  · rw [exec_field_element (.inl hp) hc (.inl ⟨v, rfl⟩), exec_pStep_of_headerSize hinv hp hone hc, hsum1]
    rfl
  · rw [exec_field_element (.inr hp) hc (.inl ⟨v, rfl⟩), exec_pStep_of_headerType hinv hp hone hc, hsum1]
    rfl
  · rw [exec_field_element (.inl hp) hc (.inr ⟨l, h, rfl⟩), exec_pStep_of_headerSize hinv hp htwo hc, hsum2]
    rfl
  · rw [exec_field_element (.inr hp) hc (.inr ⟨l, h, rfl⟩), exec_pStep_of_headerType hinv hp htwo hc, hsum2]
    rfl
  · have hr : recognises s.block.p (.wV2 l h) = true := by simpa [recognises] using hp
    have hprefix : s.content <+: wireBytes (.wV2 l h) := by simp [hc, wireBytes]
    have hne : s.content ≠ wireBytes (.wV2 l h) := by simp [hc, wireBytes]
    exact exec_of_awaits (by simp [wireBytes]) (awaits_iff.mpr ⟨hr, hprefix, hne⟩)

/-! ## The checksum element -/

theorem judgeSize_event_ne_mismatch (cfg : Config) (blk : Block) :
    (judgeSize cfg blk).event ≠ some (.error .headerChecksumMismatch) := by
  rcases judgeSize_cases cfg blk with ⟨-, h⟩ | ⟨-, -, h⟩ | ⟨-, -, h⟩ <;> rw [h] <;> simp

/-- `P.HCSUM` with a byte buffered takes it, and reports a mismatch exactly where it is not the sum (R126). -/
theorem checksumTransition_of_content {s : State} {c : Byte} {rest : List Byte} (hc : s.content = c :: rest) :
    (checksumTransition s.cfg s.block).block.rb = s.block.rb.drop s.cfg ∧
      ((checksumTransition s.cfg s.block).event = some (.error .headerChecksumMismatch) ↔ c ≠ s.block.p.hdrCsum) := by
  rcases checksumTransition_cases s.cfg s.block with ⟨hs, -⟩ | ⟨-, _, rfl, ⟨hb, ht⟩ | ⟨hb, ht⟩⟩
  · exact absurd hs (size_ne_zero_of_content hc)
  · rw [byteAt_zero_of_content hc] at hb
    rw [ht, judgeSize_rb]
    simpa [hb] using ⟨rfl, judgeSize_event_ne_mismatch s.cfg _⟩
  · rw [byteAt_zero_of_content hc] at hb
    rw [ht]
    exact ⟨rfl, by simpa using hb⟩

/-- Settles O48: `W.CSUM` is at the front, so it is executed as `P.STEP`, which in this phase is `P.HCSUM`. -/
theorem checksumElementIsCompared : Obligations.ChecksumElementIsCompared := by
  intro s c rest _ hc hp
  have hfront : frontElement s.cfg s.block = some (.wCsum c) :=
    frontElement_of_byte rfl hc (by simp [recognises, hp]) (by simp)
  obtain ⟨hrb, hevent⟩ := checksumTransition_of_content hc
  refine ⟨s.finishTransition (checksumTransition s.cfg s.block), handleElement_of_front hfront, rfl, ?_, ?_⟩
  · show (checksumTransition s.cfg s.block).block.rb.content s.cfg = rest
    rw [hrb, content_drop_of_content hc]
  · simpa using hevent

/-! ## The body element -/

/-- `W.BODY` where the declared size fits: one byte is moved to the accumulator (R66, log 13). -/
theorem bodyTransition_one {cfg : Config} {blk : Block} (hs : blk.rb.size ≠ 0) (hcap : blk.p.declSize.toNat ≤ cfg.bodyCap)
    (hlt : blk.p.bodyCount < blk.p.declSize.toNat) : bodyTransition cfg 1 blk = takeBody cfg blk 1 := by
  rcases bodyTransition_cases cfg 1 blk with ⟨hs', -⟩ | ⟨-, hover, -⟩ | ⟨-, -, ht⟩
  · exact absurd hs' hs
  · omega
  · rw [ht, bodyRemainder, if_pos (Nat.le_of_lt hlt)]
    congr 1
    omega

theorem accumulated_one {cfg : Config} {blk : Block} (hs : blk.rb.size ≠ 0) : blk.accumulated cfg 1 =
    { rb := blk.rb.drop cfg
      p := { blk.p with
        bodyAcc := Memory.write .acc blk.p.bodyAcc blk.p.bodyCount (blk.rb.byteAt cfg 0)
        bodyCount := blk.p.bodyCount + 1 } } := by
  simp only [Block.accumulated, moveBody, RingBuffer.deq_of_size_ne hs]

/-- The bytes of a complete body are those accumulated before and the one just written. -/
theorem bodyCopy_write {size : Nat} {acc : Memory} (h : Memory.wf .acc size acc) (n : Nat) (b : Byte) :
    bodyCopy (Memory.write .acc acc n b) (n + 1) = (List.range n).map (Memory.read .acc acc) ++ [b] := by
  simp only [bodyCopy, List.range_succ, List.map_append, List.map_cons, List.map_nil, Memory.read_write _ _ _ _ _ h.1,
    if_true, List.append_cancel_right_eq]
  exact List.map_congr_left fun a ha => by
    rw [Memory.read_write _ _ _ _ _ h.1, if_neg (Nat.ne_of_gt (List.mem_range.mp ha))]

/-- Settles O49: `W.BODY` is at the front; above `BODY_CAP` it reports, else it moves its one byte. -/
theorem bodyElementIsStored : Obligations.BodyElementIsStored := by
  intro s b rest ⟨_, hacc, hbody⟩ hc hp
  have hs := size_ne_zero_of_content hc
  have hfront : frontElement s.cfg s.block = some (.wBody b) :=
    frontElement_of_byte rfl hc (by simp [recognises, hp]) (by simp)
  have hx : exec (.wBody b) s = .next (s.finishTransition (bodyTransition s.cfg 1 s.block)) :=
    handleElement_of_front hfront
  refine ⟨fun hover => ?_, fun hcap => ?_⟩
  · rw [hx, bodyTransition, if_neg hs, if_pos hover]
    rfl
  · obtain ⟨-, -, hlt⟩ := hbody hp
    rw [hx, bodyTransition_one hs hcap hlt]
    refine ⟨_, Memory.write .acc s.block.p.bodyAcc s.block.p.bodyCount b, rfl, ?_, ?_, ?_, fun a ha => ?_⟩
    · show (takeBody s.cfg s.block 1).block.rb.content s.cfg = rest
      rw [takeBody_rb, accumulated_one hs, content_drop_of_content hc]
    · rcases takeBody_cases s.cfg s.block 1 with ⟨hfull, ht⟩ | ⟨hfull, ht⟩ <;>
        rw [ht, accumulated_one hs, byteAt_zero_of_content hc]
      · simp only [← hfull, bodyCopy_write hacc, if_true]
        rfl
      · simp only [if_neg hfull, ← hp]
        rfl
    · rw [Memory.read_write _ _ _ _ _ hacc.1, if_pos rfl]
    · rw [Memory.read_write _ _ _ _ _ hacc.1, if_neg ha.symm]

end Sys2Proof.Machine
end

section
/-! PROOFS. The ring-buffer operations one by one (40_ring_buffer.md R80 to R87): the whole state each leaves, and that
`RB.DEQ` and `RB.UNDEQ` undo each other. -/

namespace Sys2Proof.Machine

section
variable {s : State}

/-! ## Each operation's next state, by its guard -/

theorem exec_rbAppend_of_le {data : List Byte} (h : data.length ≤ s.cfg.C - s.block.rb.size) :
    exec (.rbAppend data) s = .next (s.finish { s.block with rb := s.block.rb.extend s.cfg data } [.ok] []) := by
  simp only [exec, execRbAppend, Block.appendChunk, RingBuffer.append_of_le h]

theorem exec_rbAppend_of_lt {data : List Byte} (h : s.cfg.C - s.block.rb.size < data.length) :
    exec (.rbAppend data) s = .next (s.fail .capacityExceeded) := by
  simp only [exec, execRbAppend, Block.appendChunk, RingBuffer.append_of_lt h, State.fail]

theorem exec_rbDeq_of_size_eq (h : s.block.rb.size = 0) : exec .rbDeq s = .next (s.fail .empty) := by
  simp only [exec, execRbDeq, RingBuffer.deq_of_size_eq h]

theorem exec_rbDeq_of_size_ne (h : s.block.rb.size ≠ 0) : exec .rbDeq s =
    .next (s.finish { s.block with rb := s.block.rb.drop s.cfg } [.okByte (s.block.rb.byteAt s.cfg 0)] []) := by
  simp only [exec, execRbDeq, RingBuffer.deq_of_size_ne h]

theorem exec_rbPeek_of_le {index : Nat} (h : s.block.rb.size ≤ index) :
    exec (.rbPeek index) s = .next (s.fail .outOfRange) := by
  simp only [exec, execRbPeek, RingBuffer.peek, if_pos h, ge_iff_le]

theorem exec_rbPeek_of_lt {index : Nat} (h : index < s.block.rb.size) :
    exec (.rbPeek index) s = .next (s.finish s.block [.okByte (s.block.rb.byteAt s.cfg index)] []) := by
  simp only [exec, execRbPeek, RingBuffer.peek, if_neg (Nat.not_le.mpr h), ge_iff_le]

theorem exec_rbUndeq_of_size_eq (b : Byte) (h : s.block.rb.size = s.cfg.C) :
    exec (.rbUndeq b) s = .next (s.fail .capacityExceeded) := by
  simp only [exec, execRbUndeq, RingBuffer.undeq_of_size_eq b h]

theorem exec_rbUndeq_of_size_ne (b : Byte) (h : s.block.rb.size ≠ s.cfg.C) :
    exec (.rbUndeq b) s = .next (s.finish { s.block with rb := s.block.rb.push s.cfg b } [.ok] []) := by
  simp only [exec, execRbUndeq, RingBuffer.undeq_of_size_ne b h]

end

/-! ## The front of the ring buffer -/

theorem RingBuffer.byteAt_zero_eq_read_head {cfg : Config} {rb : RingBuffer} (h : rb.head < cfg.C) :
    rb.byteAt cfg 0 = Memory.read .rb rb.store rb.head := by
  rw [RingBuffer.byteAt, Nat.add_zero, Nat.mod_eq_of_lt h]

/-- R88: the index before 0 is `C - 1`. -/
theorem prevIndex_eq {cfg : Config} {head : Nat} (h : head < cfg.C) :
    prevIndex cfg head = if head = 0 then cfg.C - 1 else head - 1 := by
  unfold prevIndex
  split
  · next h0 => rw [h0, Nat.zero_add, Nat.mod_eq_of_lt (Nat.sub_lt (capacity_pos cfg) Nat.one_pos)]
  · rw [show head + cfg.C - 1 = head - 1 + cfg.C by omega, Nat.add_mod_right, Nat.mod_eq_of_lt (by omega)]

theorem RingBuffer.drop_push_head {cfg : Config} {rb : RingBuffer} (b : Byte) (h : rb.head < cfg.C) :
    ((rb.push cfg b).drop cfg).head = rb.head :=
  (next_prevIndex cfg rb.head 0).trans (Nat.mod_eq_of_lt h)

/-! ## The operations (R80 to R85) -/

/-- Settles O4: an emptied storage lists nothing, and an unlisted byte reads as `0x00`. -/
theorem rbInitEmptiesRing : Obligations.RbInitEmptiesRing := fun s =>
  ⟨(Laws.CommandByte.rbInit).1, s.finish { s.block with rb := s.block.rb.init } [] [], rfl,
    rfl, rfl, rfl, RingBuffer.content_init s.cfg s.block.rb, fun _ _ => rfl, rfl, rfl, rfl, rfl, rfl, rfl⟩

/-- Settles O5: an admitted chunk is one run of writes from the tail, no longer than the storage. -/
theorem rbAppendAllOrNothing : Obligations.RbAppendAllOrNothing := by
  intro s data hinv
  have ⟨_, _, _, _, hstore⟩ := hinv
  refine ⟨(Laws.CommandByte.rbAppend data).1, exec_rbAppend_of_lt, fun hle => ?_⟩
  refine ⟨_, writeRun s.cfg data s.block.rb.store s.block.rb.tail, exec_rbAppend_of_le hle, rfl,
    RingBuffer.content_extend hinv hle, fun k b hk => ?_, fun a => read_writeRun_of_ne s.cfg data _ _ a hstore⟩
  obtain ⟨hlt, rfl⟩ := List.getElem?_eq_some_iff.mp hk
  exact read_writeRun s.cfg data _ _ k hstore (Nat.le_trans hle (Nat.sub_le _ _)) hlt

/-- Settles O6: a content with a first byte has that byte at the head, and dropping it leaves the rest. -/
theorem rbDeqReturnsOldest : Obligations.RbDeqReturnsOldest := by
  intro s ⟨hhead, _⟩
  refine ⟨Laws.CommandByte.rbDeq.1, exec_rbDeq_of_size_eq, fun b rest hc => ?_⟩
  have hb : s.block.rb.byteAt s.cfg 0 = b := byteAt_zero_of_content hc
  refine ⟨_, exec_rbDeq_of_size_ne (size_ne_zero_of_content hc), ?_, content_drop_of_content hc, ?_⟩
  · rw [hb]; rfl
  · rw [← hb, RingBuffer.byteAt_zero_eq_read_head hhead]

/-- Settles O7: below `rb.size` the byte at a logical index is the content's. -/
theorem rbPeekReadsLogicalIndex : Obligations.RbPeekReadsLogicalIndex := fun _ index =>
  ⟨(Laws.CommandByte.rbPeek index).1, exec_rbPeek_of_le, fun hlt =>
    ⟨_, exec_rbPeek_of_lt hlt, RingBuffer.content_getElem? hlt, rfl⟩⟩

/-- Settles O8: the push-back writes one byte, at the index before the head. -/
theorem rbUndeqPushesBack : Obligations.RbUndeqPushesBack := by
  intro s b hinv
  have ⟨hhead, _, _, _, hrising, _⟩ := hinv
  refine ⟨(Laws.CommandByte.rbUndeq b).1, exec_rbUndeq_of_size_eq b, fun hne => ?_⟩
  refine ⟨_, prevIndex s.cfg s.block.rb.head, Memory.write .rb s.block.rb.store (prevIndex s.cfg s.block.rb.head) b,
    exec_rbUndeq_of_size_ne b hne, prevIndex_eq hhead, rfl, RingBuffer.content_push hinv b hne, ?_, fun a ha => ?_⟩
  · rw [Memory.read_write _ _ _ _ _ hrising, if_pos rfl]
  · rw [Memory.read_write _ _ _ _ _ hrising, if_neg ha.symm]

/-! ## The inverse laws (R87) -/

/-- A dequeue and the push-back of its byte restore the block. -/
theorem exec_rbDeq_rbUndeq {s : State} (h : s.block.rb.Inv s.cfg) (hne : s.block.rb.size ≠ 0) :
    ∃ t u b, exec .rbDeq s = .next t ∧ t.results = [.okByte b] ∧ exec (.rbUndeq b) t = .next u ∧
      u.block = s.block ∧ u.content = s.content := by
  have ⟨_, _, hsize, _⟩ := h
  have hroom : (s.block.rb.drop s.cfg).size ≠ s.cfg.C := by simp only [RingBuffer.drop_size]; omega
  have hback := RingBuffer.push_drop h hne
  exact ⟨_, _, _, exec_rbDeq_of_size_ne hne, rfl, exec_rbUndeq_of_size_ne _ hroom, by simp [hback], by simp [hback]⟩

/-- A push-back and a dequeue return the byte and restore cursors, size and content; the storage may keep a stale byte. -/
theorem exec_rbUndeq_rbDeq {s : State} (h : s.block.rb.Inv s.cfg) (b : Byte) (hne : s.block.rb.size ≠ s.cfg.C) :
    ∃ t u, exec (.rbUndeq b) s = .next t ∧ exec .rbDeq t = .next u ∧ u.results = [.okByte b] ∧
      u.block.rb.head = s.block.rb.head ∧ u.block.rb.tail = s.block.rb.tail ∧
      u.block.rb.size = s.block.rb.size ∧ u.content = s.content := by
  have ⟨hhead, _⟩ := h
  have hc : (s.finish { s.block with rb := s.block.rb.push s.cfg b } [.ok] []).content = b :: s.content :=
    RingBuffer.content_push h b hne
  refine ⟨_, _, exec_rbUndeq_of_size_ne b hne, exec_rbDeq_of_size_ne (size_ne_zero_of_content hc), ?_,
    RingBuffer.drop_push_head b hhead, rfl, rfl, content_drop_of_content hc⟩
  rw [State.finish_results, byteAt_zero_of_content hc]

/-- Settles O9: a non-empty ring buffer can be dequeued and the byte put back, one with room the other way round. -/
theorem deqAndUndeqAreInverse : Obligations.DeqAndUndeqAreInverse := by
  intro s h
  have hC := capacity_pos s.cfg
  exact ⟨fun hsize => exec_rbDeq_rbUndeq h (by omega), fun b hsize => exec_rbUndeq_rbDeq h b (by omega)⟩

end Sys2Proof.Machine
end

section
/-! PROOFS. The field decoder and the reference encoder (41_varint_codec.md R100 to R105). -/

namespace Sys2Proof.Machine

/-! ## Decoding (R101 to R103) -/

/-- The state after `VL.DEC` took the bytes `raw` as a field of value `v`: head and size moved by their number, the value,
the number and the sum returned (R101). -/
def State.decoded (s : State) (raw : List Byte) (v : Field) : State :=
  { s with
    block := { s.block with rb := { s.block.rb with
      head := (s.block.rb.head + raw.length) % s.cfg.C, size := s.block.rb.size - raw.length } }
    results := [.okField v raw.length (checksum raw)], events := [] }

/-- `VL.DEC` takes as many bytes from the front as a transition that consumes the field. -/
theorem State.decoded_content {s : State} {raw rest : List Byte} (hc : s.content = raw ++ rest) (v : Field) :
    (s.decoded raw v).content = rest :=
  calc (s.decoded raw v).content
    _ = s.content.drop raw.length := s.consumed_content raw.length s.block.p
    _ = rest := by rw [hc, List.drop_left]

theorem exec_vlDec_of_isField {s : State} {raw rest : List Byte} {v : Field} (h : s.block.rb.Inv s.cfg)
    (hf : IsField raw v) (hc : s.content = raw ++ rest) : exec .vlDec s = .next (s.decoded raw v) := by
  simp only [exec, execVlDec, decodeField_of_isField h hf hc]
  rfl

/-- R101: an incomplete field is left in the ring buffer. -/
theorem decodeField_of_incomplete {cfg : Config} {rb : RingBuffer} (h : rb.Inv cfg)
    (hc : rb.content cfg = [] ∨ ∃ b0, rb.content cfg = [b0] ∧ continues b0 = true) :
    decodeField cfg rb = (rb, .error .insufficientData) := by
  rcases decodeField_cases_content h with ⟨-, hd⟩ | ⟨b, -, hn, hb, -⟩ | ⟨b, b', -, -, hn, -⟩
  · exact hd
  · simp [hn, hb] at hc
  · simp [hn] at hc

theorem exec_vlDec_of_incomplete {s : State} (h : s.block.rb.Inv s.cfg)
    (hc : s.content = [] ∨ ∃ b0, s.content = [b0] ∧ continues b0 = true) :
    exec .vlDec s = .next (s.fail .insufficientData) := by
  simp only [exec, execVlDec, decodeField_of_incomplete h hc]
  rfl

/-- Settles O14: bit 7 of the first byte says whether the front is a field of one byte or of two, or an incomplete one. -/
theorem vlDecDecodesOrRestores : Obligations.VlDecDecodesOrRestores := by
  intro s h
  refine ⟨Laws.CommandByte.vlDec.1, fun b0 rest hc hb => ?one, fun b0 b1 rest hc hb => ?two, fun hc => ?incomplete⟩
  case one =>
    have hf : IsField [b0] (fieldOne b0) := .one b0 (by simpa [continues_eq] using hb)
    refine ⟨_, fieldOne b0, exec_vlDec_of_isField h hf hc, fieldOne_toNat b0, ?_, State.decoded_content hc _⟩
    rw [State.decoded, checksum_singleton]
    rfl
  case two =>
    have hf : IsField [b0, b1] (fieldTwo b0 b1) := .two b0 b1 (by simpa [continues_eq] using hb)
    refine ⟨_, fieldTwo b0 b1, exec_vlDec_of_isField h hf hc, ?_, ?_, State.decoded_content hc _⟩
    · rw [fieldTwo_toNat]
      omega
    · rw [State.decoded, checksum_pair]
      rfl
  case incomplete =>
    exact exec_vlDec_of_incomplete h (by simpa [continues_eq] using hc)

/-- Settles O15, by the branches of `VL.DEC`: its two dequeues read the first two logical indices, and its push-back
restores what the look-ahead form has not touched. -/
theorem vlDecEqualsLookAhead : Obligations.VlDecEqualsLookAhead := by
  intro cfg rb h
  rcases decodeField_cases cfg rb with ⟨hs, hd⟩ | ⟨hs, hb, hd⟩ | ⟨hs, hb, hd⟩ | ⟨hs, hb, b1, rfl, hd⟩ <;> rw [hd]
  · simp [decodeFieldAhead, hs]
  · simp [decodeFieldAhead, hs, hb, checksum_singleton]
  · have hback : rollBack cfg (rb.drop cfg) (rb.byteAt cfg 0) = rb := rollBack_drop h (by omega)
    refine (congrArg (·, Except.error Failure.insufficientData) hback).trans ?_
    simp [decodeFieldAhead, hs, hb]
  · have hne : rb.size ≠ 0 := by omega
    have hsecond : Memory.read .rb rb.store (((rb.head + 1) % cfg.C + 0) % cfg.C) = rb.byteAt cfg 1 :=
      RingBuffer.byteAt_drop cfg rb 0
    rw [hsecond]
    simp [decodeFieldAhead, hne, Nat.not_lt.mpr hs, hb, checksum_pair, Nat.sub_sub, Nat.add_assoc]

/-! ## Encoding (R104) -/

theorem encodeField_of_lt {v : Nat} (h : v < 128) : encodeField v = some [BitVec.ofNat 8 v] := if_pos h

/-- The first of two bytes is that of a `W.V2` element (R63), the marker bit set. -/
theorem encodeField_of_ge {v : Nat} (hge : 128 ≤ v) (hle : v ≤ 32767) :
    encodeField v = some [v2First (BitVec.ofNat 7 v), BitVec.ofNat 8 (v / 128)] := by
  have hlow : BitVec.ofNat 8 (v % 128) = (BitVec.ofNat 7 v).setWidth 8 := BitVec.eq_of_toNat_eq (by simp)
  rw [encodeField, if_neg (Nat.not_lt.mpr hge), if_pos hle, hlow, v2First]

theorem encodeField_of_gt {v : Nat} (h : 32767 < v) : encodeField v = none := by
  rw [encodeField, if_neg (by omega), if_neg (Nat.not_le.mpr h)]

/-- R71: `ENC v` stands for the bytes of `VL.ENC v`. -/
theorem exec_encode {v : Nat} {i : Instr} (hi : i = .vlEnc v ∨ i = .enc v) (s : State) :
    exec i s = deliver (encodeField v) (.notEncodable v) s := by
  rcases hi with rfl | rfl <;> rfl

/-- Settles O52, range by range: each byte is known by its value. -/
theorem vlEncGivesCanonicalForm : Obligations.VlEncGivesCanonicalForm := by
  intro s v i hi
  rw [exec_encode hi]
  refine ⟨fun hlt => ⟨_, ?_, by rw [encodeField_of_lt hlt]; rfl⟩,
    fun hge hle => ⟨_, _, ?_, ?_, by rw [encodeField_of_ge hge hle]; rfl⟩, fun hgt => by rw [encodeField_of_gt hgt]; rfl⟩
  · rw [BitVec.toNat_ofNat, Nat.mod_eq_of_lt (by omega)]
  · rw [v2First_toNat, BitVec.toNat_ofNat]
  · rw [BitVec.toNat_ofNat, Nat.mod_eq_of_lt (by omega)]

/-! ## The round trip (R105) -/

/-- The bytes of `VL.ENC v` are one field of value `v`. -/
theorem encodeField_isField {v : Nat} (h : v ≤ 32767) :
    ∃ raw, encodeField v = some raw ∧ raw.length = (if v < 128 then 1 else 2) ∧ IsField raw (BitVec.ofNat 15 v) := by
  by_cases hlt : v < 128
  · have hbyte : (BitVec.ofNat 8 v).toNat = v := by rw [BitVec.toNat_ofNat, Nat.mod_eq_of_lt (by omega)]
    have hvalue : fieldOne (BitVec.ofNat 8 v) = BitVec.ofNat 15 v := BitVec.eq_of_toNat_eq <| by
      rw [fieldOne_toNat, hbyte, BitVec.toNat_ofNat, Nat.mod_eq_of_lt (by omega)]
    refine ⟨_, encodeField_of_lt hlt, (if_pos hlt).symm, hvalue ▸ .one _ ?_⟩
    rw [continues_eq, hbyte]
    exact decide_eq_false (Nat.not_le.mpr hlt)
  · have hvalue : fieldTwo (v2First (BitVec.ofNat 7 v)) (BitVec.ofNat 8 (v / 128)) = BitVec.ofNat 15 v :=
      BitVec.eq_of_toNat_eq <| by
        simp only [fieldTwo_toNat, v2First_toNat, BitVec.toNat_ofNat]
        omega
    exact ⟨_, encodeField_of_ge (Nat.not_lt.mp hlt) h, (if_neg hlt).symm, hvalue ▸ .two _ _ (continues_v2First _)⟩

/-- Settles O16: the bytes encoded are a field of the value, and a field at the front is decoded and taken. -/
theorem vlDecInvertsVlEnc : Obligations.VlDecInvertsVlEnc := by
  intro s v rest h hv
  obtain ⟨raw, henc, hlen, hf⟩ := encodeField_isField hv
  refine ⟨s.finish s.block [.bytes raw] [], raw, ?_, rfl, hlen, fun hc => ?_⟩
  · rw [exec_encode (.inl rfl), henc]
    rfl
  · exact ⟨_, exec_vlDec_of_isField h hf hc, rfl, State.decoded_content hc _⟩

end Sys2Proof.Machine
end

section
/-! PROOFS. The frame builder (42_frame_builder.md R110, R111; 30_encoding.md R71): the bytes it gives, and where it gives
none. -/

namespace Sys2Proof.Machine

/-! ## The bytes of a frame -/

theorem buildFrame_of_encodeField {cfg : Config} {body es et : List Byte} {type : Nat}
    (hes : encodeField body.length = some es) (het : encodeField type = some et) :
    buildFrame cfg body type body.length =
      some (cfg.sync0 :: cfg.sync1 :: cfg.sync2 :: (es ++ et ++ checksum (es ++ et) :: body)) := by
  simp [buildFrame, hes, het]

/-- R71: `FRAME` stands for the bytes of `FB.BUILD` with the body's length as size. -/
theorem exec_build {i : Instr} {body : List Byte} {type : Nat}
    (hi : i = .fbBuild body type body.length ∨ i = .frame type body) (s : State) :
    exec i s = deliver (buildFrame s.cfg body type body.length) (.notBuildable type body.length) s := by
  rcases hi with rfl | rfl <;> rfl

/-- Settles O53: within R111 both fields have an encoding, and the frame is put together from these. -/
theorem fbBuildGivesFrame : Obligations.FbBuildGivesFrame := by
  intro s body type htype hbody
  obtain ⟨es, hes, -, -⟩ := encodeField_isField hbody
  obtain ⟨et, het, -, -⟩ := encodeField_isField htype
  refine ⟨s.finish s.block [.bytes es] [], s.finish s.block [.bytes et] [], es, et, ?_, rfl, ?_, rfl, fun i hi => ?_⟩
  · rw [exec_encode (.inl rfl), hes]
    rfl
  · rw [exec_encode (.inl rfl), het]
    rfl
  · rw [exec_build hi, buildFrame_of_encodeField hes het]
    rfl

/-! ## The preconditions (R111) -/

theorem encodeField_isSome (v : Nat) : (encodeField v).isSome = encodable v := by
  unfold encodable
  rcases Nat.lt_or_ge 32767 v with hgt | hle
  · simp [encodeField_of_gt hgt, hgt]
  · obtain ⟨raw, henc, -, -⟩ := encodeField_isField hle
    simp [henc, hle]

/-- `FB.BUILD` has a value exactly within its preconditions. -/
theorem buildFrame_isSome (cfg : Config) (body : List Byte) (type size : Nat) :
    (buildFrame cfg body type size).isSome = buildable body type size := by
  simp only [buildable, ← encodeField_isSome, buildFrame]
  by_cases hlen : body.length = size
  · cases encodeField size <;> cases encodeField type <;> simp [hlen]
  · simp [hlen]

theorem deliver_of_isSome_false {bs : Option (List Byte)} (h : bs.isSome = false) (r : Refusal) (s : State) :
    deliver bs r s = .refused r := by
  rw [Option.isSome_eq_false_iff, Option.isNone_iff_eq_none] at h
  rw [h]
  rfl

theorem deliver_of_isSome {bs : Option (List Byte)} (h : bs.isSome = true) (r : Refusal) (s : State) :
    ∃ t, deliver bs r s = .next t := by
  obtain ⟨bs, rfl⟩ := Option.isSome_iff_exists.mp h
  exact ⟨_, rfl⟩

theorem buildable_eq_false_iff {body : List Byte} {type size : Nat} :
    buildable body type size = false ↔ body.length ≠ size ∨ 32767 < size ∨ 32767 < type := by
  simp only [buildable, encodable, vmax, Bool.and_eq_false_iff, decide_eq_false_iff_not]
  omega

/-- Settles O54: both operations deliver what `buildFrame` answers, which is a value exactly within R111. -/
theorem fbBuildRefusedOutsideDomain : Obligations.FbBuildRefusedOutsideDomain := by
  intro s body type size
  have hbuild (size : Nat) := buildFrame_isSome s.cfg body type size
  exact ⟨fun hout => deliver_of_isSome_false ((hbuild size).trans (buildable_eq_false_iff.mpr hout)) _ s,
    fun hout => deliver_of_isSome_false ((hbuild body.length).trans (buildable_eq_false_iff.mpr (.inr hout))) _ s,
    fun hin => deliver_of_isSome ((hbuild size).trans hin) _ s,
    fun hin => deliver_of_isSome ((hbuild body.length).trans hin) _ s⟩

end Sys2Proof.Machine
end

section
/-! PROOFS. The round trip of a conformant frame (42_frame_builder.md R112): what the parser still expects of the frame, that
every transition takes the bytes it expects, and so that the packet comes with the last byte. -/

namespace Sys2Proof.Machine

/-! ## Buffered bytes as the beginning of a stream -/

variable {cfg : Config}

/-- Taking `n` bytes leaves the content after them. -/
theorem RingBuffer.content_advance (rb : RingBuffer) (n : Nat) :
    ({ rb with head := (rb.head + n) % cfg.C, size := rb.size - n } : RingBuffer).content cfg =
      (rb.content cfg).drop n :=
  State.consumed_content { State.resetWith cfg with block := { rb := rb, p := .reset } } n .reset

/-- A byte buffered and expected is at the front. -/
theorem front_of_stream {rb : RingBuffer} {b : Byte} {future rest : List Byte} (hs : rb.size ≠ 0)
    (hc : rb.content cfg ++ future = b :: rest) :
    rb.byteAt cfg 0 = b ∧ (rb.drop cfg).content cfg ++ future = rest := by
  rw [RingBuffer.content_drop hs, List.cons_append] at hc
  exact List.cons.inj hc

/-- A field expected is decoded and taken, or bytes of it are missing. -/
theorem decodeField_of_stream {rb : RingBuffer} {raw future rest : List Byte} {v : Field} (h : rb.Inv cfg)
    (hs : rb.size ≠ 0) (hf : IsField raw v) (hc : rb.content cfg ++ future = raw ++ rest) :
    (decodeField cfg rb = (rb, .error .insufficientData) ∧ future ≠ []) ∨
      ∃ rb', decodeField cfg rb = (rb', .ok { value := v, n := raw.length, sum := checksum raw }) ∧
        rb'.content cfg ++ future = rest := by
  by_cases hlen : raw.length ≤ rb.size
  · obtain ⟨buffered, hraw⟩ : raw <+: rb.content cfg :=
      List.prefix_of_prefix_length_le ⟨rest, hc.symm⟩ (List.prefix_append ..) (by simpa using hlen)
    refine .inr ⟨_, decodeField_of_isField h hf hraw.symm, ?_⟩
    rw [← hraw, List.append_assoc] at hc
    rw [RingBuffer.content_advance, ← hraw, List.drop_left]
    exact List.append_cancel_left hc
  · have hfuture : future ≠ [] := by
      rintro rfl
      have hcount := congrArg List.length hc
      simp only [List.length_append, RingBuffer.content_length, List.length_nil] at hcount
      omega
    refine .inl ⟨decodeField_of_incomplete h (.inr ?_), hfuture⟩
    cases hf with
    | one => simp only [List.length_singleton] at hlen; omega
    | two b0 b1 hb =>
      have hone : (rb.drop cfg).size = 0 := by
        simp only [List.length_cons, List.length_nil] at hlen
        simp only [RingBuffer.drop_size]
        omega
      obtain ⟨hfront, -⟩ := front_of_stream hs hc
      exact ⟨b0, by rw [RingBuffer.content_drop hs, hfront, RingBuffer.content_of_size_eq hone], hb⟩

/-- `n` buffered bytes moved to the accumulator from index `i` on: the content is what follows them, and the accumulator's
first `i + n` bytes are those before and the ones moved. -/
theorem moveBody_content {size n i : Nat} {rb : RingBuffer} {acc : Memory} (hacc : Memory.wf .acc size acc)
    (hn : n ≤ rb.size) (hroom : i + n ≤ size) :
    (moveBody cfg n rb acc i).1.content cfg = (rb.content cfg).drop n ∧
      bodyCopy (moveBody cfg n rb acc i).2 (i + n) = bodyCopy acc i ++ (rb.content cfg).take n := by
  induction n generalizing rb acc i with
  | zero => simp [moveBody]
  | succ n ih =>
    have hs : rb.size ≠ 0 := by omega
    have hwf := Memory.wf_write .acc size acc i (rb.byteAt cfg 0) hacc (by omega)
    obtain ⟨hcontent, hcopy⟩ := ih (rb := rb.drop cfg) (i := i + 1) hwf
      (by simp only [RingBuffer.drop_size]; omega) (by omega)
    simp only [moveBody, RingBuffer.deq_of_size_ne hs, RingBuffer.content_drop hs]
    refine ⟨hcontent, ?_⟩
    rw [Nat.add_comm n 1, ← Nat.add_assoc, hcopy, bodyCopy_write hacc]
    simp [bodyCopy, Nat.add_comm 1 n]

/-! ## Conformant frames (R110) -/

/-- A frame that the parser of this configuration accepts, its size and type field as raw bytes. -/
structure ConformantFrame (cfg : Config) where
  type : Field
  body : List Byte
  rawSize : List Byte
  rawType : List Byte
  size_isField : IsField rawSize (BitVec.ofNat 15 body.length)
  type_isField : IsField rawType type
  le_maxBody : body.length ≤ cfg.maxBody.toNat
  le_bodyCap : body.length ≤ cfg.bodyCap

namespace ConformantFrame

/-- The declared size. -/
def size (fr : ConformantFrame cfg) : Field := BitVec.ofNat 15 fr.body.length

/-- The header checksum byte (R65). -/
def sum (fr : ConformantFrame cfg) : Byte := checksum (fr.rawSize ++ fr.rawType)

/-- The bytes on the wire. -/
def bytes (fr : ConformantFrame cfg) : List Byte :=
  cfg.sync0 :: cfg.sync1 :: cfg.sync2 :: (fr.rawSize ++ (fr.rawType ++ fr.sum :: fr.body))

/-- The event that reports the frame. -/
def packet (fr : ConformantFrame cfg) : Event := .packet fr.type fr.size fr.body

@[simp] theorem size_toNat (fr : ConformantFrame cfg) : fr.size.toNat = fr.body.length := by
  have hle := fr.le_maxBody
  have hlt := cfg.maxBody.isLt
  rw [size, BitVec.toNat_ofNat, Nat.mod_eq_of_lt (by omega)]

/-- From the cursor's place on, the frame begins with the marker byte looked for. -/
theorem bytes_drop_cursor (fr : ConformantFrame cfg) (k : Fin 3) :
    fr.bytes.drop k.val = markerByte cfg k :: fr.bytes.drop (k.val + 1) := by
  match k with
  | 0 => rfl
  | 1 => rfl
  | 2 => rfl

/-- What `FRAME` returns within the parser's limits is such a frame. -/
theorem exists_of_exec_frame {s f : State} {type : Nat} {body frame : List Byte} (htype : type ≤ 32767)
    (hmax : body.length ≤ s.cfg.maxBody.toNat) (hcap : body.length ≤ s.cfg.bodyCap)
    (hf : exec (.frame type body) s = .next f) (hframe : f.results = [.bytes frame]) :
    ∃ fr : ConformantFrame s.cfg, fr.bytes = frame ∧
      fr.packet = .packet (BitVec.ofNat 15 type) (BitVec.ofNat 15 body.length) body := by
  have hbody : body.length ≤ 32767 := by
    have hlt := s.cfg.maxBody.isLt
    omega
  obtain ⟨es, hes, -, hsize⟩ := encodeField_isField hbody
  obtain ⟨et, het, -, htype⟩ := encodeField_isField htype
  rw [exec_build (.inr rfl), buildFrame_of_encodeField hes het] at hf
  cases hf
  cases hframe
  exact ⟨⟨_, body, es, et, hsize, htype, hmax, hcap⟩, by simp [bytes, sum], rfl⟩

/-! ## What is still expected of a frame -/

/-- Within the frame, the parser `p` still expects these bytes of it. -/
inductive Expects (fr : ConformantFrame cfg) (p : Parser) : List Byte → Prop where
  | marker (hp : p.phase = .sync) : Expects fr p (fr.bytes.drop p.syncCursor.val)
  | size (hp : p.phase = .headerSize) (hcursor : p.syncCursor = 0) (hsum : p.hdrCsum = 0#8) :
      Expects fr p (fr.rawSize ++ (fr.rawType ++ fr.sum :: fr.body))
  | type (hp : p.phase = .headerType) (hcursor : p.syncCursor = 0) (hsum : p.hdrCsum = checksum fr.rawSize)
      (hsize : p.declSize = fr.size) : Expects fr p (fr.rawType ++ fr.sum :: fr.body)
  | csum (hp : p.phase = .headerChecksum) (hcursor : p.syncCursor = 0) (hsum : p.hdrCsum = fr.sum)
      (hsize : p.declSize = fr.size) (htype : p.declType = fr.type) : Expects fr p (fr.sum :: fr.body)
  | body (hp : p.phase = .body) (hcursor : p.syncCursor = 0) (hsize : p.declSize = fr.size)
      (htype : p.declType = fr.type) {rest : List Byte} (hne : rest ≠ [])
      (hacc : bodyCopy p.bodyAcc p.bodyCount ++ rest = fr.body) : Expects fr p rest

theorem Expects.ne_nil {fr : ConformantFrame cfg} {p : Parser} {stream : List Byte} (h : fr.Expects p stream) :
    stream ≠ [] := by
  cases h with
  | marker => simp [bytes_drop_cursor]
  | size | type | csum => simp
  | body _ _ _ _ hne => exact hne

/-- Since the frame began, the block has emitted `es`, and of the frame it is still to be given `future`: either nothing is
emitted and what is buffered and to come is expected, or the packet is emitted, nothing is left, and the parser is back
where it began. -/
def Within (fr : ConformantFrame cfg) (blk : Block) (future : List Byte) (es : List Event) : Prop :=
  (es = [] ∧ fr.Expects blk.p (blk.rb.content cfg ++ future)) ∨
    (es = [fr.packet] ∧ blk.p.phase = .sync ∧ blk.p.syncCursor = 0 ∧ blk.rb.content cfg ++ future = [])

theorem within_start (fr : ConformantFrame cfg) {blk : Block} (hp : blk.p.phase = .sync) (hcursor : blk.p.syncCursor = 0)
    (hs : blk.rb.size = 0) : fr.Within blk fr.bytes [] := by
  have hexp := Expects.marker (fr := fr) hp
  rw [hcursor] at hexp
  refine .inl ⟨rfl, ?_⟩
  rw [RingBuffer.content_of_size_eq hs]
  exact hexp

theorem Within.events_eq_nil {fr : ConformantFrame cfg} {blk : Block} {future : List Byte} {es : List Event}
    (h : fr.Within blk future es) (hne : future ≠ []) : es = [] := by
  rcases h with ⟨hes, -⟩ | ⟨-, -, -, hnil⟩
  · exact hes
  · exact absurd (List.append_eq_nil_iff.mp hnil).2 hne

theorem Within.complete {fr : ConformantFrame cfg} {blk : Block} {es : List Event} (h : fr.Within blk [] es)
    (hs : blk.rb.size = 0) : es = [fr.packet] ∧ blk.p.phase = .sync ∧ blk.p.syncCursor = 0 := by
  rcases h with ⟨-, hexp⟩ | ⟨hes, hp, hcursor, -⟩
  · exact absurd (by simp [RingBuffer.content_of_size_eq hs]) hexp.ne_nil
  · exact ⟨hes, hp, hcursor⟩

/-! ## Each transition takes what is expected -/

/-- The transition keeps to the frame, and suspends only where bytes are missing. -/
def Follows (fr : ConformantFrame cfg) (future : List Byte) (t : Transition) : Prop :=
  fr.Within t.block future t.event.toList ∧ (t.verdict = .suspend → future ≠ [])

theorem follows_progress {fr : ConformantFrame cfg} {blk : Block} {future : List Byte}
    (h : fr.Expects blk.p (blk.rb.content cfg ++ future)) : fr.Follows future blk.progress :=
  ⟨.inl ⟨rfl, h⟩, nofun⟩

theorem follows_suspend {fr : ConformantFrame cfg} {blk : Block} {future : List Byte}
    (h : fr.Expects blk.p (blk.rb.content cfg ++ future)) (hne : future ≠ []) : fr.Follows future blk.suspend :=
  ⟨.inl ⟨rfl, h⟩, fun _ => hne⟩

/-- R127, R128: the packet is emitted with the frame's last byte. -/
theorem follows_emitPacket {fr : ConformantFrame cfg} {blk : Block} {future : List Byte} {len : Field} {body : List Byte}
    (hcursor : blk.p.syncCursor = 0) (htype : blk.p.declType = fr.type) (hlen : len = fr.size) (hbody : body = fr.body)
    (hnil : blk.rb.content cfg ++ future = []) : fr.Follows future (blk.emitPacket len body) := by
  refine ⟨.inr ⟨?_, rfl, hcursor, hnil⟩, nofun⟩
  simp [packet, htype, hlen, hbody]

section
variable {fr : ConformantFrame cfg} {blk : Block} {future : List Byte}

/-- R123: the byte looked for is the one that comes. -/
theorem follows_sync (hs : blk.rb.size ≠ 0) (hp : blk.p.phase = .sync)
    (hc : blk.rb.content cfg ++ future = fr.bytes.drop blk.p.syncCursor.val) :
    fr.Follows future (syncTransition cfg blk) := by
  obtain ⟨hfront, hrest⟩ := front_of_stream hs (hc.trans (bytes_drop_cursor fr _))
  rcases syncTransition_cases cfg blk with ⟨hs', -⟩ | ⟨-, ht⟩
  · exact absurd hs' hs
  rw [ht]
  refine follows_progress ?_
  show fr.Expects _ ((blk.rb.drop cfg).content cfg ++ future)
  rw [hrest]
  rcases blk.p.matchMarker_cases cfg (blk.rb.byteAt cfg 0) with ⟨-, hk, hm⟩ | ⟨-, hk, hm⟩ | ⟨hne, -⟩
  · rw [hm, hk]
    exact .size rfl rfl rfl
  · have hnext : blk.p.syncCursor.val + 1 = (blk.p.syncCursor + 1).val := by
      generalize blk.p.syncCursor = k at hk
      revert k
      decide
    rw [hm, hnext]
    exact .marker hp
  · exact absurd hfront hne

/-- R124: the size field starts the header checksum. -/
theorem follows_size (h : blk.rb.Inv cfg) (hs : blk.rb.size ≠ 0) (hp : blk.p.phase = .headerSize)
    (hcursor : blk.p.syncCursor = 0) (hsum : blk.p.hdrCsum = 0#8)
    (hc : blk.rb.content cfg ++ future = fr.rawSize ++ (fr.rawType ++ fr.sum :: fr.body)) :
    fr.Follows future (sizeTransition cfg blk) := by
  unfold sizeTransition
  rcases decodeField_of_stream h hs fr.size_isField hc with ⟨hd, hne⟩ | ⟨rb', hd, hrest⟩ <;> rw [hd]
  · exact follows_suspend (hc ▸ .size hp hcursor hsum) hne
  · exact follows_progress (hrest ▸ .type rfl hcursor (by simp [hsum, accumulate]) rfl)

/-- R125: the type field completes the header checksum. -/
theorem follows_type (h : blk.rb.Inv cfg) (hs : blk.rb.size ≠ 0) (hp : blk.p.phase = .headerType)
    (hcursor : blk.p.syncCursor = 0) (hsum : blk.p.hdrCsum = checksum fr.rawSize) (hsize : blk.p.declSize = fr.size)
    (hc : blk.rb.content cfg ++ future = fr.rawType ++ fr.sum :: fr.body) :
    fr.Follows future (typeTransition cfg blk) := by
  unfold typeTransition
  rcases decodeField_of_stream h hs fr.type_isField hc with ⟨hd, hne⟩ | ⟨rb', hd, hrest⟩ <;> rw [hd]
  · exact follows_suspend (hc ▸ .type hp hcursor hsum hsize) hne
  · exact follows_progress (hrest ▸ .csum rfl hcursor (by simp [hsum, accumulate, sum, checksum_append]) hsize rfl)

/-- R127: a conformant header is judged empty, which is its packet, or begins the body. -/
theorem follows_judgeSize (hcursor : blk.p.syncCursor = 0) (hsize : blk.p.declSize = fr.size)
    (htype : blk.p.declType = fr.type) (hc : blk.rb.content cfg ++ future = fr.body) :
    fr.Follows future (judgeSize cfg blk) := by
  have hmax := fr.le_maxBody
  have hzero : fr.size = 0#15 ↔ fr.body = [] := by
    rw [← List.length_eq_zero_iff, ← size_toNat, BitVec.toNat_eq]
    rfl
  rcases judgeSize_cases cfg blk with ⟨hover, -⟩ | ⟨-, hempty, ht⟩ | ⟨-, hbody, ht⟩
  · rw [hsize, size_toNat] at hover
    omega
  · rw [hsize] at hempty
    rw [ht]
    exact follows_emitPacket hcursor htype hempty.symm (hzero.mp hempty).symm (hc.trans (hzero.mp hempty))
  · rw [ht]
    refine follows_progress ?_
    rw [hsize, Ne, hzero, ← hc] at hbody
    exact .body (p := { blk.p with bodyCount := 0, phase := .body }) rfl hcursor hsize htype hbody hc

/-- R126: the checksum byte that comes is the sum accumulated. -/
theorem follows_csum (hs : blk.rb.size ≠ 0) (hcursor : blk.p.syncCursor = 0) (hsum : blk.p.hdrCsum = fr.sum)
    (hsize : blk.p.declSize = fr.size) (htype : blk.p.declType = fr.type)
    (hc : blk.rb.content cfg ++ future = fr.sum :: fr.body) : fr.Follows future (checksumTransition cfg blk) := by
  obtain ⟨hfront, hrest⟩ := front_of_stream hs hc
  rcases checksumTransition_cases cfg blk with ⟨hs', -⟩ | ⟨-, _, rfl, ⟨-, ht⟩ | ⟨hne, -⟩⟩
  · exact absurd hs' hs
  · rw [ht]
    exact follows_judgeSize hcursor hsize htype hrest
  · exact absurd (hfront.trans hsum.symm) hne

/-- R128: all the bytes buffered are moved, and they complete the body exactly where no more are to come. -/
theorem follows_takeBody (hacc : blk.p.AccInv cfg) (hp : blk.p.phase = .body) (hcursor : blk.p.syncCursor = 0)
    (hsize : blk.p.declSize = fr.size) (htype : blk.p.declType = fr.type)
    (hbody : bodyCopy blk.p.bodyAcc blk.p.bodyCount ++ (blk.rb.content cfg ++ future) = fr.body)
    (hlen : blk.p.bodyCount + blk.rb.size + future.length = blk.p.declSize.toNat)
    (hcap : blk.p.declSize.toNat ≤ cfg.bodyCap) : fr.Follows future (takeBody cfg blk blk.rb.size) := by
  obtain ⟨hleft, hcopy⟩ := moveBody_content (n := blk.rb.size) (i := blk.p.bodyCount) hacc (Nat.le_refl _) (by omega)
  have hnone : (blk.accumulated cfg blk.rb.size).rb.content cfg = [] := hleft.trans (List.drop_of_length_le (by simp))
  have hall : bodyCopy (blk.accumulated cfg blk.rb.size).p.bodyAcc (blk.p.bodyCount + blk.rb.size) ++ future =
      fr.body := by
    rw [← hbody, ← List.append_assoc, ← List.take_of_length_le (l := blk.rb.content cfg) (i := blk.rb.size) (by simp)]
    exact congrArg (· ++ future) hcopy
  rcases takeBody_cases cfg blk blk.rb.size with ⟨hfull, ht⟩ | ⟨hfull, ht⟩ <;> rw [ht]
  · obtain rfl : future = [] := List.length_eq_zero_iff.mp (by omega)
    rw [hfull, List.append_nil] at hall
    exact follows_emitPacket hcursor htype hsize hall (by rw [hnone]; rfl)
  · have hne : future ≠ [] := fun hnil => hfull (by simpa [hnil] using hlen)
    refine follows_progress ?_
    rw [hnone]
    exact .body (p := (blk.accumulated cfg blk.rb.size).p) hp hcursor hsize htype hne hall

/-- R128: all the bytes buffered belong to the body, which the accumulator has room for. -/
theorem follows_body (hacc : blk.p.AccInv cfg) (hs : blk.rb.size ≠ 0) (hp : blk.p.phase = .body)
    (hcursor : blk.p.syncCursor = 0) (hsize : blk.p.declSize = fr.size) (htype : blk.p.declType = fr.type)
    (hbody : bodyCopy blk.p.bodyAcc blk.p.bodyCount ++ (blk.rb.content cfg ++ future) = fr.body) :
    fr.Follows future (bodyTransition cfg blk.rb.size blk) := by
  have hcap := fr.le_bodyCap
  have hdecl : blk.p.declSize.toNat = fr.body.length := by rw [hsize, size_toNat]
  have hlen : blk.p.bodyCount + (blk.rb.size + future.length) = fr.body.length := by
    simpa [bodyCopy] using congrArg List.length hbody
  rcases bodyTransition_cases cfg blk.rb.size blk with ⟨hs', -⟩ | ⟨-, hover, -⟩ | ⟨-, hroom, ht⟩
  · exact absurd hs' hs
  · omega
  · have htake : min (min blk.rb.size blk.rb.size) (bodyRemainder cfg blk.p) = blk.rb.size := by
      rw [bodyRemainder, if_pos (by omega)]
      omega
    rw [ht, htake]
    exact follows_takeBody hacc hp hcursor hsize htype hbody (by omega) hroom

/-- Within the frame, every transition on a buffered byte keeps to it. -/
theorem follows_transition (h : blk.rb.Inv cfg) (hacc : blk.p.AccInv cfg) (hs : blk.rb.size ≠ 0)
    (hexp : fr.Expects blk.p (blk.rb.content cfg ++ future)) : fr.Follows future (transition cfg blk) := by
  generalize hc : blk.rb.content cfg ++ future = stream at hexp
  unfold transition
  cases hexp with
  | marker hp =>
    rw [hp]
    exact follows_sync hs hp hc
  | size hp hcursor hsum =>
    rw [hp]
    exact follows_size h hs hp hcursor hsum hc
  | type hp hcursor hsum hsize =>
    rw [hp]
    exact follows_type h hs hp hcursor hsum hsize hc
  | csum hp hcursor hsum hsize htype =>
    rw [hp]
    exact follows_csum hs hcursor hsum hsize htype hc
  | body hp hcursor hsize htype _ hbody =>
    rw [hp]
    exact follows_body hacc hs hp hcursor hsize htype (hc ▸ hbody)

/-- A byte is buffered only before the packet. -/
theorem Within.follows {es : List Event} (h : fr.Within blk future es) (hrb : blk.rb.Inv cfg) (hacc : blk.p.AccInv cfg)
    (hs : blk.rb.size ≠ 0) : es = [] ∧ fr.Follows future (transition cfg blk) := by
  rcases h with ⟨hes, hexp⟩ | ⟨-, -, -, hnil⟩
  · exact ⟨hes, follows_transition hrb hacc hs hexp⟩
  · rw [RingBuffer.content_drop hs] at hnil
    cases hnil

end

end ConformantFrame

/-! ## A drive, and a drive after every chunk -/

/-- All that a drive loop that returns has done. -/
theorem driveLoop_some_cases {n : Nat} {blk blk' : Block} {es : List Event}
    (h : driveLoop cfg n blk = some (blk', es)) :
    (blk.rb.size = 0 ∧ blk' = blk ∧ es = []) ∨
      (blk.rb.size ≠ 0 ∧ (transition cfg blk).verdict = .suspend ∧ blk' = (transition cfg blk).block ∧
        es = (transition cfg blk).event.toList) ∨
      (blk.rb.size ≠ 0 ∧ (transition cfg blk).verdict = .progress ∧ ∃ m fs, n = m + 1 ∧
        driveLoop cfg m (transition cfg blk).block = some (blk', fs) ∧ es = (transition cfg blk).event.toList ++ fs) := by
  cases n with
  | zero =>
    simp only [driveLoop] at h
    split at h <;> cases h
    exact .inl ⟨by assumption, rfl, rfl⟩
  | succ n =>
    simp only [driveLoop] at h
    split at h
    next hs => cases h; exact .inl ⟨hs, rfl, rfl⟩
    next hs =>
      split at h
      next hv => cases h; exact .inr (.inl ⟨hs, hv, rfl, rfl⟩)
      next hv =>
        split at h
        next hrest => cases h; exact .inr (.inr ⟨hs, hv, n, _, rfl, hrest, rfl⟩)
        next => cases h

/-- A `FEED` whose chunk was admitted: the append, and a drive that returned. -/
theorem exec_feed_ok {s t : State} {data : List Byte} (hs : s.Inv) (h : exec (.feed data) s = .next t)
    (hok : t.results = [.ok]) : data.length ≤ s.cfg.C - s.block.rb.size ∧
      driveBlock s.cfg { s.block with rb := s.block.rb.extend s.cfg data } = some (t.block, t.events) := by
  obtain ⟨a, u, ha, hu, hfeed⟩ := feedIsAppendThenDrive s data hs
  cases h.symm.trans hfeed
  rcases Nat.lt_or_ge (s.cfg.C - s.block.rb.size) data.length with hlt | hle
  · rw [exec_rbAppend_of_lt hlt] at ha
    cases ha
    cases hok
  · rw [exec_rbAppend_of_le hle] at ha
    cases ha
    simp only [exec, execDrive] at hu
    split at hu <;> cases hu
    next hd => exact ⟨hle, hd⟩

/-- Delivering one chunk more: its `FEED`, admitted, then the rest. -/
theorem feedAll_cons_some {c : List Byte} {cs : List (List Byte)} {s u : State} {es : List Event}
    (h : feedAll (c :: cs) s = some (u, es)) :
    ∃ t fs, exec (.feed c) s = .next t ∧ t.results = [.ok] ∧ feedAll cs t = some (u, fs) ∧ es = t.events ++ fs := by
  simp only [feedAll] at h
  split at h
  next t ht =>
    split at h
    next hok =>
      split at h
      next hrest => cases h; exact ⟨t, _, ht, hok, hrest, rfl⟩
      next => cases h
    next => cases h
  next => cases h
  next => cases h

/-- What can be delivered can be delivered in part. -/
theorem feedAll_append_some {ds cs : List (List Byte)} {s u : State} {es : List Event}
    (h : feedAll (ds ++ cs) s = some (u, es)) : ∃ t fs, feedAll ds s = some (t, fs) := by
  induction ds generalizing s es with
  | nil => exact ⟨s, [], rfl⟩
  | cons d ds ih =>
    obtain ⟨t, fs, ht, hok, hrest, -⟩ := feedAll_cons_some h
    obtain ⟨v, gs, hv⟩ := ih hrest
    exact ⟨v, t.events ++ gs, by simp only [feedAll, ht, hok, hv, if_true]⟩

namespace ConformantFrame

/-- A drive keeps to the frame, and leaves no byte buffered unless bytes are still to come. -/
theorem within_driveLoop {fr : ConformantFrame cfg} {n : Nat} {blk blk' : Block} {future : List Byte}
    {es fs : List Event} (h : fr.Within blk future es) (hrb : blk.rb.Inv cfg) (hp : blk.p.Inv cfg)
    (hd : driveLoop cfg n blk = some (blk', fs)) :
    fr.Within blk' future (es ++ fs) ∧ (blk'.rb.size = 0 ∨ future ≠ []) := by
  induction n using Nat.strong_induction_on generalizing blk es fs with
  | _ n ih =>
    rcases driveLoop_some_cases hd with ⟨hs, rfl, rfl⟩ | ⟨hs, hv, rfl, rfl⟩ | ⟨hs, -, m, gs, rfl, hrest, rfl⟩
    · exact ⟨(List.append_nil es).symm ▸ h, .inl hs⟩
    · obtain ⟨rfl, hwithin, hmissing⟩ := h.follows hrb hp.1 hs
      exact ⟨hwithin, .inr (hmissing hv)⟩
    · obtain ⟨rfl, hwithin, -⟩ := h.follows hrb hp.1 hs
      rw [List.nil_append]
      exact ih m (Nat.lt_succ_self m) hwithin ((ringInv_keptInAnyPhase cfg).transition blk hrb)
        ((parserInv_keptInAnyPhase cfg).transition blk hp) hrest

/-- A chunk appended is no longer to come, but buffered. -/
theorem Within.extend {fr : ConformantFrame cfg} {blk : Block} {data future : List Byte} {es : List Event}
    (h : fr.Within blk (data ++ future) es) (hrb : blk.rb.Inv cfg) (hle : data.length ≤ cfg.C - blk.rb.size) :
    fr.Within { blk with rb := blk.rb.extend cfg data } future es := by
  simpa only [Within, RingBuffer.content_extend hrb hle, List.append_assoc] using h

/-- Chunks delivered keep to the frame as one drive does. -/
theorem within_feedAll {fr : ConformantFrame cfg} {cs : List (List Byte)} {s t : State} {future : List Byte}
    {es fs : List Event} (hs : s.Inv) (hcfg : s.cfg = cfg) (h : fr.Within s.block (cs.flatten ++ future) es)
    (hleft : s.block.rb.size = 0 ∨ cs.flatten ++ future ≠ []) (hfeed : feedAll cs s = some (t, fs)) :
    fr.Within t.block future (es ++ fs) ∧ (t.block.rb.size = 0 ∨ future ≠ []) := by
  induction cs generalizing s es fs with
  | nil =>
    cases hfeed
    exact ⟨(List.append_nil es).symm ▸ h, hleft⟩
  | cons c cs ih =>
    subst hcfg
    obtain ⟨u, gs, hu, hok, hrest, rfl⟩ := feedAll_cons_some hfeed
    obtain ⟨hle, hd⟩ := exec_feed_ok hs hu hok
    rw [List.flatten_cons, List.append_assoc] at h
    obtain ⟨hwithin, hleft⟩ := within_driveLoop (h.extend hs.1 hle) (hs.1.extend hle) hs.2 hd
    rw [← List.append_assoc]
    exact ih (exec_keeps_inv hs hu) (exec_cfg_port hu).1 hwithin hleft hrest

end ConformantFrame

/-- Settles O40: every drive keeps to the frame, so before the last byte nothing is emitted, and after it the packet. -/
theorem frameRoundTrip : Obligations.FrameRoundTrip := by
  intro s t f type body frame cs es hs hphase hcursor hsize htype hmax hcap hf hframe hcs hfeed
  obtain ⟨fr, rfl, hpacket⟩ := ConformantFrame.exists_of_exec_frame htype hmax hcap hf hframe
  have hstart := fr.within_start hphase hcursor hsize
  have hwhole : fr.Within s.block (cs.flatten ++ []) [] := by rwa [List.append_nil, hcs]
  obtain ⟨hwithin, hleft⟩ := ConformantFrame.within_feedAll hs rfl hwhole (.inl hsize) hfeed
  have hempty : t.block.rb.size = 0 := hleft.resolve_right (absurd rfl)
  obtain ⟨hes, hp, hk⟩ := hwithin.complete hempty
  refine ⟨hes.trans (by rw [hpacket]), hp, hk, hempty, fun ds c hsplit hne => ?_⟩
  subst hsplit
  obtain ⟨u, gs, hu⟩ := feedAll_append_some hfeed
  have hpart : fr.Within s.block (ds.flatten ++ c) [] := by
    rwa [← hcs, List.flatten_append, List.flatten_singleton] at hstart
  obtain ⟨hbefore, -⟩ := ConformantFrame.within_feedAll hs rfl hpart (.inl hsize) hu
  exact ⟨u, by rw [hu, ← hbefore.events_eq_nil hne]; rfl⟩

end Sys2Proof.Machine
end

section
/-! PROOFS. The transitions of the parser one by one (43_frame_parser.md R120 to R129): what each makes of the front of the
ring buffer, and that one which suspends has changed nothing (R121). -/

namespace Sys2Proof.Machine

/-! ## Suspending changes nothing (R121) -/

/-- The transition suspends and leaves the block as it was, or it progresses. -/
def Transition.SuspendsOrProgresses (t : Transition) (blk : Block) : Prop := t = blk.suspend ∨ t.verdict = .progress

theorem decodeField_error_rb {cfg : Config} {rb rb' : RingBuffer} {f : Failure} (h : rb.Inv cfg)
    (hd : decodeField cfg rb = (rb', .error f)) : rb' = rb := by
  rcases decodeField_cases_content h with ⟨-, hc⟩ | ⟨_, -, -, -, hc⟩ | ⟨_, _, -, -, -, -, hc⟩ <;> rw [hc] at hd <;> cases hd
  rfl

section
variable {cfg : Config} {blk : Block}

theorem syncTransition_suspendsOrProgresses : (syncTransition cfg blk).SuspendsOrProgresses blk := by
  rcases syncTransition_cases cfg blk with ⟨-, ht⟩ | ⟨-, ht⟩ <;> rw [ht]
  · exact .inl rfl
  · exact .inr rfl

theorem sizeTransition_suspendsOrProgresses (h : blk.rb.Inv cfg) :
    (sizeTransition cfg blk).SuspendsOrProgresses blk := by
  rcases sizeTransition_cases cfg blk with ⟨rb', f, hd, ht⟩ | ⟨rb', f, -, ht⟩ <;> rw [ht]
  · rw [decodeField_error_rb h hd]
    exact .inl rfl
  · exact .inr rfl

theorem typeTransition_suspendsOrProgresses (h : blk.rb.Inv cfg) :
    (typeTransition cfg blk).SuspendsOrProgresses blk := by
  rcases typeTransition_cases cfg blk with ⟨rb', f, hd, ht⟩ | ⟨rb', f, -, ht⟩ <;> rw [ht]
  · rw [decodeField_error_rb h hd]
    exact .inl rfl
  · exact .inr rfl

theorem judgeSize_verdict : (judgeSize cfg blk).verdict = .progress := by
  rcases judgeSize_cases cfg blk with ⟨-, h⟩ | ⟨-, -, h⟩ | ⟨-, -, h⟩ <;> rw [h] <;> rfl

theorem checksumTransition_suspendsOrProgresses : (checksumTransition cfg blk).SuspendsOrProgresses blk := by
  rcases checksumTransition_cases cfg blk with ⟨-, ht⟩ | ⟨-, _, rfl, ⟨-, ht⟩ | ⟨-, ht⟩⟩ <;> rw [ht]
  · exact .inl rfl
  · exact .inr judgeSize_verdict
  · exact .inr rfl

theorem takeBody_verdict (take : Nat) : (takeBody cfg blk take).verdict = .progress := by
  rcases takeBody_cases cfg blk take with ⟨-, h⟩ | ⟨-, h⟩ <;> rw [h] <;> rfl

/-- `P.BODY` suspends on an empty ring buffer only. -/
theorem bodyTransition_suspendsOrProgresses (limit : Nat) :
    (blk.rb.size = 0 ∧ bodyTransition cfg limit blk = blk.suspend) ∨
      (bodyTransition cfg limit blk).verdict = .progress := by
  rcases bodyTransition_cases cfg limit blk with hs | ⟨-, -, ht⟩ | ⟨-, -, ht⟩
  · exact .inl hs
  · exact .inr (by rw [ht]; rfl)
  · exact .inr (by rw [ht]; exact takeBody_verdict _)

theorem transition_suspendsOrProgresses (h : blk.rb.Inv cfg) : (transition cfg blk).SuspendsOrProgresses blk := by
  unfold transition
  cases blk.p.phase
  case sync => exact syncTransition_suspendsOrProgresses
  case headerSize => exact sizeTransition_suspendsOrProgresses h
  case headerType => exact typeTransition_suspendsOrProgresses h
  case headerChecksum => exact checksumTransition_suspendsOrProgresses
  case body => exact (bodyTransition_suspendsOrProgresses _).imp_left And.right
  case illegal5 | illegal6 | illegal7 => exact .inr rfl

end

/-! ## What the transition operations answer (R121) -/

theorem Transition.events_length_le (t : Transition) : t.event.toList.length ≤ 1 := by
  cases t.event <;> simp

/-- The state after a transition that suspends. -/
theorem State.finishTransition_suspend (s : State) :
    s.finishTransition s.block.suspend = { s with results := [.verdict .suspend], events := [] } := rfl

/-- R121: the operation has suspended and changed nothing, or it has progressed and emitted at most one event. -/
def State.SuspendedOrProgressed (s t : State) : Prop :=
  t = { s with results := [.verdict .suspend], events := [] } ∨
    (t.results = [.verdict .progress] ∧ t.events.length ≤ 1)

theorem suspendedOrProgressed_of_progress {s u : State} {tr : Transition} (hv : tr.verdict = .progress) :
    s.SuspendedOrProgressed (u.finishTransition tr) :=
  .inr ⟨by rw [State.finishTransition_results, hv], tr.events_length_le⟩

theorem Transition.SuspendsOrProgresses.finish {s : State} {tr : Transition} (h : tr.SuspendsOrProgresses s.block) :
    s.SuspendedOrProgressed (s.finishTransition tr) := by
  rcases h with rfl | hv
  · exact .inl s.finishTransition_suspend
  · exact suspendedOrProgressed_of_progress hv

/-- Where `P.BODY` is about to take nothing, it finds the accumulator as it stands (log 27). -/
theorem forgetDeadBody_of_not {s : State} (h : s.block.rb.size = 0 ∨ s.cfg.bodyCap < s.block.p.declSize.toNat) :
    s.forgetDeadBody = s := if_neg (by omega)

theorem exec_pBody_of_size_eq {s : State} (hs : s.block.rb.size = 0) :
    exec .pBody s = .next { s with results := [.verdict .suspend], events := [] } := by
  simp only [exec, execPBody, forgetDeadBody_of_not (.inl hs), bodyTransition, if_pos hs]
  rfl

theorem exec_pBody_suspendedOrProgressed {s t : State} (hx : exec .pBody s = .next t) : s.SuspendedOrProgressed t := by
  by_cases hs : s.block.rb.size = 0
  · rw [exec_pBody_of_size_eq hs] at hx
    cases hx
    exact .inl rfl
  · cases hx
    rcases bodyTransition_suspendsOrProgresses (cfg := s.cfg) (blk := s.forgetDeadBody.block) s.block.rb.size with
      ⟨hs', -⟩ | hv
    · exact absurd ((congrArg RingBuffer.size s.forgetDeadBody_rb).symm.trans hs') hs
    · exact suspendedOrProgressed_of_progress hv

/-- Every transition operation suspends with nothing changed or progresses. -/
theorem exec_transition_suspendedOrProgressed {i : Instr} {s t : State} (h : s.block.rb.Inv s.cfg)
    (hi : i = .pStep ∨ isPhaseRow i = true) (hx : exec i s = .next t) : s.SuspendedOrProgressed t := by
  cases i
  case pBody => exact exec_pBody_suspendedOrProgressed hx
  case pStep => cases hx; exact (transition_suspendsOrProgresses h).finish
  case pSync => cases hx; exact syncTransition_suspendsOrProgresses.finish
  case pHsize => cases hx; exact (sizeTransition_suspendsOrProgresses h).finish
  case pHtype => cases hx; exact (typeTransition_suspendsOrProgresses h).finish
  case pHcsum => cases hx; exact checksumTransition_suspendsOrProgresses.finish
  case pIllegal5 | pIllegal67 => cases hx; exact suspendedOrProgressed_of_progress rfl
  all_goals simp [isPhaseRow] at hi

/-- Settles O30: a transition operation has suspended and changed nothing, or its result is `Progress`. -/
theorem suspendChangesNothing : Obligations.SuspendChangesNothing := by
  intro s t i h hi hx
  rcases exec_transition_suspendedOrProgressed h hi hx with rfl | ⟨hres, hevents⟩
  · exact ⟨.inl rfl, fun _ => rfl, Nat.zero_le 1⟩
  · exact ⟨.inr hres, fun hs => by simp [hres] at hs, hevents⟩

/-! ## The empty ring buffer (R133) -/

section
variable {cfg : Config} {blk : Block} (hs : blk.rb.size = 0)
include hs

theorem syncTransition_of_size_eq : syncTransition cfg blk = blk.suspend := by
  simp [syncTransition, RingBuffer.peek, hs]

theorem sizeTransition_of_size_eq : sizeTransition cfg blk = blk.suspend := by
  simp [sizeTransition, decodeField, RingBuffer.deq_of_size_eq hs]

theorem typeTransition_of_size_eq : typeTransition cfg blk = blk.suspend := by
  simp [typeTransition, decodeField, RingBuffer.deq_of_size_eq hs]

theorem checksumTransition_of_size_eq : checksumTransition cfg blk = blk.suspend := by
  simp [checksumTransition, RingBuffer.deq_of_size_eq hs]

theorem transition_of_size_eq (hp : blk.p.phase.legal = true) : transition cfg blk = blk.suspend := by
  unfold transition
  cases hphase : blk.p.phase <;> simp only [hphase] at hp ⊢
  case sync => exact syncTransition_of_size_eq hs
  case headerSize => exact sizeTransition_of_size_eq hs
  case headerType => exact typeTransition_of_size_eq hs
  case headerChecksum => exact checksumTransition_of_size_eq hs
  case body => exact if_pos hs
  case illegal5 | illegal6 | illegal7 => cases hp

end

/-- Settles O29, transition by transition: none finds the byte it needs. -/
theorem emptyRingSuspends : Obligations.EmptyRingSuspends := by
  intro s i hs hi
  rw [← s.finishTransition_suspend]
  rcases hi with rfl | rfl | rfl | rfl | rfl | ⟨rfl, hp⟩
  · simp only [exec, execPSync, syncTransition_of_size_eq hs]
  · simp only [exec, execPHsize, sizeTransition_of_size_eq hs]
  · simp only [exec, execPHtype, typeTransition_of_size_eq hs]
  · simp only [exec, execPHcsum, checksumTransition_of_size_eq hs]
  · exact exec_pBody_of_size_eq hs
  · simp only [exec, execPStep, transition_of_size_eq hs hp]

/-! ## `P.INIT`, `P.STEP`, `P.ILLEGAL` (R120, R122, R129) -/

/-- Settles O20, each register read off `Parser.init`. -/
theorem pInitInitialisesParser : Obligations.PInitInitialisesParser := fun _ =>
  ⟨Laws.CommandByte.pInit.1, _, rfl, rfl, rfl, rfl, rfl, rfl, rfl, rfl, rfl, rfl, rfl, rfl, rfl, rfl⟩

theorem Phase.ofCode_code (p : Phase) : Phase.ofCode p.code = p := by
  cases p <;> rfl

/-- Settles O21: a phase's own transition is `P.STEP` in that phase, and no phase is lost in its code. -/
theorem pStepSelectsByPhase : Obligations.PStepSelectsByPhase := by
  intro s
  refine ⟨Laws.CommandByte.pStep.1, s.finishTransition (transition s.cfg s.block), rfl, exec_phaseInstr s,
    Phase.ofCode_code _, ?_, Transition.events_length_le _, fun hs hp => ?_⟩
  · rw [State.finishTransition_results]
    cases (transition s.cfg s.block).verdict
    · exact .inl rfl
    · exact .inr rfl
  · rw [transition_of_size_eq hs hp]
    rfl

theorem exec_pStep_of_illegal {s : State}
    (hp : s.block.p.phase = .illegal5 ∨ s.block.p.phase = .illegal6 ∨ s.block.p.phase = .illegal7) :
    exec .pStep s = .next (s.finishTransition (illegalTransition s.block)) := by
  rcases hp with hp | hp | hp <;> simp only [exec, execPStep, transition, hp]

/-- Settles O28: the operations of the illegal codes make one transition, and `P.STEP` selects it in these phases. -/
theorem pIllegalGoesToSync : Obligations.PIllegalGoesToSync := by
  rintro s low t rfl
  exact ⟨rfl, rfl, exec_pStep_of_illegal⟩

/-! ## `P.SYNC` (R123) -/

/-- The registers after a byte, with the marker written out as R61 lists it. -/
theorem Parser.matchMarker_eq (cfg : Config) (p : Parser) (b : Byte) : p.matchMarker cfg b =
    if [cfg.sync0, cfg.sync1, cfg.sync2][p.syncCursor.val]? = some b then
      if p.syncCursor.val = 2 then
        { p with syncCursor := 0, hdrCsum := 0#8, declSize := 0#15, declType := 0#15, phase := .headerSize }
      else { p with syncCursor := p.syncCursor + 1 }
    else { p with syncCursor := 0 } := by
  have hlast : p.syncCursor.val = 2 ↔ p.syncCursor = 2 := (Fin.ext_iff (b := 2)).symm
  simp only [Parser.matchMarker, marker_getElem?, Option.some.injEq, eq_comm (a := markerByte cfg p.syncCursor), hlast]

theorem syncTransition_of_size_ne {cfg : Config} {blk : Block} (hs : blk.rb.size ≠ 0) : syncTransition cfg blk =
    Block.progress { rb := blk.rb.drop cfg, p := blk.p.matchMarker cfg (blk.rb.byteAt cfg 0) } := by
  rcases syncTransition_cases cfg blk with ⟨hs', -⟩ | ⟨-, ht⟩
  · exact absurd hs' hs
  · exact ht

/-- Settles O22: a buffered byte is dequeued, and matched against the marker byte looked for. -/
theorem pSyncMatchesMarker : Obligations.PSyncMatchesMarker := by
  intro s b rest _ hc
  refine ⟨s.consumed 1 (s.block.p.matchMarker s.cfg b), ?_, ?_, by rw [Parser.matchMarker_eq]⟩
  · simp only [exec, execPSync, syncTransition_of_size_ne (size_ne_zero_of_content hc), byteAt_zero_of_content hc]
    rfl
  · rw [State.consumed_content, hc]
    rfl

/-! ## `P.HSIZE` and `P.HTYPE` (R124, R125) -/

/-- The content of an incomplete field, as R101 has it: its only byte says that another follows. -/
theorem incomplete_of_content {bs : List Byte} (h : bs = [] ∨ ∃ b0, bs = [b0] ∧ 128 ≤ b0.toNat) :
    bs = [] ∨ ∃ b0, bs = [b0] ∧ continues b0 = true := by
  simpa [continues_eq] using h

/-- Settles O23: `P.HSIZE` hands on what `VL.DEC` answers. -/
theorem pHsizeDecodesSize : Obligations.PHsizeDecodesSize := by
  intro s h
  refine ⟨rfl, fun raw v rest hf hc => ⟨_, ?_, ?_, rfl⟩, fun hc => ?_⟩
  · simp only [exec, execPHsize, sizeTransition, decodeField_of_isField h hf hc]
    rfl
  · rw [State.consumed_content, hc, List.drop_left]
  · simp only [exec, execPHsize, sizeTransition, decodeField_of_incomplete h (incomplete_of_content hc)]
    rfl

/-- Settles O24: `P.HTYPE` hands on what `VL.DEC` answers. -/
theorem pHtypeDecodesType : Obligations.PHtypeDecodesType := by
  intro s h
  refine ⟨rfl, fun raw v rest hf hc => ⟨_, ?_, ?_, rfl⟩, fun hc => ?_⟩
  · simp only [exec, execPHtype, typeTransition, decodeField_of_isField h hf hc]
    rfl
  · rw [State.consumed_content, hc, List.drop_left]
  · simp only [exec, execPHtype, typeTransition, decodeField_of_incomplete h (incomplete_of_content hc)]
    rfl

/-! ## `P.HCSUM` (R126, R127) -/

/-- The checksum byte at the front is dequeued, then compared. -/
theorem checksumTransition_of_size_ne {cfg : Config} {blk : Block} (hs : blk.rb.size ≠ 0) :
    checksumTransition cfg blk =
      if blk.rb.byteAt cfg 0 = blk.p.hdrCsum then judgeSize cfg { blk with rb := blk.rb.drop cfg }
      else Block.raiseError { blk with rb := blk.rb.drop cfg } .headerChecksumMismatch := by
  simp only [checksumTransition, RingBuffer.deq_of_size_ne hs]

/-- What judging the declared size leaves and emits: oversize first, then empty, else the body begins. -/
theorem finishTransition_judgeSize (s : State) (blk : Block) : s.finishTransition (judgeSize s.cfg blk) = { s with
    block := { blk with
      p :=
        if s.cfg.maxBody.toNat < blk.p.declSize.toNat then { blk.p with phase := .sync }
        else if blk.p.declSize.toNat = 0 then { blk.p with phase := .sync }
        else { blk.p with bodyCount := 0, phase := .body } }
    results := [.verdict .progress]
    events :=
      if s.cfg.maxBody.toNat < blk.p.declSize.toNat then [.error .oversizedBody]
      else if blk.p.declSize.toNat = 0 then [.packet blk.p.declType 0#15 []]
      else [] } := by
  have hzero : blk.p.declSize.toNat = 0 ↔ blk.p.declSize = 0#15 := by rw [BitVec.toNat_eq]; rfl
  rcases judgeSize_cases s.cfg blk with ⟨hmax, ht⟩ | ⟨hmax, hsize, ht⟩ | ⟨hmax, hsize, ht⟩ <;> rw [ht]
  · simp only [if_pos hmax]
    rfl
  · simp only [if_neg (Nat.not_lt.mpr hmax), if_pos (hzero.mpr hsize)]
    rfl
  · simp only [if_neg (Nat.not_lt.mpr hmax), if_neg (mt hzero.mp hsize)]
    rfl

/-- Settles O25: a byte that is the sum lets the declared size be judged, any other is a mismatch. -/
theorem pHcsumJudgesHeader : Obligations.PHcsumJudgesHeader := by
  intro s _
  refine ⟨rfl, fun hc => ?_, fun rx rest hc => ⟨_, rfl, ?_, ?_⟩⟩
  · have hs : s.block.rb.size = 0 := by simpa using congrArg List.length hc
    exact emptyRingSuspends s .pHcsum hs (by simp)
  · rw [State.content, State.finishTransition_block, (checksumTransition_of_content hc).1]
    exact content_drop_of_content hc
  · rw [checksumTransition_of_size_ne (size_ne_zero_of_content hc), byteAt_zero_of_content hc]
    by_cases hsum : rx = s.block.p.hdrCsum
    · simp only [hsum, ne_eq, not_true_eq_false, if_true, if_false]
      exact finishTransition_judgeSize s _
    · simp only [hsum, ne_eq, not_false_eq_true, if_true, if_false]
      rfl

/-! ## `P.BODY` (R128) -/

/-- Settles O27: the declared size is judged before a byte is taken. -/
theorem pBodyOverflowConsumesNothing : Obligations.PBodyOverflowConsumesNothing := by
  intro s hs hover
  simp only [exec, execPBody, forgetDeadBody_of_not (.inr hover), bodyTransition, if_neg hs, gt_iff_lt, if_pos hover]
  rfl

/-- The state with the accumulator that `P.BODY` finds, a free one outside phase `BODY`, which counts as one use (log 27). -/
def State.found (s : State) (acc0 : Memory) : State :=
  { s with
    block := { s.block with p := { s.block.p with bodyAcc := acc0 } }
    freeIndex := if s.block.p.phase = .body then s.freeIndex else s.freeIndex + 1 }

/-- What `P.BODY` finds where it is about to accumulate: the accumulator as it stands in phase `BODY`, else some free one
(R30, log 27). -/
theorem forgetDeadBody_of_le {s : State} (hacc : s.block.p.AccInv s.cfg) (hs : s.block.rb.size ≠ 0)
    (hcap : s.block.p.declSize.toNat ≤ s.cfg.bodyCap) :
    ∃ acc0, (s.block.p.phase = .body → acc0 = s.block.p.bodyAcc) ∧ Memory.wf .acc s.cfg.bodyCap acc0 ∧
      s.forgetDeadBody = s.found acc0 := by
  rcases s.forgetDeadBody_cases with ⟨hkept, hf⟩ | ⟨hp, hf⟩ <;> rw [hf]
  · have hp : s.block.p.phase = .body := hkept.resolve_right (by omega)
    exact ⟨s.block.p.bodyAcc, fun _ => rfl, hacc, by rw [State.found, if_pos hp]⟩
  · exact ⟨deadAcc s.cfg.bodyCap s.freeIndex, fun hp' => absurd hp' hp, deadAcc_wf _ _, by rw [State.found, if_neg hp]⟩

section
variable {cfg : Config}

/-- `n` buffered bytes moved leave the ring buffer with its cursor advanced by as many. -/
theorem moveBody_rb {n : Nat} {rb : RingBuffer} (hhead : rb.head < cfg.C) (hn : n ≤ rb.size) (acc : Memory) (i : Nat) :
    (moveBody cfg n rb acc i).1 = { rb with head := (rb.head + n) % cfg.C, size := rb.size - n } := by
  induction n generalizing rb acc i with
  | zero => simp [moveBody, Nat.mod_eq_of_lt hhead]
  | succ n ih =>
    have hs : rb.size ≠ 0 := by omega
    have hroom : n ≤ (rb.drop cfg).size := by simp only [RingBuffer.drop_size]; omega
    have hlt : (rb.drop cfg).head < cfg.C := Nat.mod_lt _ (capacity_pos cfg)
    simp only [moveBody, RingBuffer.deq_of_size_ne hs, ih hlt hroom]
    simp [RingBuffer.drop, Nat.add_assoc, Nat.add_comm 1 n, Nat.sub_sub]

/-- Bytes moved leave every accumulator byte outside theirs as it was. -/
theorem read_moveBody_of_not_mem {size n i a : Nat} {rb : RingBuffer} {acc : Memory} (hacc : Memory.wf .acc size acc)
    (hroom : i + n ≤ size) (ha : a < i ∨ i + n ≤ a) :
    Memory.read .acc (moveBody cfg n rb acc i).2 a = Memory.read .acc acc a := by
  induction n generalizing rb acc i with
  | zero => rfl
  | succ n ih =>
    by_cases hs : rb.size = 0
    · simp only [moveBody, RingBuffer.deq_of_size_eq hs]
    · have hwf := Memory.wf_write .acc size acc i (rb.byteAt cfg 0) hacc (by omega)
      simp only [moveBody, RingBuffer.deq_of_size_ne hs]
      rw [ih hwf (by omega) (by omega), Memory.read_write _ _ _ _ _ hacc.1, if_neg (by omega)]

/-- Bytes moved are read at consecutive addresses. -/
theorem read_moveBody {size n i k : Nat} {b : Byte} {rb : RingBuffer} {acc : Memory} (hacc : Memory.wf .acc size acc)
    (hn : n ≤ rb.size) (hroom : i + n ≤ size) (hk : k < n) (hb : (rb.content cfg)[k]? = some b) :
    Memory.read .acc (moveBody cfg n rb acc i).2 (i + k) = b := by
  obtain ⟨-, hcopy⟩ := moveBody_content (cfg := cfg) hacc hn hroom
  have hat := congrArg (·[i + k]?) hcopy
  simpa [bodyCopy, hk, hb, List.getElem?_append_right, List.getElem?_take] using hat

/-- R128: what is taken is what is buffered, up to what the body still needs. -/
theorem bodyTransition_of_le {blk : Block} (hs : blk.rb.size ≠ 0) (hcap : blk.p.declSize.toNat ≤ cfg.bodyCap)
    (hcount : blk.p.bodyCount ≤ blk.p.declSize.toNat) : bodyTransition cfg blk.rb.size blk =
      takeBody cfg blk (min blk.rb.size (blk.p.declSize.toNat - blk.p.bodyCount)) := by
  rw [bodyTransition, if_neg hs, if_neg (Nat.not_lt.mpr hcap), Nat.min_self, bodyRemainder, if_pos hcount]

/-- What taking `take` buffered bytes leaves and emits: the packet carries what the accumulator held and these bytes. -/
theorem finishTransition_takeBody {s : State} {take : Nat} (hhead : s.block.rb.head < s.cfg.C)
    (hacc : s.block.p.AccInv s.cfg) (htake : take ≤ s.block.rb.size)
    (hroom : s.block.p.bodyCount + take ≤ s.cfg.bodyCap) : s.finishTransition (takeBody s.cfg s.block take) = { s with
      block :=
        { rb := { s.block.rb with
            head := (s.block.rb.head + take) % s.cfg.C, size := s.block.rb.size - take }
          p := { s.block.p with
            bodyAcc := (moveBody s.cfg take s.block.rb s.block.p.bodyAcc s.block.p.bodyCount).2
            bodyCount := s.block.p.bodyCount + take
            phase :=
              if s.block.p.bodyCount + take = s.block.p.declSize.toNat then .sync else s.block.p.phase } }
      results := [.verdict .progress]
      events :=
        if s.block.p.bodyCount + take = s.block.p.declSize.toNat then
          [.packet s.block.p.declType s.block.p.declSize
            (bodyCopy s.block.p.bodyAcc s.block.p.bodyCount ++ s.content.take take)]
        else [] } := by
  have hrb := moveBody_rb hhead htake s.block.p.bodyAcc s.block.p.bodyCount
  obtain ⟨-, hcopy⟩ := moveBody_content (cfg := s.cfg) hacc htake hroom
  rcases takeBody_cases s.cfg s.block take with ⟨hfull, ht⟩ | ⟨hfull, ht⟩ <;> rw [ht]
  · simp only [if_pos hfull, ← hrb, ← hcopy]
    rw [← hfull]
    rfl
  · simp only [if_neg hfull, ← hrb]
    rfl

end

/-- Settles O26: the bytes taken are moved to the accumulator found, one address after the other. -/
theorem pBodyAccumulates : Obligations.PBodyAccumulates := by
  intro s hrb hacc hne hcap hcount
  have hs : s.block.rb.size ≠ 0 := fun hs => hne (RingBuffer.content_of_size_eq hs)
  obtain ⟨acc0, hbody, hacc0, hfound⟩ := forgetDeadBody_of_le hacc hs hcap
  obtain ⟨take, htake⟩ : ∃ n, n = min s.block.rb.size (s.block.p.declSize.toNat - s.block.p.bodyCount) := ⟨_, rfl⟩
  have hle : take ≤ s.block.rb.size := by omega
  have hroom : s.block.p.bodyCount + take ≤ s.cfg.bodyCap := by omega
  have hmove : bodyTransition s.cfg s.block.rb.size (s.found acc0).block = takeBody s.cfg (s.found acc0).block take :=
    htake ▸ bodyTransition_of_le (blk := (s.found acc0).block) hs hcap hcount
  have hx : exec .pBody s = .next ((s.found acc0).finishTransition (takeBody s.cfg (s.found acc0).block take)) := by
    simp only [exec, execPBody, hfound, hmove]
  refine ⟨_, take, acc0, _, hx, hbody, htake, ?_, finishTransition_takeBody (s := s.found acc0) hrb.1 hacc0 hle hroom,
    fun k b hk hb => read_moveBody hacc0 hle hroom hk hb, fun a => read_moveBody_of_not_mem hacc0 hroom⟩
  show (takeBody s.cfg (s.found acc0).block take).block.rb.content s.cfg = s.content.drop take
  rw [takeBody_rb]
  exact (moveBody_content hacc0 hle hroom).1

end Sys2Proof.Machine
end

section
/-! PROOFS. The drive loop as a sequence of transitions (43_frame_parser.md R130, R131): where it comes to rest, and that it
is `P.STEP` repeated. -/

namespace Sys2Proof.Machine

/-! ## Where nothing can be done -/

/-- No byte is buffered, or the phase's transition suspends on those that are. -/
def Block.AtRest (cfg : Config) (blk : Block) : Prop := blk.rb.size = 0 ∨ transition cfg blk = blk.suspend

theorem driveBlock_of_atRest {cfg : Config} {blk : Block} (h : blk.AtRest cfg) : driveBlock cfg blk = some (blk, []) := by
  unfold driveBlock driveLoop
  split
  · rfl
  · next hs => simp [h.resolve_left hs]

theorem exec_drive_of_driveBlock {s : State} {blk : Block} {es : List Event}
    (h : driveBlock s.cfg s.block = some (blk, es)) : exec .drive s = .next (s.finish blk [] es) := by
  simp only [exec, execDrive, h]

/-- R130: in a header phase, one byte that says another follows is waited with. -/
theorem State.Quiescent.atRest {s : State} (hinv : s.block.rb.Inv s.cfg) (h : s.Quiescent) : s.block.AtRest s.cfg := by
  rcases h with hs | ⟨-, hp, b, hc, hb⟩
  · exact .inl hs
  · have hd := decodeField_of_incomplete hinv (.inr ⟨b, hc, hb⟩)
    rcases hp with hp | hp
    · exact .inr (by simp only [transition, hp, sizeTransition, hd])
    · exact .inr (by simp only [transition, hp, typeTransition, hd])

/-- Settles O34: a quiescent block is at rest, so the loop ends at once. -/
theorem driveIdempotentAtQuiescence : Obligations.DriveIdempotentAtQuiescence := fun _ hinv hq =>
  exec_drive_of_driveBlock (driveBlock_of_atRest (hq.atRest hinv))

theorem content_of_decodeField_error {cfg : Config} {rb rb' : RingBuffer} {f : Failure} (h : rb.Inv cfg)
    (hs : rb.size ≠ 0) (hd : decodeField cfg rb = (rb', .error f)) :
    ∃ b, rb.content cfg = [b] ∧ continues b = true := by
  rcases decodeField_cases_content h with ⟨hc | hc, -⟩ | ⟨b, -, -, -, hc⟩ | ⟨b, b', -, -, -, -, hc⟩
  · exact absurd (by simpa using congrArg List.length hc) hs
  · exact hc
  · rw [hc] at hd; cases hd
  · rw [hc] at hd; cases hd

/-- With a byte buffered only the header phases' field transitions suspend, on the first byte of two. -/
theorem transition_suspend_cases {cfg : Config} {blk : Block} (h : blk.rb.Inv cfg) (hs : blk.rb.size ≠ 0)
    (hv : (transition cfg blk).verdict = .suspend) : (blk.p.phase = .headerSize ∨ blk.p.phase = .headerType) ∧
      ∃ b, blk.rb.content cfg = [b] ∧ continues b = true := by
  unfold transition at hv
  cases hp : blk.p.phase <;> simp only [hp] at hv
  case sync => rw [syncTransition_of_size_ne hs] at hv; cases hv
  case headerSize =>
    rcases sizeTransition_cases cfg blk with ⟨_, _, hd, -⟩ | ⟨_, _, -, ht⟩
    · exact ⟨.inl rfl, content_of_decodeField_error h hs hd⟩
    · rw [ht] at hv; cases hv
  case headerType =>
    rcases typeTransition_cases cfg blk with ⟨_, _, hd, -⟩ | ⟨_, _, -, ht⟩
    · exact ⟨.inr rfl, content_of_decodeField_error h hs hd⟩
    · rw [ht] at hv; cases hv
  case headerChecksum =>
    rw [checksumTransition_of_size_ne hs] at hv
    split at hv
    · rw [judgeSize_verdict] at hv; cases hv
    · cases hv
  case body =>
    rcases bodyTransition_suspendsOrProgresses (cfg := cfg) (blk := blk) blk.rb.size with ⟨hs', -⟩ | hv'
    · exact absurd hs' hs
    · rw [hv'] at hv; cases hv
  case illegal5 | illegal6 | illegal7 => cases hv

theorem Block.AtRest.quiescent {s : State} (hinv : s.block.rb.Inv s.cfg) (h : s.block.AtRest s.cfg) : s.Quiescent := by
  by_cases hs : s.block.rb.size = 0
  · exact .inl hs
  · have ht := h.resolve_left hs
    obtain ⟨hp, b, hc, hb⟩ := transition_suspend_cases hinv hs (by rw [ht]; rfl)
    exact .inr ⟨by simpa using congrArg List.length hc, hp, b, hc, hb⟩

/-! ## A drive as a sequence of transitions -/

/-- Transitions that progress lead from `blk` to `blk'`, which is at rest, and emit `es`. -/
inductive Drives (cfg : Config) : Block → Block → List Event → Prop where
  | rest {blk : Block} (h : blk.AtRest cfg) : Drives cfg blk blk []
  | step {blk blk' : Block} {es : List Event} (hs : blk.rb.size ≠ 0) (hv : (transition cfg blk).verdict = .progress)
      (h : Drives cfg (transition cfg blk).block blk' es) :
      Drives cfg blk blk' ((transition cfg blk).event.toList ++ es)

/-- What every block meets between operations: `State.Inv` without the state around it. -/
def Block.Inv (cfg : Config) (blk : Block) : Prop := blk.rb.Inv cfg ∧ blk.p.Inv cfg

section
variable {cfg : Config} {blk blk' : Block} {es : List Event}

theorem Block.Inv.transition (h : blk.Inv cfg) : (transition cfg blk).block.Inv cfg :=
  ⟨(ringInv_keptInAnyPhase cfg).transition blk h.1, (parserInv_keptInAnyPhase cfg).transition blk h.2⟩

theorem Block.AtRest.verdict (h : blk.AtRest cfg) (hs : blk.rb.size ≠ 0) : (transition cfg blk).verdict = .suspend := by
  rw [h.resolve_left hs]
  rfl

theorem Drives.inv (h : Drives cfg blk blk' es) (hinv : blk.Inv cfg) : blk'.Inv cfg := by
  induction h with
  | rest => exact hinv
  | step _ _ _ ih => exact ih hinv.transition

theorem Drives.atRest (h : Drives cfg blk blk' es) : blk'.AtRest cfg := by
  induction h with
  | rest h => exact h
  | step _ _ _ ih => exact ih

theorem Drives.unique {blk'' : Block} {fs : List Event} (h : Drives cfg blk blk' es) (h' : Drives cfg blk blk'' fs) :
    blk' = blk'' ∧ es = fs := by
  induction h generalizing fs with
  | rest hr =>
    cases h' with
    | rest => exact ⟨rfl, rfl⟩
    | step hs hv => exact absurd ((hr.verdict hs).symm.trans hv) (by decide)
  | step hs hv _ ih =>
    cases h' with
    | rest hr => exact absurd ((hr.verdict hs).symm.trans hv) (by decide)
    | step _ _ hrest =>
      obtain ⟨rfl, rfl⟩ := ih hrest
      exact ⟨rfl, rfl⟩

/-- A loop that returns has made such a sequence, since what suspends is at rest (R121). -/
theorem drives_of_driveLoop {n : Nat} (h : blk.Inv cfg) (hd : driveLoop cfg n blk = some (blk', es)) :
    Drives cfg blk blk' es := by
  induction n using Nat.strong_induction_on generalizing blk es with
  | _ n ih =>
    rcases driveLoop_some_cases hd with ⟨hs, rfl, rfl⟩ | ⟨hs, hv, rfl, rfl⟩ | ⟨hs, hv, m, fs, rfl, hrest, rfl⟩
    · exact .rest (.inl hs)
    · have ht : transition cfg blk = blk.suspend :=
        (transition_suspendsOrProgresses h.1).resolve_right (by rw [hv]; decide)
      rw [ht]
      exact .rest (.inr ht)
    · exact .step hs hv (ih m (Nat.lt_succ_self m) h.transition hrest)

/-- `DRIVE` returns what the sequence of transitions comes to, within its bound (R131). -/
theorem driveBlock_eq_some_iff (h : blk.Inv cfg) : driveBlock cfg blk = some (blk', es) ↔ Drives cfg blk blk' es := by
  refine ⟨drives_of_driveLoop h, fun hd => ?_⟩
  obtain ⟨⟨b, fs⟩, hr⟩ := driveBlock_returns h.2
  obtain ⟨rfl, rfl⟩ := hd.unique (drives_of_driveLoop h hr)
  exact hr

theorem exists_drives (h : blk.Inv cfg) : ∃ blk' es, Drives cfg blk blk' es := by
  obtain ⟨⟨b, es⟩, hr⟩ := driveBlock_returns h.2
  exact ⟨b, es, drives_of_driveLoop h hr⟩

end

theorem exec_drive_of_drives {s : State} {blk : Block} {es : List Event} (hs : s.block.Inv s.cfg)
    (h : Drives s.cfg s.block blk es) : exec .drive s = .next (s.finish blk [] es) :=
  exec_drive_of_driveBlock ((driveBlock_eq_some_iff hs).mpr h)

/-- Settles O33: the transitions come to rest, and a block at rest is quiescent. -/
theorem driveReturnsQuiescent : Obligations.DriveReturnsQuiescent := by
  intro s hs
  obtain ⟨blk, es, hd⟩ := exists_drives (cfg := s.cfg) (blk := s.block) hs
  have hq : (s.finish blk [] es).Quiescent := Block.AtRest.quiescent (hd.inv hs).1 hd.atRest
  refine ⟨Laws.CommandByte.drive.1, _, exec_drive_of_drives hs hd, hq, ?_, rfl, rfl, rfl, rfl⟩
  rcases hq with h | ⟨h, -⟩
  · exact h.trans_le (Nat.zero_le 1)
  · exact h.le

/-- Settles O35: one transition suspends, and the block is at rest, or is the first of the sequence. -/
theorem driveIsLoopOfPStep : Obligations.DriveIsLoopOfPStep := by
  intro s hs
  refine ⟨fun hempty => exec_drive_of_drives hs (.rest (.inl hempty)), fun hsize => ⟨_, rfl, ?_⟩⟩
  rcases transition_suspendsOrProgresses hs.1 with ht | hv
  · refine .inl ⟨by rw [ht]; rfl, ?_⟩
    rw [exec_drive_of_drives hs (.rest (.inr ht)), ht]
    rfl
  · have hinv : (transition s.cfg s.block).block.Inv s.cfg := Block.Inv.transition hs
    obtain ⟨blk, es, hd⟩ := exists_drives hinv
    refine .inr ⟨by rw [State.finishTransition_results, hv], _,
      exec_drive_of_drives (s := s.finishTransition (transition s.cfg s.block)) hinv hd, ?_⟩
    rw [exec_drive_of_drives hs (.step (by omega) hv hd)]
    rfl

end Sys2Proof.Machine
end

section
/-! PROOFS. The parser is fed a stream (43_frame_parser.md R132): bytes appended behind those buffered do not change what a
transition does, so any chunking drives to the same block and events as `FEED1` of the same bytes. -/

namespace Sys2Proof.Machine

/-! ## Appending in parts -/

theorem writeRun_congr {cfg : Config} {t t' : Nat} (h : t % cfg.C = t' % cfg.C) (bs : List Byte) (m : Memory) :
    writeRun cfg bs m t = writeRun cfg bs m t' := by
  induction bs generalizing m t t' with
  | nil => rfl
  | cons b bs ih =>
    have hnext : (t + 1) % cfg.C = (t' + 1) % cfg.C := Nat.ModEq.add_right 1 h
    rw [writeRun, writeRun, h, ih hnext]

/-- Two runs of writes, one behind the other, are one run. -/
theorem writeRun_append (cfg : Config) (as bs : List Byte) (m : Memory) (t : Nat) :
    writeRun cfg (as ++ bs) m t = writeRun cfg bs (writeRun cfg as m t) (t + as.length) := by
  induction as generalizing m t with
  | nil => rfl
  | cons a as ih => rw [List.cons_append, writeRun, writeRun, ih, List.length_cons, Nat.add_assoc, Nat.add_comm 1]

theorem RingBuffer.extend_append (cfg : Config) (rb : RingBuffer) (as bs : List Byte) :
    (rb.extend cfg as).extend cfg bs = rb.extend cfg (as ++ bs) := by
  have hrun : writeRun cfg bs (writeRun cfg as rb.store rb.tail) ((rb.tail + as.length) % cfg.C) =
      writeRun cfg (as ++ bs) rb.store rb.tail := by
    rw [writeRun_append, writeRun_congr (Nat.mod_mod _ _)]
  simp only [RingBuffer.extend, hrun, List.length_append, Nat.mod_add_mod, Nat.add_assoc]

theorem RingBuffer.extend_nil {cfg : Config} {rb : RingBuffer} (h : rb.Inv cfg) : rb.extend cfg [] = rb := by
  obtain ⟨-, htail, -⟩ := h
  simp [RingBuffer.extend, writeRun, Nat.mod_eq_of_lt htail]

/-! ## Taking from the front and appending behind -/

section
variable {cfg : Config} {rb : RingBuffer} {data : List Byte}

theorem RingBuffer.byteAt_zero_extend (h : rb.Inv cfg) (hroom : data.length ≤ cfg.C - rb.size) (hs : rb.size ≠ 0) :
    (rb.extend cfg data).byteAt cfg 0 = rb.byteAt cfg 0 := by
  have hs' : (rb.extend cfg data).size ≠ 0 := by simp [hs]
  have hc := RingBuffer.content_extend h hroom
  rw [RingBuffer.content_drop hs, RingBuffer.content_drop hs', List.cons_append] at hc
  exact (List.cons.inj hc).1

theorem RingBuffer.drop_extend (hs : rb.size ≠ 0) : (rb.extend cfg data).drop cfg = (rb.drop cfg).extend cfg data := by
  simp only [RingBuffer.drop, RingBuffer.extend, RingBuffer.mk.injEq, true_and]
  omega

theorem RingBuffer.deq_extend (h : rb.Inv cfg) (hroom : data.length ≤ cfg.C - rb.size) (hs : rb.size ≠ 0) :
    (rb.extend cfg data).deq cfg = .ok (rb.byteAt cfg 0, (rb.drop cfg).extend cfg data) := by
  have hs' : (rb.extend cfg data).size ≠ 0 := by simp [hs]
  rw [RingBuffer.deq_of_size_ne hs', RingBuffer.byteAt_zero_extend h hroom hs, RingBuffer.drop_extend hs]

theorem RingBuffer.room_drop (hroom : data.length ≤ cfg.C - rb.size) : data.length ≤ cfg.C - (rb.drop cfg).size := by
  rw [RingBuffer.drop_size]
  omega

/-- A complete field is decoded alike, whatever follows it. -/
theorem decodeField_extend {rb' : RingBuffer} {f : DecodedField} (h : rb.Inv cfg)
    (hroom : data.length ≤ cfg.C - rb.size) (hd : decodeField cfg rb = (rb', .ok f)) :
    decodeField cfg (rb.extend cfg data) = (rb'.extend cfg data, .ok f) := by
  by_cases hs : rb.size = 0
  · simp [decodeField, RingBuffer.deq_of_size_eq hs] at hd
  rw [decodeField, RingBuffer.deq_of_size_ne hs] at hd
  rw [decodeField, RingBuffer.deq_extend h hroom hs]
  cases hb : continues (rb.byteAt cfg 0) <;> simp only [hb, if_true, Bool.false_eq_true, if_false] at hd ⊢
  · cases hd; rfl
  · by_cases hs1 : (rb.drop cfg).size = 0
    · simp [RingBuffer.deq_of_size_eq hs1] at hd
    rw [RingBuffer.deq_of_size_ne hs1] at hd
    rw [RingBuffer.deq_extend (h.drop hs) (RingBuffer.room_drop hroom) hs1]
    cases hd
    rfl

/-- Bytes that are buffered are moved to the accumulator alike, whatever follows them. -/
theorem moveBody_extend {n : Nat} (h : rb.Inv cfg) (hroom : data.length ≤ cfg.C - rb.size) (hn : n ≤ rb.size)
    (acc : Memory) (i : Nat) : moveBody cfg n (rb.extend cfg data) acc i =
      ((moveBody cfg n rb acc i).1.extend cfg data, (moveBody cfg n rb acc i).2) := by
  induction n generalizing rb acc i with
  | zero => rfl
  | succ n ih =>
    have hs : rb.size ≠ 0 := by omega
    have hn' : n ≤ (rb.drop cfg).size := by rw [RingBuffer.drop_size]; omega
    simp only [moveBody, RingBuffer.deq_extend h hroom hs, RingBuffer.deq_of_size_ne hs]
    exact ih (h.drop hs) (RingBuffer.room_drop hroom) hn' _ _

theorem moveBody_add (n m : Nat) (rb : RingBuffer) (acc : Memory) (i : Nat) :
    moveBody cfg (n + m) rb acc i = moveBody cfg m (moveBody cfg n rb acc i).1 (moveBody cfg n rb acc i).2 (i + n) := by
  induction n generalizing rb acc i with
  | zero => rw [Nat.zero_add]; rfl
  | succ n ih =>
    by_cases hs : rb.size = 0
    · cases m <;> simp [moveBody, RingBuffer.deq_of_size_eq hs]
    · rw [Nat.succ_add]
      simp only [moveBody, RingBuffer.deq_of_size_ne hs]
      rw [ih, Nat.add_assoc, Nat.add_comm 1 n]

end

/-! ## A transition with more bytes behind -/

/-- The block with `data` behind its newest byte (R81). -/
def Block.extend (cfg : Config) (blk : Block) (data : List Byte) : Block := { blk with rb := blk.rb.extend cfg data }

/-- The transition that leaves its block with `data` behind its newest byte. -/
def Transition.extend (cfg : Config) (t : Transition) (data : List Byte) : Transition :=
  { t with block := t.block.extend cfg data }

@[simp] theorem Block.extend_rb (cfg : Config) (blk : Block) (data : List Byte) :
    (blk.extend cfg data).rb = blk.rb.extend cfg data := rfl
@[simp] theorem Block.extend_p (cfg : Config) (blk : Block) (data : List Byte) : (blk.extend cfg data).p = blk.p := rfl

theorem Block.extend_append (cfg : Config) (blk : Block) (as bs : List Byte) :
    (blk.extend cfg as).extend cfg bs = blk.extend cfg (as ++ bs) := by
  simp only [Block.extend, RingBuffer.extend_append]

theorem Block.Inv.extend {cfg : Config} {blk : Block} {data : List Byte} (h : blk.Inv cfg)
    (hroom : data.length ≤ cfg.C - blk.rb.size) : (blk.extend cfg data).Inv cfg :=
  ⟨h.1.extend hroom, h.2⟩

/-- What `P.BODY` does once its bytes are moved: the packet, if the body is complete (R128). -/
def Block.completeBody (blk : Block) : Transition :=
  if blk.p.bodyCount = blk.p.declSize.toNat then
    blk.emitPacket blk.p.declSize (bodyCopy blk.p.bodyAcc blk.p.declSize.toNat)
  else blk.progress

theorem takeBody_eq_completeBody (cfg : Config) (blk : Block) (take : Nat) :
    takeBody cfg blk take = (blk.accumulated cfg take).completeBody := rfl

theorem Block.completeBody_extend (cfg : Config) (blk : Block) (data : List Byte) :
    (blk.extend cfg data).completeBody = blk.completeBody.extend cfg data := by
  simp only [Block.completeBody, apply_ite (Transition.extend cfg · data)]
  rfl

section
variable {cfg : Config} {blk : Block} {data : List Byte}

/-- Bytes moved in two transitions are moved as in one. -/
theorem Block.accumulated_add (n m : Nat) :
    (blk.accumulated cfg n).accumulated cfg m = blk.accumulated cfg (n + m) := by
  simp only [Block.accumulated, moveBody_add, Nat.add_assoc]

theorem judgeSize_extend : judgeSize cfg (blk.extend cfg data) = (judgeSize cfg blk).extend cfg data := by
  simp only [judgeSize, apply_ite (Transition.extend cfg · data)]
  rfl

section
variable (h : blk.rb.Inv cfg) (hroom : data.length ≤ cfg.C - blk.rb.size)
include h hroom

theorem Block.accumulated_extend {n : Nat} (hn : n ≤ blk.rb.size) :
    (blk.extend cfg data).accumulated cfg n = (blk.accumulated cfg n).extend cfg data := by
  simp only [Block.accumulated, Block.extend, moveBody_extend h hroom hn]

theorem syncTransition_extend (hs : blk.rb.size ≠ 0) :
    syncTransition cfg (blk.extend cfg data) = (syncTransition cfg blk).extend cfg data := by
  have hs' : (blk.extend cfg data).rb.size ≠ 0 := by simp [hs]
  rw [syncTransition_of_size_ne hs, syncTransition_of_size_ne hs', Block.extend_rb, RingBuffer.drop_extend hs,
    RingBuffer.byteAt_zero_extend h hroom hs]
  rfl

theorem sizeTransition_extend (hv : (sizeTransition cfg blk).verdict = .progress) :
    sizeTransition cfg (blk.extend cfg data) = (sizeTransition cfg blk).extend cfg data := by
  rcases sizeTransition_cases cfg blk with ⟨rb', f, -, ht⟩ | ⟨rb', f, hd, ht⟩
  · rw [ht] at hv
    cases hv
  · rw [ht, sizeTransition, Block.extend_rb, decodeField_extend h hroom hd]
    rfl

theorem typeTransition_extend (hv : (typeTransition cfg blk).verdict = .progress) :
    typeTransition cfg (blk.extend cfg data) = (typeTransition cfg blk).extend cfg data := by
  rcases typeTransition_cases cfg blk with ⟨rb', f, -, ht⟩ | ⟨rb', f, hd, ht⟩
  · rw [ht] at hv
    cases hv
  · rw [ht, typeTransition, Block.extend_rb, decodeField_extend h hroom hd]
    rfl

theorem checksumTransition_extend (hs : blk.rb.size ≠ 0) :
    checksumTransition cfg (blk.extend cfg data) = (checksumTransition cfg blk).extend cfg data := by
  have hs' : (blk.extend cfg data).rb.size ≠ 0 := by simp [hs]
  rw [checksumTransition_of_size_ne hs, checksumTransition_of_size_ne hs', Block.extend_rb, RingBuffer.drop_extend hs,
    RingBuffer.byteAt_zero_extend h hroom hs, Block.extend_p]
  split
  · exact judgeSize_extend (blk := { blk with rb := blk.rb.drop cfg })
  · rfl

theorem takeBody_extend {n : Nat} (hn : n ≤ blk.rb.size) :
    takeBody cfg (blk.extend cfg data) n = (takeBody cfg blk n).extend cfg data := by
  rw [takeBody_eq_completeBody, Block.accumulated_extend h hroom hn, Block.completeBody_extend]
  rfl

/-- Where `n` bytes were buffered and moved, the bytes appended are moved by the next transition or by the same one. -/
theorem takeBody_accumulated_extend {n : Nat} (hn : n ≤ blk.rb.size) (m : Nat) :
    takeBody cfg ((blk.accumulated cfg n).extend cfg data) m = takeBody cfg (blk.extend cfg data) (n + m) := by
  rw [← Block.accumulated_extend h hroom hn, takeBody_eq_completeBody, Block.accumulated_add]
  rfl

end

/-- R128: with bytes appended `P.BODY` does the same where it had enough; else it had taken all there was, emitting nothing,
and with the bytes appended it does now what it would do next. -/
theorem bodyTransition_extend (h : blk.Inv cfg) (hroom : data.length ≤ cfg.C - blk.rb.size) (hs : blk.rb.size ≠ 0)
    (hp : blk.p.phase = .body) (hne : data ≠ []) :
    bodyTransition cfg (blk.extend cfg data).rb.size (blk.extend cfg data) =
        (bodyTransition cfg blk.rb.size blk).extend cfg data ∨
      (bodyTransition cfg blk.rb.size blk = (blk.accumulated cfg blk.rb.size).progress ∧
        ((blk.accumulated cfg blk.rb.size).extend cfg data).rb.size ≠ 0 ∧
        bodyTransition cfg (blk.extend cfg data).rb.size (blk.extend cfg data) =
          bodyTransition cfg ((blk.accumulated cfg blk.rb.size).extend cfg data).rb.size
            ((blk.accumulated cfg blk.rb.size).extend cfg data)) := by
  have hs' : (blk.extend cfg data).rb.size ≠ 0 := by simp [hs]
  obtain ⟨-, -, hcount⟩ := h.2.2 hp
  rcases Nat.lt_or_ge cfg.bodyCap blk.p.declSize.toNat with hover | hcap
  · refine .inl ?_
    rw [bodyTransition, bodyTransition, if_neg hs, if_neg hs', if_pos hover, Block.extend_p, if_pos hover]
    rfl
  have htake := bodyTransition_of_le hs hcap (Nat.le_of_lt hcount)
  have htake' := bodyTransition_of_le (blk := blk.extend cfg data) hs' hcap (Nat.le_of_lt hcount)
  rcases Nat.lt_or_ge blk.rb.size (blk.p.declSize.toNat - blk.p.bodyCount) with hless | henough
  · have hleft : (blk.accumulated cfg blk.rb.size).rb.size = 0 :=
      (moveBody_size cfg blk.rb.size _ _ _).trans (Nat.sub_self _)
    have hnext : ((blk.accumulated cfg blk.rb.size).extend cfg data).rb.size = data.length := by
      rw [Block.extend_rb, RingBuffer.extend_size, hleft, Nat.zero_add]
    have hs'' : ((blk.accumulated cfg blk.rb.size).extend cfg data).rb.size ≠ 0 :=
      hnext ▸ mt List.length_eq_zero_iff.mp hne
    have hcount' : blk.p.bodyCount + blk.rb.size ≤ blk.p.declSize.toNat := by omega
    refine .inr ⟨?_, hs'', ?_⟩
    · rw [htake, Nat.min_eq_left (Nat.le_of_lt hless)]
      rcases takeBody_cases cfg blk blk.rb.size with ⟨hfull, -⟩ | ⟨-, ht⟩
      · omega
      · exact ht
    · rw [htake', bodyTransition_of_le (blk := (blk.accumulated cfg blk.rb.size).extend cfg data) hs'' hcap hcount',
        takeBody_accumulated_extend h.1 hroom (Nat.le_refl _), hnext]
      congr 1
      simp [Block.accumulated]
      omega
  · refine .inl ?_
    rw [htake, htake', ← takeBody_extend h.1 hroom (Nat.min_le_left _ _)]
    congr 1
    simp
    omega

/-! ## A drive with more bytes behind -/

/-- A transition that the bytes appended leave as it is leads to where they are appended after it. -/
theorem Drives.step_extend {blk' : Block} {es : List Event} (hs : blk.rb.size ≠ 0)
    (hv : (transition cfg blk).verdict = .progress)
    (heq : transition cfg (blk.extend cfg data) = (transition cfg blk).extend cfg data)
    (hd : Drives cfg ((transition cfg blk).block.extend cfg data) blk' es) :
    Drives cfg (blk.extend cfg data) blk' ((transition cfg blk).event.toList ++ es) := by
  have hstep := Drives.step (cfg := cfg) (blk := blk.extend cfg data) (blk' := blk') (es := es) (by simp [hs])
  rw [heq] at hstep
  exact hstep hv hd

/-- Blocks from which the same transition progresses drive alike. -/
theorem Drives.of_transition_eq {a b blk' : Block} {es : List Event} (ha : a.rb.size ≠ 0) (hb : b.rb.size ≠ 0)
    (hv : (transition cfg b).verdict = .progress) (heq : transition cfg a = transition cfg b)
    (hd : Drives cfg b blk' es) : Drives cfg a blk' es := by
  cases hd with
  | rest hr => exact absurd ((hr.verdict hb).symm.trans hv) (by decide)
  | step _ _ hrest =>
    rw [← heq] at hv hrest ⊢
    exact .step ha hv hrest

theorem transition_of_body (hp : blk.p.phase = .body) : transition cfg blk = bodyTransition cfg blk.rb.size blk := by
  simp only [transition, hp]

theorem transition_verdict_of_body (hp : blk.p.phase = .body) (hs : blk.rb.size ≠ 0) :
    (transition cfg blk).verdict = .progress := by
  rw [transition_of_body hp]
  exact (bodyTransition_suspendsOrProgresses _).resolve_left fun hc => hs hc.1

section
variable {blk' : Block} {es : List Event} (h : blk.Inv cfg) (hroom : data.length ≤ cfg.C - blk.rb.size)
  (hs : blk.rb.size ≠ 0) (hne : data ≠ [])
include h hroom hs hne

theorem Drives.step_extend_of_body (hp : blk.p.phase = .body)
    (hd : Drives cfg ((transition cfg blk).block.extend cfg data) blk' es) :
    Drives cfg (blk.extend cfg data) blk' ((transition cfg blk).event.toList ++ es) := by
  have hs0 : (blk.extend cfg data).rb.size ≠ 0 := by simp [hs]
  have hext := transition_of_body (cfg := cfg) (blk := blk.extend cfg data) hp
  rcases bodyTransition_extend h hroom hs hp hne with heq | ⟨ht, hs', heq⟩
  · exact .step_extend hs (transition_verdict_of_body hp hs) (by rw [hext, transition_of_body hp, heq]) hd
  · have hnext := transition_of_body (cfg := cfg) (blk := (blk.accumulated cfg blk.rb.size).extend cfg data) hp
    rw [transition_of_body hp, ht] at hd ⊢
    exact .of_transition_eq hs0 hs' (transition_verdict_of_body hp hs') (by rw [hext, hnext, heq]) hd

/-- The next transition may as well be made with the bytes appended already. -/
theorem Drives.step_of_extend (hv : (transition cfg blk).verdict = .progress)
    (hd : Drives cfg ((transition cfg blk).block.extend cfg data) blk' es) :
    Drives cfg (blk.extend cfg data) blk' ((transition cfg blk).event.toList ++ es) := by
  by_cases hp : blk.p.phase = .body
  · exact .step_extend_of_body h hroom hs hne hp hd
  refine .step_extend hs hv ?_ hd
  unfold transition at hv ⊢
  rw [Block.extend_p]
  cases hphase : blk.p.phase <;> simp only [hphase] at hv ⊢
  case sync => exact syncTransition_extend h.1 hroom hs
  case headerSize => exact sizeTransition_extend h.1 hroom hv
  case headerType => exact typeTransition_extend h.1 hroom hv
  case headerChecksum => exact checksumTransition_extend h.1 hroom hs
  case body => exact absurd hphase hp
  case illegal5 | illegal6 | illegal7 => rfl

end

theorem transition_size_le (h : blk.Inv cfg) (hs : blk.rb.size ≠ 0) (hv : (transition cfg blk).verdict = .progress) :
    (transition cfg blk).block.rb.size ≤ blk.rb.size := by
  rcases transition_leavesLess h.2.2 hs hv with hlt | ⟨heq, -⟩
  · exact Nat.le_of_lt hlt
  · exact Nat.le_of_eq heq

theorem Drives.size_le {blk' : Block} {es : List Event} (hd : Drives cfg blk blk' es) (h : blk.Inv cfg) :
    blk'.rb.size ≤ blk.rb.size := by
  induction hd with
  | rest => exact Nat.le_refl _
  | step hs hv _ ih => exact Nat.le_trans (ih h.transition) (transition_size_le h hs hv)

/-- Driving before an append and after it comes to the same as driving after it only. -/
theorem Drives.extend {b0 b1 : Block} {es fs : List Event} (hne : data ≠ []) (hd : Drives cfg blk b0 es)
    (h : blk.Inv cfg) (hroom : data.length ≤ cfg.C - blk.rb.size) (hd' : Drives cfg (b0.extend cfg data) b1 fs) :
    Drives cfg (blk.extend cfg data) b1 (es ++ fs) := by
  induction hd with
  | rest => exact hd'
  | @step blk b0 es hs hv _ ih =>
    have hle := transition_size_le h hs hv
    rw [List.append_assoc]
    exact .step_of_extend h hroom hs hne hv (ih h.transition (by omega) hd')

end

/-! ## Chunks delivered as single bytes (R132) -/

theorem feedBlock_of_le {cfg : Config} {blk blk' : Block} {data : List Byte} {es : List Event}
    (hroom : data.length ≤ cfg.C - blk.rb.size) (hd : driveBlock cfg (blk.extend cfg data) = some (blk', es)) :
    feedBlock cfg blk data = some (blk', .ok, es) := by
  have happend : blk.appendChunk cfg data = (blk.extend cfg data, .ok) := by
    simp only [Block.appendChunk, RingBuffer.append_of_le hroom, Block.extend]
  simp only [feedBlock, happend, hd]

/-- A chunk appended and driven is driven as its bytes one after the other, after a drive of what is buffered already. -/
theorem feedBytes_of_drives {cfg : Config} {chunk : List Byte} {blk b0 b1 : Block} {es fs : List Event}
    (h : blk.Inv cfg) (hroom : chunk.length ≤ cfg.C - blk.rb.size) (h0 : Drives cfg blk b0 es)
    (h1 : Drives cfg (blk.extend cfg chunk) b1 fs) :
    ∃ rs gs, feedBytes cfg chunk b0 = some (b1, rs, gs) ∧ fs = es ++ gs := by
  induction chunk generalizing blk b0 es with
  | nil =>
    rw [Block.extend, RingBuffer.extend_nil h.1] at h1
    obtain ⟨rfl, rfl⟩ := h0.unique h1
    exact ⟨[], [], rfl, (List.append_nil es).symm⟩
  | cons x chunk ih =>
    rw [List.length_cons] at hroom
    have hone : [x].length ≤ cfg.C - blk.rb.size := by rw [List.length_singleton]; omega
    have hone0 : [x].length ≤ cfg.C - b0.rb.size := Nat.le_trans hone (Nat.sub_le_sub_left (h0.size_le h) _)
    have hinv : (blk.extend cfg [x]).Inv cfg := h.extend hone
    have hinv0 : (b0.extend cfg [x]).Inv cfg := (h0.inv h).extend hone0
    obtain ⟨b, es', hb⟩ := exists_drives hinv0
    have hroom' : chunk.length ≤ cfg.C - (blk.extend cfg [x]).rb.size := by simp; omega
    rw [← List.singleton_append, ← Block.extend_append] at h1
    obtain ⟨rs, gs, hrest, rfl⟩ := ih hinv hroom' (h0.extend (by simp) h hone hb) h1
    refine ⟨.ok :: rs, es' ++ gs, ?_, List.append_assoc ..⟩
    simp only [feedBytes, feedBlock_of_le hone0 ((driveBlock_eq_some_iff hinv0).mpr hb), hrest]

theorem feedBytes_append {cfg : Config} {as bs : List Byte} {blk b0 b1 : Block} {rs rs' : List Result}
    {es es' : List Event} (h0 : feedBytes cfg as blk = some (b0, rs, es)) (h1 : feedBytes cfg bs b0 = some (b1, rs', es')) :
    feedBytes cfg (as ++ bs) blk = some (b1, rs ++ rs', es ++ es') := by
  induction as generalizing blk rs es with
  | nil => cases h0; exact h1
  | cons a as ih =>
    simp only [feedBytes] at h0
    split at h0
    · cases h0
    next hfeed =>
      split at h0
      · cases h0
      next hrest =>
        cases h0
        simp only [List.cons_append, feedBytes, hfeed, ih hrest, List.append_assoc]

/-- A `FEED` whose chunk was admitted, as a drive. -/
theorem drives_of_exec_feed {s t : State} {data : List Byte} (hs : s.Inv) (hx : exec (.feed data) s = .next t)
    (hok : t.results = [.ok]) : data.length ≤ s.cfg.C - s.block.rb.size ∧
      Drives s.cfg (s.block.extend s.cfg data) t.block t.events := by
  obtain ⟨hroom, hd⟩ := exec_feed_ok hs hx hok
  exact ⟨hroom, drives_of_driveLoop (Block.Inv.extend hs hroom) hd⟩

/-- Whatever the chunks, the block and the events are those of a drive and a `FEED1` of the bytes, up to what a drive would
still do after them. -/
theorem feedAll_eq_feedBytes {cs : List (List Byte)} {s t : State} {b0 : Block} {es fs : List Event} (hs : s.Inv)
    (hfeed : feedAll cs s = some (t, fs)) (h0 : Drives s.cfg s.block b0 es) :
    ∃ b1 gs rs ks, Drives s.cfg t.block b1 gs ∧ feedBytes s.cfg cs.flatten b0 = some (b1, rs, ks) ∧
      fs ++ gs = es ++ ks := by
  induction cs generalizing s b0 es fs with
  | nil =>
    cases hfeed
    exact ⟨b0, es, [], [], h0, rfl, (List.append_nil es).symm⟩
  | cons c cs ih =>
    obtain ⟨u, fs', hu, hok, hrest, rfl⟩ := feedAll_cons_some hfeed
    obtain ⟨hroom, hd⟩ := drives_of_exec_feed hs hu hok
    obtain ⟨rs, ks, hbytes, hevents⟩ := feedBytes_of_drives hs hroom h0 hd
    have hcfg := (exec_cfg_port hu).1
    have hrested : Drives u.cfg u.block u.block [] := .rest (hcfg ▸ hd.atRest)
    obtain ⟨b1, gs, rs', ks', hleft, hbytes', hevents'⟩ := ih (exec_keeps_inv hs hu) hrest hrested
    rw [hcfg] at hleft hbytes'
    exact ⟨b1, gs, _, _, hleft, feedBytes_append hbytes hbytes', by
      rw [List.append_assoc, hevents', List.nil_append, hevents, List.append_assoc]⟩

theorem feedAll_cfg {cs : List (List Byte)} {s t : State} {es : List Event} (hfeed : feedAll cs s = some (t, es)) :
    t.cfg = s.cfg := by
  induction cs generalizing s es with
  | nil => cases hfeed; rfl
  | cons c cs ih =>
    obtain ⟨u, fs, hu, -, hrest, -⟩ := feedAll_cons_some hfeed
    exact (ih hrest).trans (exec_cfg_port hu).1

/-- After a chunk has been delivered the block is at rest. -/
theorem feedAll_atRest {cs : List (List Byte)} {s t : State} {es : List Event} (hs : s.Inv)
    (hrest : cs = [] → s.block.AtRest s.cfg) (hfeed : feedAll cs s = some (t, es)) : t.block.AtRest s.cfg := by
  induction cs generalizing s es with
  | nil => cases hfeed; exact hrest rfl
  | cons c cs ih =>
    obtain ⟨u, fs, hu, hok, hfeed', -⟩ := feedAll_cons_some hfeed
    have hu' := (drives_of_exec_feed hs hu hok).2.atRest
    rw [← (exec_cfg_port hu).1] at hu' ⊢
    exact ih (exec_keeps_inv hs hu) (fun _ => hu') hfeed'

/-- The block left and the events emitted, from the bytes alone. -/
theorem feedAll_of_ne_nil {cs : List (List Byte)} {s t : State} {b0 : Block} {es fs : List Event} (hs : s.Inv)
    (hne : cs ≠ []) (hfeed : feedAll cs s = some (t, fs)) (h0 : Drives s.cfg s.block b0 es) :
    ∃ rs gs, feedBytes s.cfg cs.flatten b0 = some (t.block, rs, gs) ∧ fs = es ++ gs := by
  obtain ⟨b1, ks, rs, gs, hleft, hbytes, hevents⟩ := feedAll_eq_feedBytes hs hfeed h0
  obtain ⟨rfl, rfl⟩ := (Drives.rest (feedAll_atRest hs (absurd · hne) hfeed)).unique hleft
  exact ⟨rs, gs, hbytes, by rw [← hevents, List.append_nil]⟩

/-- Settles O39: both chunkings come to a drive and a `FEED1` of the same bytes. -/
theorem chunkIndependence : Obligations.ChunkIndependence := by
  intro s t u cs ds es fs hs hcs hds hsame ht hu
  obtain ⟨b0, e0, h0⟩ := exists_drives (cfg := s.cfg) (blk := s.block) hs
  obtain ⟨rs, gs, hbytes, rfl⟩ := feedAll_of_ne_nil hs hcs ht h0
  obtain ⟨rs', gs', hbytes', rfl⟩ := feedAll_of_ne_nil hs hds hu h0
  rw [← hsame, hbytes] at hbytes'
  obtain ⟨hblock, -, rfl⟩ : t.block = u.block ∧ rs = rs' ∧ gs = gs' := by simpa using hbytes'
  have hcfg : t.cfg = u.cfg := (feedAll_cfg ht).trans (feedAll_cfg hu).symm
  rw [State.content, hblock, hcfg]
  exact ⟨rfl, rfl, rfl, rfl, rfl, rfl, fun _ _ _ => rfl⟩

end Sys2Proof.Machine
end

section
/-! PROOFS. The operation failures (60_exceptions.md R150 to R154): which operation raises which, that one changes nothing,
and that no operation of the block is stopped by one. -/

namespace Sys2Proof.Machine

/-! ## Which operation raises which failure -/

/-- The failure is one that the operation itself answers with (R151 to R154). -/
inductive RaisedBy : Failure → Instr → Prop where
  | append (data : List Byte) : RaisedBy .capacityExceeded (.rbAppend data)
  | undeq (b : Byte) : RaisedBy .capacityExceeded (.rbUndeq b)
  | deq : RaisedBy .empty .rbDeq
  | peek (index : Nat) : RaisedBy .outOfRange (.rbPeek index)
  | decode : RaisedBy .insufficientData .vlDec

/-- `FEED` and `FEED1` hand on the failure of an append, and drive all the same (log 17). -/
inductive IsFeed : Instr → Prop where
  | feed (data : List Byte) : IsFeed (.feed data)
  | feed1 (data : List Byte) : IsFeed (.feed1 data)

theorem handleElement_results {i : Instr} {tr : Transition} {s t : State} (h : handleElement i tr s = .next t) :
    ∃ v, t.results = [.verdict v] := by
  rcases handleElement_cases i tr s with ⟨-, he⟩ | ⟨-, -, he⟩ | ⟨-, -, he⟩ <;> rw [he] at h <;> cases h
  · exact ⟨_, rfl⟩
  · exact ⟨_, rfl⟩

theorem deliver_results {bs : Option (List Byte)} {r : Refusal} {s t : State} (h : deliver bs r s = .next t) :
    ∃ bs', t.results = [.bytes bs'] := by
  unfold deliver at h
  split at h <;> cases h
  exact ⟨_, rfl⟩

theorem appendChunk_result (cfg : Config) (blk : Block) (data : List Byte) :
    (blk.appendChunk cfg data).2 = .ok ∨ (blk.appendChunk cfg data).2 = .failed .capacityExceeded := by
  unfold Block.appendChunk
  rcases blk.rb.append_cases cfg data with ⟨-, ha⟩ | ⟨-, ha⟩ <;> rw [ha]
  · exact .inr rfl
  · exact .inl rfl

theorem feedBlock_failed {cfg : Config} {blk : Block} {data : List Byte} {r : Block × Result × List Event} {f : Failure}
    (h : feedBlock cfg blk data = some r) (hf : r.2.1 = .failed f) : f = .capacityExceeded := by
  unfold feedBlock at h
  split at h <;> cases h
  rcases appendChunk_result cfg blk data with ha | ha <;> cases ha.symm.trans hf
  rfl

theorem feedBytes_failed {cfg : Config} {bs : List Byte} {blk : Block} {r : Block × List Result × List Event}
    {f : Failure} (h : feedBytes cfg bs blk = some r) (hf : .failed f ∈ r.2.1) : f = .capacityExceeded := by
  induction bs generalizing blk r with
  | nil => cases h; cases hf
  | cons b bs ih =>
    simp only [feedBytes] at h
    split at h
    · cases h
    next blk' res es hfeed =>
      split at h
      · cases h
      next hrest =>
        cases h
        rcases List.mem_cons.mp hf with heq | hmem
        · exact feedBlock_failed hfeed heq.symm
        · exact ih hrest hmem

/-- A ring-buffer operation that answers with a failure has that one as its own, and has changed nothing. -/
theorem exec_ring_failed {i : Instr} {s t : State} {f : Failure} (hinv : s.block.rb.Inv s.cfg)
    (hi : (∃ d, i = .rbAppend d) ∨ i = .rbDeq ∨ (∃ k, i = .rbPeek k) ∨ (∃ b, i = .rbUndeq b) ∨ i = .vlDec)
    (h : exec i s = .next t) (hf : .failed f ∈ t.results) : RaisedBy f i ∧ t = s.fail f := by
  rcases hi with ⟨data, rfl⟩ | rfl | ⟨index, rfl⟩ | ⟨b, rfl⟩ | rfl
  · rcases Nat.lt_or_ge (s.cfg.C - s.block.rb.size) data.length with hlt | hle
    · cases (exec_rbAppend_of_lt hlt).symm.trans h
      cases List.mem_singleton.mp hf
      exact ⟨.append data, rfl⟩
    · cases (exec_rbAppend_of_le hle).symm.trans h
      cases List.mem_singleton.mp hf
  · by_cases hs : s.block.rb.size = 0
    · cases (exec_rbDeq_of_size_eq hs).symm.trans h
      cases List.mem_singleton.mp hf
      exact ⟨.deq, rfl⟩
    · cases (exec_rbDeq_of_size_ne hs).symm.trans h
      cases List.mem_singleton.mp hf
  · rcases Nat.lt_or_ge index s.block.rb.size with hlt | hle
    · cases (exec_rbPeek_of_lt hlt).symm.trans h
      cases List.mem_singleton.mp hf
    · cases (exec_rbPeek_of_le hle).symm.trans h
      cases List.mem_singleton.mp hf
      exact ⟨.peek index, rfl⟩
  · by_cases hs : s.block.rb.size = s.cfg.C
    · cases (exec_rbUndeq_of_size_eq b hs).symm.trans h
      cases List.mem_singleton.mp hf
      exact ⟨.undeq b, rfl⟩
    · cases (exec_rbUndeq_of_size_ne b hs).symm.trans h
      cases List.mem_singleton.mp hf
  · simp only [exec, execVlDec] at h
    rcases decodeField_cases_content hinv with ⟨-, hd⟩ | ⟨b0, -, -, -, hd⟩ | ⟨b0, b1, -, -, -, -, hd⟩ <;>
      rw [hd] at h <;> cases h <;> cases List.mem_singleton.mp hf
    exact ⟨.decode, rfl⟩

/-- All that a failure among an operation's results can mean: the operation has failed with it and changed nothing, or it
is that of an append of a feed. -/
theorem exec_failed_cases {i : Instr} {s t : State} {f : Failure} (hinv : s.block.rb.Inv s.cfg)
    (h : exec i s = .next t) (hf : .failed f ∈ t.results) :
    (RaisedBy f i ∧ t = s.fail f) ∨ (IsFeed i ∧ f = .capacityExceeded) := by
  cases i
  case reset | rbInit | pInit => cases h; cases hf
  case pStep | pSync | pHsize | pHtype | pHcsum | pBody | pIllegal5 | pIllegal67 => cases h; simp at hf
  case wSync0 | wSync1 | wSync2 | wSkip | wV1 | wV2 | wCsum | wBody =>
    obtain ⟨v, hr⟩ := handleElement_results h
    simp [hr] at hf
  case vlEnc | fbBuild | frame | enc =>
    obtain ⟨bs, hr⟩ := deliver_results h
    simp [hr] at hf
  case drive =>
    simp only [exec, execDrive] at h
    split at h <;> cases h
    cases hf
  case rbAppend | rbDeq | rbPeek | rbUndeq | vlDec => exact .inl (exec_ring_failed hinv (by tauto) h hf)
  case feed data =>
    simp only [exec, execFeed] at h
    split at h <;> cases h
    next hfeed => exact .inr ⟨.feed data, feedBlock_failed hfeed (List.mem_singleton.mp hf).symm⟩
  case feed1 data =>
    simp only [exec, execFeed1] at h
    split at h <;> cases h
    next hfeed => exact .inr ⟨.feed1 data, feedBytes_failed hfeed hf⟩

/-! ## Failures change nothing and stop nothing (R150) -/

theorem exec_drive_returns {s : State} (hs : s.Inv) : ∃ t, exec .drive s = .next t := by
  obtain ⟨-, t, h, -⟩ := driveReturnsQuiescent s hs
  exact ⟨t, h⟩

theorem exec_ring_returns {i : Instr} {s : State} (hinv : s.block.rb.Inv s.cfg)
    (hi : i = .rbInit ∨ (∃ d, i = .rbAppend d) ∨ i = .rbDeq ∨ (∃ k, i = .rbPeek k) ∨ (∃ b, i = .rbUndeq b) ∨ i = .vlDec) :
    ∃ t, exec i s = .next t := by
  obtain ⟨t, h, -⟩ := exec_ring_reply hinv hi
  exact ⟨t, h⟩

/-- Every operation of the block answers where the invariants hold. -/
theorem exec_blockOp_returns {i : Instr} {s : State} (hs : s.Inv) (hi : isBlockOp i = true) :
    ∃ t, exec i s = .next t := by
  cases i
  case drive => exact exec_drive_returns hs
  case rbInit | rbAppend | rbDeq | rbPeek | rbUndeq | vlDec => exact exec_ring_returns hs.1 (by tauto)
  case reset | pInit | pStep | pSync | pHsize | pHtype | pHcsum | pBody | pIllegal5 | pIllegal67 => exact ⟨_, rfl⟩
  all_goals cases hi

/-- Settles O13: an operation of the block that answers with a failure is not a feed, and of the operations of the block
only the drive could fail to answer. -/
theorem failureChangesNothing : Obligations.FailureChangesNothing := by
  refine ⟨fun s t i f hinv hi h hf => ?_, fun s i => exec_blockOp_returns⟩
  rcases exec_failed_cases hinv h hf with ⟨-, ht⟩ | ⟨hfeed, -⟩
  · exact ht
  · cases hfeed <;> cases hi

/-! ## The condition of each failure (R152 to R154) -/

theorem exec_rbDeq_empty_iff (s : State) :
    ∃ t, exec .rbDeq s = .next t ∧ (.failed .empty ∈ t.results ↔ s.block.rb.size = 0) := by
  by_cases hs : s.block.rb.size = 0
  · exact ⟨_, exec_rbDeq_of_size_eq hs, by simp [hs]⟩
  · exact ⟨_, exec_rbDeq_of_size_ne hs, by simp [hs]⟩

theorem exec_rbPeek_outOfRange_iff (s : State) (index : Nat) :
    ∃ t, exec (.rbPeek index) s = .next t ∧ (.failed .outOfRange ∈ t.results ↔ s.block.rb.size ≤ index) := by
  rcases Nat.lt_or_ge index s.block.rb.size with hlt | hle
  · exact ⟨_, exec_rbPeek_of_lt hlt, by simpa using hlt⟩
  · exact ⟨_, exec_rbPeek_of_le hle, by simpa using hle⟩

/-- A decode fails on the contents that end before the field does (R101). -/
theorem contentDecode_failed_iff (bs : List Byte) :
    .failed .insufficientData = (contentDecode bs).1 ↔ bs = [] ∨ ∃ b, bs = [b] ∧ 128 ≤ b.toNat := by
  rcases bs with _ | ⟨b0, _ | ⟨b1, rest⟩⟩
  · simp [contentDecode]
  · by_cases hb : 128 ≤ b0.toNat <;> simp [contentDecode, continues_eq, hb]
  · by_cases hb : 128 ≤ b0.toNat <;> simp [contentDecode, continues_eq, hb]

theorem exec_vlDec_insufficientData_iff {s : State} (h : s.block.rb.Inv s.cfg) :
    ∃ t, exec .vlDec s = .next t ∧ (.failed .insufficientData ∈ t.results ↔
      s.content = [] ∨ ∃ b, s.content = [b] ∧ 128 ≤ b.toNat) := by
  obtain ⟨t, ht, hres, -⟩ := exec_vlDec_reply h
  refine ⟨t, ht, ?_⟩
  rw [hres]
  exact List.mem_singleton.trans (contentDecode_failed_iff s.content)

theorem exec_pBody_progress {s : State} (hs : s.block.rb.size ≠ 0) :
    ∃ t, exec .pBody s = .next t ∧ t.results = [.verdict .progress] := by
  refine ⟨_, rfl, ?_⟩
  have hs' : s.forgetDeadBody.block.rb.size ≠ 0 := by simpa using hs
  have hv := (bodyTransition_suspendsOrProgresses (cfg := s.cfg) (blk := s.forgetDeadBody.block)
    s.block.rb.size).resolve_left fun h => hs' h.1
  rw [State.finishTransition_results, hv]

/-- Settles O57: the conditions one by one, then that no other operation raises these failures, then that the transitions
suspend where the ring buffer is empty or the field incomplete. -/
theorem failuresRaisedExactlyWhen : Obligations.FailuresRaisedExactlyWhen := by
  intro s hinv
  have hempty : s.content = [] → s.block.rb.size = 0 := fun hc => by simpa using congrArg List.length hc
  refine ⟨exec_rbDeq_empty_iff s, exec_rbPeek_outOfRange_iff s, exec_vlDec_insufficientData_iff hinv,
    fun t i f h hf => ?alone, fun i hi _ hc => ?empty, fun i b hi _ hc hb => ?incomplete, fun _ hne => ?body⟩
  case alone =>
    rcases exec_failed_cases hinv h hf with ⟨hraised, rfl⟩ | ⟨-, rfl⟩
    · cases hraised with
      | append | undeq => exact .inl rfl
      | deq => exact .inr ⟨rfl, rfl, .inl ⟨rfl, rfl⟩⟩
      | peek index => exact .inr ⟨rfl, rfl, .inr (.inl ⟨rfl, index, rfl⟩)⟩
      | decode => exact .inr ⟨rfl, rfl, .inr (.inr ⟨rfl, rfl⟩)⟩
    · exact .inl rfl
  case empty => exact emptyRingSuspends s i (hempty hc) (by tauto)
  case incomplete =>
    obtain ⟨-, -, hsize⟩ := pHsizeDecodesSize s hinv
    obtain ⟨-, -, htype⟩ := pHtypeDecodesType s hinv
    rcases hi with rfl | rfl
    · exact hsize (.inr ⟨b, hc, hb⟩)
    · exact htype (.inr ⟨b, hc, hb⟩)
  case body => exact exec_pBody_progress fun hs => hne (RingBuffer.content_of_size_eq hs)

end Sys2Proof.Machine
end

section
/-! PROOFS. The parser errors (60_exceptions.md R155 to R157, R163): the condition of each, what entering one leaves, and
the operations that never report an overflow. -/

namespace Sys2Proof.Machine

/-! ## The condition of each error (R155 to R157) -/

/-- The condition of an error, with a byte buffered. -/
def Block.ErrorCondition (cfg : Config) (blk : Block) : ErrorKind → Prop
  | .headerChecksumMismatch => blk.p.phase = .headerChecksum ∧ blk.rb.byteAt cfg 0 ≠ blk.p.hdrCsum
  | .oversizedBody => blk.p.phase = .headerChecksum ∧ blk.rb.byteAt cfg 0 = blk.p.hdrCsum ∧
      cfg.maxBody.toNat < blk.p.declSize.toNat
  | .bodyBufferOverflow => blk.p.phase = .body ∧ cfg.bodyCap < blk.p.declSize.toNat

/-- The ring buffer that an error leaves: without the checksum byte, but that an overflow consumes nothing (R163). -/
def RingBuffer.afterError (cfg : Config) (rb : RingBuffer) (kind : ErrorKind) : RingBuffer :=
  if kind = .bodyBufferOverflow then rb else rb.drop cfg

section
variable {cfg : Config} {blk : Block} {kind : ErrorKind}

/-- Where its condition holds, the error is entered. -/
theorem transition_of_errorCondition (hs : blk.rb.size ≠ 0) (h : blk.ErrorCondition cfg kind) :
    transition cfg blk = Block.raiseError { blk with rb := blk.rb.afterError cfg kind } kind := by
  cases kind with
  | headerChecksumMismatch =>
    obtain ⟨hp, hb⟩ := h
    rw [transition_of_headerChecksum hp, checksumTransition_of_size_ne hs, if_neg hb]
    rfl
  | oversizedBody =>
    obtain ⟨hp, hb, hmax⟩ := h
    rw [transition_of_headerChecksum hp, checksumTransition_of_size_ne hs, if_pos hb, judgeSize, if_pos hmax]
    rfl
  | bodyBufferOverflow =>
    obtain ⟨hp, hcap⟩ := h
    rw [transition_of_body hp, bodyTransition, if_neg hs, if_pos hcap]
    rfl

theorem syncTransition_event (cfg : Config) (blk : Block) : (syncTransition cfg blk).event = none := by
  rcases syncTransition_cases cfg blk with ⟨-, ht⟩ | ⟨-, ht⟩ <;> rw [ht] <;> rfl

theorem sizeTransition_event (cfg : Config) (blk : Block) : (sizeTransition cfg blk).event = none := by
  rcases sizeTransition_cases cfg blk with ⟨_, _, -, ht⟩ | ⟨_, _, -, ht⟩ <;> rw [ht] <;> rfl

theorem typeTransition_event (cfg : Config) (blk : Block) : (typeTransition cfg blk).event = none := by
  rcases typeTransition_cases cfg blk with ⟨_, _, -, ht⟩ | ⟨_, _, -, ht⟩ <;> rw [ht] <;> rfl

/-- Only the checksum's and the body's transition emit anything (R121). -/
theorem transition_event_some {e : Event} (h : (transition cfg blk).event = some e) :
    (blk.p.phase = .headerChecksum ∧ (checksumTransition cfg blk).event = some e) ∨
      (blk.p.phase = .body ∧ (bodyTransition cfg blk.rb.size blk).event = some e) := by
  unfold transition at h
  cases hp : blk.p.phase <;> simp only [hp] at h
  case sync => rw [syncTransition_event] at h; cases h
  case headerSize => rw [sizeTransition_event] at h; cases h
  case headerType => rw [typeTransition_event] at h; cases h
  case headerChecksum => exact .inl ⟨rfl, h⟩
  case body => exact .inr ⟨rfl, h⟩
  case illegal5 | illegal6 | illegal7 => cases h

theorem judgeSize_error (h : (judgeSize cfg blk).event = some (.error kind)) :
    kind = .oversizedBody ∧ cfg.maxBody.toNat < blk.p.declSize.toNat := by
  rcases judgeSize_cases cfg blk with ⟨hmax, hj⟩ | ⟨-, -, hj⟩ | ⟨-, -, hj⟩ <;> rw [hj] at h <;> cases h
  exact ⟨rfl, hmax⟩

theorem checksumTransition_error (hp : blk.p.phase = .headerChecksum)
    (h : (checksumTransition cfg blk).event = some (.error kind)) : blk.rb.size ≠ 0 ∧ blk.ErrorCondition cfg kind := by
  rcases checksumTransition_cases cfg blk with ⟨-, ht⟩ | ⟨hs, _, -, ⟨hb, ht⟩ | ⟨hb, ht⟩⟩ <;> rw [ht] at h
  · cases h
  · obtain ⟨rfl, hmax⟩ := judgeSize_error h
    exact ⟨hs, hp, hb, hmax⟩
  · cases h
    exact ⟨hs, hp, hb⟩

theorem bodyTransition_error {limit : Nat} (h : (bodyTransition cfg limit blk).event = some (.error kind)) :
    kind = .bodyBufferOverflow ∧ blk.rb.size ≠ 0 ∧ cfg.bodyCap < blk.p.declSize.toNat := by
  rcases bodyTransition_cases cfg limit blk with ⟨-, ht⟩ | ⟨hs, hcap, ht⟩ | ⟨-, -, ht⟩
  · rw [ht] at h
    cases h
  · rw [ht] at h
    cases h
    exact ⟨rfl, hs, hcap⟩
  · rcases takeBody_cases cfg blk (min (min blk.rb.size limit) (bodyRemainder cfg blk.p)) with ⟨-, hb⟩ | ⟨-, hb⟩ <;>
      rw [ht, hb] at h <;> cases h

/-- `P.STEP` reports an error exactly where a byte is buffered and the error's condition holds. -/
theorem transition_error_iff : (transition cfg blk).event = some (.error kind) ↔
    blk.rb.size ≠ 0 ∧ blk.ErrorCondition cfg kind := by
  refine ⟨fun h => ?_, fun ⟨hs, h⟩ => by rw [transition_of_errorCondition hs h, Block.raiseError_event]⟩
  rcases transition_event_some h with ⟨hp, h'⟩ | ⟨hp, h'⟩
  · exact checksumTransition_error hp h'
  · obtain ⟨rfl, hs, hcap⟩ := bodyTransition_error h'
    exact ⟨hs, hp, hcap⟩

/-- Entry into an error (R163): what it leaves. -/
theorem transition_of_error (h : (transition cfg blk).event = some (.error kind)) :
    transition cfg blk = Block.raiseError { blk with rb := blk.rb.afterError cfg kind } kind := by
  obtain ⟨hs, hcond⟩ := transition_error_iff.mp h
  exact transition_of_errorCondition hs hcond

/-- R157: where `BODY_CAP >= MAX_BODY` the `BODY` row of R25 leaves no room for an overflow. -/
theorem Parser.BodyInv.not_overflow {p : Parser} (hwf : cfg.wellFormed) (h : p.BodyInv cfg) (hp : p.phase = .body) :
    ¬ cfg.bodyCap < p.declSize.toNat := by
  obtain ⟨-, hmax, -⟩ := h hp
  exact Nat.not_lt.mpr (Nat.le_trans hmax hwf)

end

theorem RingBuffer.afterError_content {cfg : Config} {rb : RingBuffer} (hs : rb.size ≠ 0) (kind : ErrorKind) :
    (rb.afterError cfg kind).content cfg =
      if kind = .bodyBufferOverflow then rb.content cfg else (rb.content cfg).drop 1 := by
  unfold RingBuffer.afterError
  split
  · rfl
  · rw [RingBuffer.content_drop hs, List.drop_one, List.tail_cons]

theorem RingBuffer.afterError_store_tail (cfg : Config) (rb : RingBuffer) (kind : ErrorKind) :
    (rb.afterError cfg kind).store = rb.store ∧ (rb.afterError cfg kind).tail = rb.tail := by
  unfold RingBuffer.afterError
  split <;> exact ⟨rfl, rfl⟩

/-- Settles O31: the transition is the error's entry, which writes the phase and takes at most the checksum byte. -/
theorem errorEntryWritesPhaseOnly : Obligations.ErrorEntryWritesPhaseOnly := by
  intro s t kind _ h he
  cases h
  have hevent : (transition s.cfg s.block).event = some (.error kind) := by simpa using he
  obtain ⟨hs, -⟩ := transition_error_iff.mp hevent
  rw [transition_of_error hevent]
  exact ⟨rfl, rfl, RingBuffer.afterError_content hs kind, RingBuffer.afterError_store_tail s.cfg s.block.rb kind⟩

/-- Settles O58: the conditions are those of `Block.ErrorCondition` with the front byte `b`. -/
theorem parserErrorsRaisedExactlyWhen : Obligations.ParserErrorsRaisedExactlyWhen := by
  intro s b rest _ hc
  have hs : s.block.rb.size ≠ 0 := size_ne_zero_of_content hc
  have hb : s.block.rb.byteAt s.cfg 0 = b := byteAt_zero_of_content hc
  have hmem : ∀ kind, .error kind ∈ (s.finishTransition (transition s.cfg s.block)).events ↔
      s.block.ErrorCondition s.cfg kind := fun kind => by
    rw [State.finishTransition_events, Option.mem_toList, transition_error_iff]
    exact and_iff_right hs
  refine ⟨_, rfl, exec_phaseInstr s, ?mismatch, ?oversized, hmem .bodyBufferOverflow, fun kind hk => ?effect,
    fun hwf hbody hover => ?unreachable⟩
  case mismatch => rw [hmem, Block.ErrorCondition, hb]
  case oversized => rw [hmem, Block.ErrorCondition, hb]
  case effect =>
    rw [transition_of_errorCondition hs ((hmem kind).mp hk)]
    exact ⟨rfl, rfl⟩
  case unreachable =>
    obtain ⟨hp, hcap⟩ := (hmem .bodyBufferOverflow).mp hover
    exact hbody.not_overflow hwf hp hcap

end Sys2Proof.Machine
end

section
/-! PROOFS. The events of any operation issued in its place (60_exceptions.md R157, R160): each is emitted by a transition
from a block that moves lead to, so that what every move keeps holds where it is emitted. -/

namespace Sys2Proof.Machine

/-! ## Where an event comes from -/

/-- Moves lead from `blk` to a block from which the phase's transition, or one limited to fewer body bytes, emits `e`. -/
inductive Block.Emits (cfg : Config) (blk : Block) (e : Event) : Prop where
  | transition (b : Block) (hm : BlockMoves cfg blk b) (h : (transition cfg b).event = some e)
  | body (b : Block) (hm : BlockMoves cfg blk b) (limit : Nat) (hp : b.p.phase = .body)
      (h : (bodyTransition cfg limit b).event = some e)

section
variable {cfg : Config} {blk : Block} {e : Event}

theorem Block.Emits.of_moves {b : Block} (hm : BlockMoves cfg blk b) (h : b.Emits cfg e) : blk.Emits cfg e := by
  cases h with
  | transition b' hm' h => exact .transition b' (hm.trans hm') h
  | body b' hm' limit hp h => exact .body b' (hm.trans hm') limit hp h

theorem emits_of_transition (h : e ∈ (transition cfg blk).event.toList) : blk.Emits cfg e :=
  .transition blk .refl (Option.mem_toList.mp h)

theorem driveLoop_emits {n : Nat} {blk' : Block} {es : List Event} (h : driveLoop cfg n blk = some (blk', es))
    (he : e ∈ es) : blk.Emits cfg e := by
  induction n generalizing blk es with
  | zero =>
    rcases driveLoop_some_cases h with ⟨-, -, rfl⟩ | ⟨-, -, -, rfl⟩ | ⟨-, -, m, fs, hm, -⟩
    · cases he
    · exact emits_of_transition he
    · cases hm
  | succ n ih =>
    rcases driveLoop_some_cases h with ⟨-, -, rfl⟩ | ⟨-, -, -, rfl⟩ | ⟨-, -, m, fs, hm, hrest, rfl⟩
    · cases he
    · exact emits_of_transition he
    · cases hm
      rcases List.mem_append.mp he with hfirst | hlater
      · exact emits_of_transition hfirst
      · exact (ih hrest hlater).of_moves (.single .transition)

theorem feedBlock_emits {data : List Byte} {r : Block × Result × List Event} (h : feedBlock cfg blk data = some r)
    (he : e ∈ r.2.2) : blk.Emits cfg e := by
  unfold feedBlock at h
  split at h
  next hd => cases h; exact (driveLoop_emits hd he).of_moves (appendChunk_moves cfg blk data)
  next => cases h

theorem feedBytes_emits {bs : List Byte} {r : Block × List Result × List Event} (h : feedBytes cfg bs blk = some r)
    (he : e ∈ r.2.2) : blk.Emits cfg e := by
  induction bs generalizing blk r with
  | nil => cases h; cases he
  | cons b bs ih =>
    simp only [feedBytes] at h
    split at h
    · cases h
    next hfeed =>
      split at h
      · cases h
      next hrest =>
        cases h
        rcases List.mem_append.mp he with hfirst | hlater
        · exact feedBlock_emits hfeed hfirst
        · exact (ih hrest hlater).of_moves (feedBlock_moves hfeed)

end

/-- A wire element emits what its transition does, in a phase that recognises it. -/
theorem handleElement_emits {i : Instr} {tr : Transition} {s t : State} {e : Event}
    (htr : recognises s.block.p i = true → e ∈ tr.event.toList → s.block.Emits s.cfg e)
    (h : handleElement i tr s = .next t) (he : e ∈ t.events) : s.block.Emits s.cfg e := by
  rcases handleElement_cases i tr s with ⟨hf, hx⟩ | ⟨-, -, hx⟩ | ⟨-, -, hx⟩ <;> rw [hx] at h <;> cases h
  · exact htr (frontElement_recognises hf) he
  · cases he

/-- In phase `BODY` every element is a body byte (R68). -/
theorem eq_wBody_of_recognises {p : Parser} {i : Instr} (hp : p.phase = .body) (h : recognises p i = true) :
    ∃ b, i = .wBody b := by
  cases i
  case wBody b => exact ⟨b, rfl⟩
  all_goals simp [recognises, hp] at h

/-- A wire element's transition is `P.STEP`'s own, or that of phase `BODY` for one byte. -/
theorem exec_wireElement_emits {i : Instr} {s t : State} {e : Event} (hi : wireBytes i ≠ []) (h : exec i s = .next t)
    (he : e ∈ t.events) : s.block.Emits s.cfg e := by
  by_cases hbody : ∃ b, i = .wBody b
  · obtain ⟨b, rfl⟩ := hbody
    refine handleElement_emits (fun hr hm => ?_) h he
    exact .body s.block .refl 1 (of_decide_eq_true hr) (Option.mem_toList.mp hm)
  · obtain ⟨tr, hx, htr⟩ := exec_wireElement hi s
    rw [hx] at h
    refine handleElement_emits (fun hr hm => ?_) h he
    exact emits_of_transition (htr hr (fun hp => hbody (eq_wBody_of_recognises hp hr)) ▸ hm)

theorem deliver_events {bs : Option (List Byte)} {r : Refusal} {s t : State} (h : deliver bs r s = .next t) :
    t.events = [] := by
  unfold deliver at h
  split at h <;> cases h
  rfl

/-- The ring-buffer operations and `VL.DEC` emit nothing. -/
theorem exec_ring_events {i : Instr} {s t : State}
    (hi : (∃ d, i = .rbAppend d) ∨ i = .rbDeq ∨ (∃ k, i = .rbPeek k) ∨ (∃ b, i = .rbUndeq b) ∨ i = .vlDec)
    (h : exec i s = .next t) : t.events = [] := by
  rcases hi with ⟨d, rfl⟩ | rfl | ⟨k, rfl⟩ | ⟨b, rfl⟩ | rfl
  case inl => cases h; rfl
  all_goals
    simp only [exec, execRbDeq, execRbPeek, execRbUndeq, execVlDec] at h
    split at h <;> cases h <;> rfl

/-- Every event of an operation issued in its place is emitted by a transition where moves lead. -/
theorem exec_emits {i : Instr} {s t : State} {e : Event} (hi : inPlace i s) (h : exec i s = .next t)
    (he : e ∈ t.events) : s.block.Emits s.cfg e := by
  cases hrow : isPhaseRow i
  case true =>
    rw [hi hrow, exec_phaseInstr] at h
    cases h
    exact emits_of_transition he
  cases i
  case pSync | pHsize | pHtype | pHcsum | pBody | pIllegal5 | pIllegal67 => cases hrow
  case reset | rbInit | pInit => cases h; cases he
  case rbAppend | rbDeq | rbPeek | rbUndeq | vlDec =>
    rw [exec_ring_events (by tauto) h] at he
    cases he
  case pStep => cases h; exact emits_of_transition he
  case drive =>
    simp only [exec, execDrive] at h
    split at h <;> cases h
    next hd => exact driveLoop_emits hd he
  case feed =>
    simp only [exec, execFeed] at h
    split at h <;> cases h
    next hf => exact feedBlock_emits hf he
  case feed1 =>
    simp only [exec, execFeed1] at h
    split at h <;> cases h
    next hf => exact feedBytes_emits hf he
  case wSync0 | wSync1 | wSync2 | wSkip | wV1 | wV2 | wCsum | wBody =>
    exact exec_wireElement_emits (by simp [wireBytes]) h he
  case vlEnc | fbBuild | frame | enc =>
    rw [deliver_events h] at he
    cases he

theorem BlockMoves.parserInv {cfg : Config} {a b : Block} (hm : BlockMoves cfg a b) (h : a.p.Inv cfg) : b.p.Inv cfg :=
  hm.keep (parserInv_keptInAnyPhase cfg).move h

/-! ## No overflow (R157) -/

/-- Settles O44: an overflow is emitted in phase `BODY` only, where R25 keeps the declared size within `MAX_BODY`. -/
theorem bodyBufferOverflowUnreachable : Obligations.BodyBufferOverflowUnreachable := by
  intro s t i hs hwf hi h he
  cases exec_emits hi h he with
  | transition b hm hevent =>
    obtain ⟨-, hp, hcap⟩ := transition_error_iff.mp hevent
    exact (hm.parserInv hs.2).2.not_overflow hwf hp hcap
  | body b hm limit hp hevent =>
    obtain ⟨-, -, hcap⟩ := bodyTransition_error hevent
    exact (hm.parserInv hs.2).2.not_overflow hwf hp hcap

/-! ## The bounds of a packet (R160) -/

/-- A body as long as it is declared, within `MAX_BODY` and `BODY_CAP`. -/
def PacketInBounds (cfg : Config) (len : Field) (body : List Byte) : Prop :=
  body.length = len.toNat ∧ len.toNat ≤ cfg.maxBody.toNat ∧ len.toNat ≤ cfg.bodyCap

section
variable {cfg : Config} {blk : Block} {type len : Field} {body : List Byte}

theorem judgeSize_packet (h : (judgeSize cfg blk).event = some (.packet type len body)) : len = 0#15 ∧ body = [] := by
  rcases judgeSize_cases cfg blk with ⟨-, hj⟩ | ⟨-, -, hj⟩ | ⟨-, -, hj⟩ <;> rw [hj] at h <;> cases h
  exact ⟨rfl, rfl⟩

/-- The packet of `P.HCSUM` is the empty one (R127). -/
theorem checksumTransition_packet (h : (checksumTransition cfg blk).event = some (.packet type len body)) :
    PacketInBounds cfg len body := by
  rcases checksumTransition_cases cfg blk with ⟨-, ht⟩ | ⟨-, _, -, ⟨-, ht⟩ | ⟨-, ht⟩⟩ <;> rw [ht] at h
  · cases h
  · obtain ⟨rfl, rfl⟩ := judgeSize_packet h
    exact ⟨rfl, Nat.zero_le _, Nat.zero_le _⟩
  · cases h

/-- The packet of `P.BODY` has the declared size, which the accumulator has room for (R128). -/
theorem bodyTransition_packet {limit : Nat} (hbody : blk.p.BodyInv cfg) (hp : blk.p.phase = .body)
    (h : (bodyTransition cfg limit blk).event = some (.packet type len body)) : PacketInBounds cfg len body := by
  rcases bodyTransition_cases cfg limit blk with ⟨-, ht⟩ | ⟨-, -, ht⟩ | ⟨-, hcap, ht⟩
  · rw [ht] at h
    cases h
  · rw [ht] at h
    cases h
  · obtain ⟨-, hmax, -⟩ := hbody hp
    rcases takeBody_cases cfg blk (min (min blk.rb.size limit) (bodyRemainder cfg blk.p)) with ⟨-, hb⟩ | ⟨-, hb⟩ <;>
      rw [ht, hb] at h <;> cases h
    exact ⟨by simp [bodyCopy], hmax, hcap⟩

theorem Block.Emits.packetInBounds (hinv : blk.p.Inv cfg) (h : blk.Emits cfg (.packet type len body)) :
    PacketInBounds cfg len body := by
  cases h with
  | transition b hm hevent =>
    rcases transition_event_some hevent with ⟨-, hcsum⟩ | ⟨hp, hbody⟩
    · exact checksumTransition_packet hcsum
    · exact bodyTransition_packet (hm.parserInv hinv).2 hp hbody
  | body b hm limit hp hevent => exact bodyTransition_packet (hm.parserInv hinv).2 hp hevent

end

/-- Settles O45: a packet is the empty one, or a complete body of phase `BODY`. -/
theorem packetEventsInBounds : Obligations.PacketEventsInBounds :=
  fun _ _ _ _ _ _ hs hi h he => (exec_emits hi h he).packetInBounds hs.2

end Sys2Proof.Machine
end

section
/-! PROOFS. A step with no operation at the port (60_exceptions.md R174, 30_encoding.md R70): it rests, ignores an op code,
or refuses. -/

namespace Sys2Proof.Machine

/-- R70: the op codes above 9 are ignored. -/
theorem decodeOp_of_ge {op : Nat} (h : 10 ≤ op) (rest : List Byte) : decodeOp op rest = .ignored rest := by
  obtain ⟨n, rfl⟩ := Nat.exists_eq_add_of_le' h
  rfl

theorem decode_unassignedOp {c : Byte} (h : 10 ≤ c.toNat) (h' : c.toNat ≤ 15) (rest : List Byte) :
    decode (c :: rest) = .ignored rest := by
  have hformat : c.toNat / 16 = 0 := by omega
  have hop : 10 ≤ c.toNat % 16 := by omega
  simp only [decode, hformat, decodeOp_of_ge hop]

/-- Settles O56, by what the fetch finds: nothing, an ignored op code, or bytes that are no operation. -/
theorem stepRestsIgnoresRefuses : Obligations.StepRestsIgnoresRefuses := by
  refine ⟨fun s h => ?rests, fun s c rest h hlow hhigh => ?ignores, fun s r h => ?refuses⟩
  case rests =>
    have hfetch : s.fetch = .idle := by rw [State.fetch, h]; rfl
    simp only [step, hfetch]
  case ignores =>
    have hfetch : s.fetch = .ignored rest := by rw [State.fetch, h, decode_unassignedOp hlow hhigh]
    simp only [step, hfetch]
    rfl
  case refuses =>
    have hfetch : s.fetch = .reject r := h
    simp only [step, hfetch]

end Sys2Proof.Machine
end

section
/-! PROOFS. RESET and the hazards of the stream (70_reset_and_hazards.md): RESET from any state (R180), what is admitted after
a drive (R187), and a marker behind a partial match (R188). -/

namespace Sys2Proof.Machine

/-! ## RESET (R180) -/

/-- `RESET` leaves what `RB.INIT` and then `P.INIT` leave. -/
theorem exec_reset_of_rbInit {s a : State} (h : exec .rbInit s = .next a) : exec .reset s = exec .pInit a := by
  cases h
  rfl

/-- `RESET` leaves what `P.INIT` and then `RB.INIT` leave. -/
theorem exec_reset_of_pInit {s b : State} (h : exec .pInit s = .next b) : exec .reset s = exec .rbInit b := by
  cases h
  rfl

/-- Settles O19: each of the two operations writes its own half of the block, so their order does not matter. -/
theorem resetFromAnyState : Obligations.ResetFromAnyState := by
  intro s
  have ht : exec .reset s = .next (s.finish { rb := s.block.rb.init, p := s.block.p.init } [] []) := rfl
  exact ⟨Laws.CommandByte.reset.1, _, _, _, ht, rfl, rfl, rfl, rfl, rfl, rfl, rfl,
    rfl, (exec_reset_of_rbInit rfl).symm.trans ht, rfl, (exec_reset_of_pInit rfl).symm.trans ht⟩

/-! ## The room after a drive (R187) -/

/-- Settles O38: a drive leaves at most one byte in the ring buffer. -/
theorem chunkFitsAfterDrive : Obligations.ChunkFitsAfterDrive := by
  intro s data hs hlen
  obtain ⟨-, t, ht, -, hsize, -, hcfg, -, -⟩ := driveReturnsQuiescent s hs
  have hroom : data.length ≤ t.cfg.C - t.block.rb.size := by
    rw [hcfg]
    exact Nat.le_trans hlen (Nat.sub_le_sub_left hsize s.cfg.C)
  exact ⟨t, _, ht, exec_rbAppend_of_le hroom, rfl⟩

/-! ## A marker behind a partial match (R188) -/

/-- The cursor after a byte that does not complete the marker (R123). -/
def cursorAfter (cfg : Config) (k : Fin 3) (b : Byte) : Fin 3 := if b = markerByte cfg k then k + 1 else 0

theorem cursorAfter_of_ne {cfg : Config} {k : Fin 3} {b : Byte} (h : b ≠ markerByte cfg k) : cursorAfter cfg k b = 0 :=
  if_neg h

theorem cursorAfter_zero_ne_two (cfg : Config) (b : Byte) : cursorAfter cfg 0 b ≠ 2 := by
  unfold cursorAfter
  split <;> decide

/-- A byte that does not complete the marker moves the cursor and nothing else (R123). -/
theorem Parser.matchMarker_of_incomplete {cfg : Config} {p : Parser} {b : Byte}
    (h : p.syncCursor ≠ 2 ∨ b ≠ markerByte cfg p.syncCursor) :
    p.matchMarker cfg b = { p with syncCursor := cursorAfter cfg p.syncCursor b } := by
  rcases p.matchMarker_cases cfg b with ⟨hb, hk, -⟩ | ⟨hb, -, hm⟩ | ⟨hb, hm⟩
  · exact absurd hb (h.resolve_left (not_not_intro hk))
  · rw [hm, cursorAfter, if_pos hb]
  · rw [hm, cursorAfter_of_ne hb]

/-- `P.STEP` in `SYNC` consumes a byte that does not complete the marker, emits nothing and stays in `SYNC`. -/
theorem exec_pStep_of_incomplete {s : State} {b : Byte} {rest : List Byte} {p : Parser} {k : Fin 3}
    (hp : p.phase = .sync) (hs : s.block.p = { p with syncCursor := k }) (hc : s.content = b :: rest)
    (h : k ≠ 2 ∨ b ≠ markerByte s.cfg k) :
    ∃ t, exec .pStep s = .next t ∧ t.cfg = s.cfg ∧ t.events = [] ∧ t.content = rest ∧
      t.block.p = { p with syncCursor := cursorAfter s.cfg k b } := by
  refine ⟨_, exec_pStep_of_sync (by rw [hs]; exact hp) hc, rfl, rfl, by rw [State.consumed_content, hc]; rfl, ?_⟩
  rw [hs, Parser.matchMarker_of_incomplete h]
  rfl

/-- Settles O32: the first byte takes the cursor to 0, and from there the two bytes left cannot complete a marker. -/
theorem markerAfterPartialMarkerIsLost : Obligations.MarkerAfterPartialMarkerIsLost := by
  intro s rest _ hp _ hc hmiss
  have hne : s.cfg.sync0 ≠ markerByte s.cfg s.block.p.syncCursor := by
    intro heq
    exact hmiss (by rw [marker_getElem?, ← heq])
  obtain ⟨t, ht, htcfg, htev, htc, htp⟩ := exec_pStep_of_incomplete hp rfl hc (.inr hne)
  rw [cursorAfter_of_ne hne] at htp
  obtain ⟨u, hu, hucfg, huev, huc, hup⟩ := exec_pStep_of_incomplete hp htp htc (.inl (by decide))
  rw [htcfg] at hup
  obtain ⟨v, hv, -, hvev, hvc, hvp⟩ :=
    exec_pStep_of_incomplete hp hup huc (.inl (cursorAfter_zero_ne_two s.cfg s.cfg.sync1))
  refine ⟨t, u, v, _, ht, hu, hv, htev, huev, hvev, hvc, hvp, fun h1 h2 => ?_⟩
  have hzero : cursorAfter s.cfg 0 s.cfg.sync1 = 0 := cursorAfter_of_ne h1
  rw [hucfg, htcfg, hzero]
  exact cursorAfter_of_ne h2

end Sys2Proof.Machine
end
